-- ==== Sys2Proof/Word.lean ====
section
/-! DEFINITION. The bit-vector types of the host port and of the byte buffers (spec/00_scope.md R10, R11). -/

namespace Sys2Proof

/-- A 32-bit word: the unit of every host access (20_memory R60) and of every command (30_encoding R90). -/
abbrev Word := BitVec 32

/-- A 16-bit length, the width of MLEN and OLEN (10_state R26). -/
abbrev Half := BitVec 16

/-- A byte of a byte string (00_scope R11). -/
abbrev Byte := BitVec 8

end Sys2Proof
end

