-- ==== Sys2Proof/Config.lean ====
section
/-! DEFINITION. The parameters of an instance (spec/00_scope.md R6, R7) and the free values of the spec's open
points (00_scope R8, 20_memory R69). The width NBITS is not here: it stands in the CFG register and so in State. -/

namespace Sys2Proof.Config

/-- The default width of a big register (00_scope R6, decision D2). -/
def defaultNBITS : Nat := 2048

/-- The number of big registers, NREG (00_scope R6). -/
def NREG : Nat := 8

/-- The digest length of the hash in bytes, HLEN (00_scope R6, R7). -/
def HLEN : Nat := 32

/-- The word size of the Montgomery multiplier, MONT_W (00_scope R6). -/
def MONT_W : Nat := 32

/-- The deterministic witness list, MR_DET_WITNESSES (00_scope R6, 42_miller_rabin R167). -/
def detWitnesses : List Nat := [2, 3, 5, 7, 11, 13, 17, 19, 23, 29, 31, 37]

/-- Candidates strictly below it use the deterministic list, MR_DET_BOUND (00_scope R6). -/
def detBound : Nat := 3825123056546413051

/-- The upper limit of a random witness, MR_RAND_MAX (00_scope R6). -/
def randMax : Nat := 1048576

/-- The hash core: any function from byte strings to 32 bytes (00_scope R7). OPEN parameter, no body: see log 2. -/
opaque hash : List Byte → Vector Byte 32

/-- The hash `H` as a byte string (00_scope R7, 43_oaep_mgf1 R180). -/
def H (s : List Byte) : List Byte := (hash s).toList

/-- Byte `i` of the `d`-th entropy draw, when that draw asks for bytes (00_scope R8). Free value: see log 3. -/
opaque entropyByte : (d i : Nat) → Byte

/-- The integer behind the `d`-th entropy draw, when that draw asks for an integer in a range (00_scope R8).
Free value: see log 3. -/
opaque entropyNat : (d : Nat) → Nat

/-- What the `r`-th read of a data offset during BUSY = 1 returns (20_memory R69). Free value: see log 4. -/
opaque busyReadWord : (r : Nat) → Word

end Sys2Proof.Config
end

