-- ==== Sys2Proof/Syntax.lean ====
section
/-! DEFINITION. The sixteen commands (spec/30_encoding.md R95, R100). -/

namespace Sys2Proof

/-- A big register's number, 0 to 7 (30_encoding R93). -/
abbrev Reg := Fin 8

/-- The commands, one constructor for each row of the opcode map (30_encoding R95), the fields named as in R91 and R92.
Immediates are the unsigned integers of R94; `Instr.WellFormed` holds their ranges. -/
inductive Instr where
  | nop
  | setmod (ra : Reg)
  | mov (rd ra : Reg)
  | clr (rd : Reg)
  | wipe
  | ldi (rd : Reg) (imm20 : Nat)
  | montmul (rd ra rb : Reg)
  | modmul (rd ra rb : Reg)
  | modsqr (rd ra : Reg)
  | modexp (rd ra rb : Reg)
  | modinv (rd ra rb : Reg)
  | mrwit (ra : Reg)
  | isprime (ra : Reg) (imm12 : Nat)
  | mgf1 (imm12 : Nat)
  | oaepenc (rd : Reg)
  | oaepdec (ra : Reg)
  deriving DecidableEq, Repr

end Sys2Proof
end

