-- ==== Sys2Proof/WellFormed.lean ====
section
/-! DEFINITION. Which instruction terms stand for a command word (spec/30_encoding.md R94). -/

namespace Sys2Proof

/-- The immediates fit their fields: imm12 in 0 ... 4095, imm20 in 0 ... 1048575 (30_encoding R94). The register
fields fit by their type. -/
def Instr.wellFormed : Instr → Bool
  | .nop => true
  | .setmod _ => true
  | .mov _ _ => true
  | .clr _ => true
  | .wipe => true
  | .ldi _ imm20 => decide (imm20 < 2 ^ 20)
  | .montmul _ _ _ => true
  | .modmul _ _ _ => true
  | .modsqr _ _ => true
  | .modexp _ _ _ => true
  | .modinv _ _ _ => true
  | .mrwit _ => true
  | .isprime _ imm12 => decide (imm12 < 2 ^ 12)
  | .mgf1 imm12 => decide (imm12 < 2 ^ 12)
  | .oaepenc _ => true
  | .oaepdec _ => true

end Sys2Proof
end

