-- ==== Sys2Proof/Decode.lean ====
section
/-! DEFINITION. The decoder of a 32-bit command word, total, rejecting by name, and the encoder
(spec/30_encoding.md R91 to R98, spec/00_scope.md R10). -/

namespace Sys2Proof

/-- `v[hi:lo]`: the integer `(v >> lo) mod 2^(hi−lo+1)` (00_scope R10). -/
def bitField (v hi lo : Nat) : Nat := v / 2 ^ lo % 2 ^ (hi - lo + 1)

/-- Why a word is illegal: the three cases of 30_encoding R96. -/
inductive Reject where
  /-- (a) the opcode is not one of the sixteen listed -/
  | reservedOpcode
  /-- (b) a register field the command uses has a value 8 ... 15 -/
  | reservedRegister
  /-- (c) a field the command does not use is not 0 -/
  | unusedFieldNonzero
  deriving DecidableEq, Repr

/-- A register field the command uses (30_encoding R93). -/
def usedReg (field : Nat) : Except Reject Reg :=
  if h : field < 8 then .ok ⟨field, h⟩ else .error .reservedRegister

/-- A field the command does not use must be 0 (30_encoding R93, R96). -/
def unusedField (field : Nat) : Except Reject Unit :=
  if field = 0 then .ok () else .error .unusedFieldNonzero

/-- `decode` (30_encoding R98): a word to the command it is, or to the reason why it is illegal. -/
def decode (w : Word) : Except Reject Instr :=
  let v := w.toNat
  let op := bitField v 31 24
  let rd := bitField v 23 20
  let ra := bitField v 19 16
  let rb := bitField v 15 12
  let imm12 := bitField v 11 0
  let imm20 := bitField v 19 0
  match op with
  | 0x00 => do
    unusedField rd; unusedField ra; unusedField rb; unusedField imm12
    return .nop
  | 0x01 => do
    unusedField rd; let a ← usedReg ra; unusedField rb; unusedField imm12
    return .setmod a
  | 0x02 => do
    let d ← usedReg rd; let a ← usedReg ra; unusedField rb; unusedField imm12
    return .mov d a
  | 0x03 => do
    let d ← usedReg rd; unusedField ra; unusedField rb; unusedField imm12
    return .clr d
  | 0x04 => do
    unusedField rd; unusedField ra; unusedField rb; unusedField imm12
    return .wipe
  | 0x05 => do
    let d ← usedReg rd
    return .ldi d imm20
  | 0x10 => do
    let d ← usedReg rd; let a ← usedReg ra; let b ← usedReg rb; unusedField imm12
    return .montmul d a b
  | 0x11 => do
    let d ← usedReg rd; let a ← usedReg ra; let b ← usedReg rb; unusedField imm12
    return .modmul d a b
  | 0x12 => do
    let d ← usedReg rd; let a ← usedReg ra; unusedField rb; unusedField imm12
    return .modsqr d a
  | 0x13 => do
    let d ← usedReg rd; let a ← usedReg ra; let b ← usedReg rb; unusedField imm12
    return .modexp d a b
  | 0x20 => do
    let d ← usedReg rd; let a ← usedReg ra; let b ← usedReg rb; unusedField imm12
    return .modinv d a b
  | 0x21 => do
    unusedField rd; let a ← usedReg ra; unusedField rb; unusedField imm12
    return .mrwit a
  | 0x22 => do
    unusedField rd; let a ← usedReg ra; unusedField rb
    return .isprime a imm12
  | 0x30 => do
    unusedField rd; unusedField ra; unusedField rb
    return .mgf1 imm12
  | 0x31 => do
    let d ← usedReg rd; unusedField ra; unusedField rb; unusedField imm12
    return .oaepenc d
  | 0x32 => do
    unusedField rd; let a ← usedReg ra; unusedField rb; unusedField imm12
    return .oaepdec a
  | _ => .error .reservedOpcode

/-- A word of format R (30_encoding R91). -/
def formatR (op rd ra rb imm12 : Nat) : Word :=
  BitVec.ofNat 32 (op * 2 ^ 24 + rd * 2 ^ 20 + ra * 2 ^ 16 + rb * 2 ^ 12 + imm12)

/-- A word of format I (30_encoding R92). -/
def formatI (op rd imm20 : Nat) : Word :=
  BitVec.ofNat 32 (op * 2 ^ 24 + rd * 2 ^ 20 + imm20)

/-- The encoder: the word of a well-formed command (30_encoding R91, R92, R95). -/
def encode : Instr → Word
  | .nop => formatR 0x00 0 0 0 0
  | .setmod ra => formatR 0x01 0 ra 0 0
  | .mov rd ra => formatR 0x02 rd ra 0 0
  | .clr rd => formatR 0x03 rd 0 0 0
  | .wipe => formatR 0x04 0 0 0 0
  | .ldi rd imm20 => formatI 0x05 rd imm20
  | .montmul rd ra rb => formatR 0x10 rd ra rb 0
  | .modmul rd ra rb => formatR 0x11 rd ra rb 0
  | .modsqr rd ra => formatR 0x12 rd ra 0 0
  | .modexp rd ra rb => formatR 0x13 rd ra rb 0
  | .modinv rd ra rb => formatR 0x20 rd ra rb 0
  | .mrwit ra => formatR 0x21 0 ra 0 0
  | .isprime ra imm12 => formatR 0x22 0 ra 0 imm12
  | .mgf1 imm12 => formatR 0x30 0 0 0 imm12
  | .oaepenc rd => formatR 0x31 rd 0 0 0
  | .oaepdec ra => formatR 0x32 0 ra 0 0

/-- `match` of a command's row (30_encoding R95). -/
def Instr.matchWord : Instr → Word
  | .nop => 0x00000000
  | .setmod _ => 0x01000000
  | .mov _ _ => 0x02000000
  | .clr _ => 0x03000000
  | .wipe => 0x04000000
  | .ldi _ _ => 0x05000000
  | .montmul _ _ _ => 0x10000000
  | .modmul _ _ _ => 0x11000000
  | .modsqr _ _ => 0x12000000
  | .modexp _ _ _ => 0x13000000
  | .modinv _ _ _ => 0x20000000
  | .mrwit _ => 0x21000000
  | .isprime _ _ => 0x22000000
  | .mgf1 _ => 0x30000000
  | .oaepenc _ => 0x31000000
  | .oaepdec _ => 0x32000000

/-- `mask` of a command's row (30_encoding R95). -/
def Instr.maskWord : Instr → Word
  | .nop => 0xFFFFFFFF
  | .setmod _ => 0xFFF8FFFF
  | .mov _ _ => 0xFF88FFFF
  | .clr _ => 0xFF8FFFFF
  | .wipe => 0xFFFFFFFF
  | .ldi _ _ => 0xFF800000
  | .montmul _ _ _ => 0xFF888FFF
  | .modmul _ _ _ => 0xFF888FFF
  | .modsqr _ _ => 0xFF88FFFF
  | .modexp _ _ _ => 0xFF888FFF
  | .modinv _ _ _ => 0xFF888FFF
  | .mrwit _ => 0xFFF8FFFF
  | .isprime _ _ => 0xFFF8F000
  | .mgf1 _ => 0xFFFFF000
  | .oaepenc _ => 0xFF8FFFFF
  | .oaepdec _ => 0xFFF8FFFF

/-- The sixteen (match, mask) pairs of the opcode map, in its order (30_encoding R95). -/
def opcodeMap : List (Word × Word) :=
  [(0x00000000, 0xFFFFFFFF), (0x01000000, 0xFFF8FFFF), (0x02000000, 0xFF88FFFF), (0x03000000, 0xFF8FFFFF),
   (0x04000000, 0xFFFFFFFF), (0x05000000, 0xFF800000), (0x10000000, 0xFF888FFF), (0x11000000, 0xFF888FFF),
   (0x12000000, 0xFF88FFFF), (0x13000000, 0xFF888FFF), (0x20000000, 0xFF888FFF), (0x21000000, 0xFFF8FFFF),
   (0x22000000, 0xFFF8F000), (0x30000000, 0xFFFFF000), (0x31000000, 0xFF8FFFFF), (0x32000000, 0xFFF8FFFF)]

/-- The instruction the decoder reads from an instruction of `nbits` bits whose value is `w`: a command is one 32-bit
word and no byte order applies to it (30_encoding R90, 20_memory R66). -/
def decodeTableWord (nbits w : Nat) : Option Instr :=
  (decode (BitVec.ofNat 32 (w % 2 ^ nbits))).toOption

end Sys2Proof
end

