-- ==== Sys2Proof/Machine/Arith.lean ====
section
/-! DEFINITION. The integer functions of the commands, by their results in a form that can be evaluated
(spec/00_scope.md R9, R14; spec/40_setup_move.md R122; spec/41_modexp.md R141; spec/42_miller_rabin.md R161 to R164). -/

namespace Sys2Proof.Machine

/-- `bitlen(v)`: bitlen(0) = 0, else the unique b with 2^(b−1) ≤ v < 2^b (00_scope R9). -/
def bitlen (v : Nat) : Nat := if v = 0 then 0 else Nat.log2 v + 1

/-- `ceil(nb / 8)`, the byte length of an integer of `nb` bits (10_state R24). -/
def byteLen (nb : Nat) : Nat := (nb + 7) / 8

/-- The low `j` bits of the t with (v·t + 1) mod 2^32 = 0, found bit by bit (v odd). -/
def negInvBits (v : Nat) : Nat → Nat
  | 0 => 0
  | j + 1 => if (v * negInvBits v j + 1) / 2 ^ j % 2 = 1 then negInvBits v j + 2 ^ j else negInvBits v j

/-- NP: the unique t < 2^32 with (v·t + 1) mod 2^32 = 0, for odd v (40_setup_move R122). -/
def negInv32 (v : Nat) : Word := BitVec.ofNat 32 (negInvBits v 32)

/-- One pass per bit of the exponent `e`, least significant first: `acc · b^e mod n`. The fuel is the number of bits left. -/
def powLoop (n : Nat) : (fuel b e acc : Nat) → Nat
  | 0, _, _, acc => acc
  | fuel + 1, b, e, acc => powLoop n fuel (b * b % n) (e / 2) (if e % 2 = 1 then acc * b % n else acc)

/-- `(b ^ e) mod n` (00_scope R9, 41_modexp R146), by squaring so that it can be evaluated (log 11). -/
def powMod (b e n : Nat) : Nat := powLoop n (bitlen e) (b % n) e (1 % n)

/-- One step of the Montgomery multiplier: the word `word` of a times all of b (41_modexp R141). -/
def montStep (n np b word T : Nat) : Nat :=
  let U := T + word * b
  let m := bitField (bitField U 31 0 * np) 31 0
  (U + m * n) / 2 ^ 32

/-- The steps of the multiplier for the words i, i + 1, ... of a, `steps` of them (41_modexp R141). -/
def montLoop (n np a b : Nat) : (steps i T : Nat) → Nat
  | 0, _, T => T
  | steps + 1, i, T => montLoop n np a b steps (i + 1) (montStep n np b (bitField a (32 * i + 31) (32 * i)) T)

/-- `MontMul(a, b)`, word by word, NW steps and one conditional subtraction (41_modexp R141). -/
def montMul (nw n np a b : Nat) : Nat :=
  let T := montLoop n np a b nw 0 0
  if n ≤ T then T - n else T

/-- The halvings of `Decomp`, at most `fuel` of them (42_miller_rabin R161). -/
def decompLoop : (fuel d s : Nat) → Nat × Nat
  | 0, d, s => (d, s)
  | fuel + 1, d, s => if d % 2 = 0 then decompLoop fuel (d / 2) (s + 1) else (d, s)

/-- `Decomp(n)`: the pair (d, s) with n − 1 = d·2^s and d odd, for odd n ≥ 3 (42_miller_rabin R161). -/
def decomp (n : Nat) : Nat × Nat := decompLoop (bitlen n) (n - 1) 0

/-- The squaring loop of a witness round: at most `steps` squarings, looking for n − 1 (42_miller_rabin R162). -/
def squareLoop (n : Nat) : (steps x : Nat) → Bool
  | 0, _ => false
  | steps + 1, x =>
    let y := x * x % n
    if y = n - 1 then true else squareLoop n steps y

/-- `Round(n, a)`: true for `pass` (42_miller_rabin R162). -/
def mrRound (n a : Nat) : Bool :=
  let ds := decomp n
  let x := powMod a ds.1 n
  if x = 1 ∨ x = n - 1 then true else squareLoop n (ds.2 - 1) x

/-- The deterministic part of `Witnesses(n, rounds)`: the twelve witnesses at most n − 2 (42_miller_rabin R167). -/
def fixedWitnesses (n : Nat) : List Nat := Config.detWitnesses.filter (· ≤ n - 2)

/-- The extended Euclidean loop, at most `fuel` iterations, from (r0, r1) and (t0, t1) to (r0, t0) (42_miller_rabin R164). -/
def euclidLoop : (fuel r0 r1 : Nat) → (t0 t1 : Int) → Nat × Int
  | 0, r0, _, t0, _ => (r0, t0)
  | fuel + 1, r0, r1, t0, t1 =>
    if r1 = 0 then (r0, t0)
    else
      let q := r0 / r1
      euclidLoop fuel r1 (r0 - q * r1) t1 (t0 - q * t1)

/-- `Inverse(a, m)`, for m ≥ 2 and a < m: the inverse of a modulo m, or none (42_miller_rabin R164). `fuel` bounds the
iterations. -/
def euclidInverse (fuel a m : Nat) : Option Nat :=
  let g := euclidLoop fuel m a 0 1
  if g.1 = 1 then some (g.2 % (m : Int)).toNat else none

end Sys2Proof.Machine
end

