-- ==== Sys2Proof/Machine/Octets.lean ====
section
/-! DEFINITION. Byte strings: the big-endian conversions, the mask generator and the OAEP codec, each for any hash `h`
(spec/00_scope.md R11, R12; spec/43_oaep_mgf1.md R181, R183, R185). -/

namespace Sys2Proof.Machine

/-- `OS2IP(s)`: the integer of a byte string, first byte most significant (00_scope R12). -/
def os2ip (s : List Byte) : Nat := s.foldl (fun acc b => acc * 256 + b.toNat) 0

/-- `I2OSP(v, len)`: the byte string of length `len` whose integer is v, for v < 256^len (00_scope R12). -/
def i2osp (v len : Nat) : List Byte :=
  (List.range len).map fun t => BitVec.ofNat 8 (v / 256 ^ (len - 1 - t))

/-- `BE32(c)` (00_scope R12). -/
def be32 (c : Nat) : List Byte := i2osp c 4

/-- `s ⊕ t` for equal lengths (00_scope R11). -/
def xorBytes (s t : List Byte) : List Byte := List.zipWith (· ^^^ ·) s t

/-- `mgf1(seed, L)`: the digests of seed ‖ BE32(0), seed ‖ BE32(1), ..., ceil(L/32) of them, cut to L bytes
(43_oaep_mgf1 R181). -/
def mgf1 (h : List Byte → List Byte) (seed : List Byte) (len : Nat) : List Byte :=
  ((List.range ((len + 31) / 32)).flatMap fun c => h (seed ++ be32 c)).take len

/-- DB = LHASH ‖ zero padding ‖ 0x01 ‖ msg, of k − 33 bytes (43_oaep_mgf1 R183). -/
def dataBlock (h : List Byte → List Byte) (msg : List Byte) (k : Nat) : List Byte :=
  h [] ++ List.replicate (k - msg.length - 66) 0 ++ [1] ++ msg

/-- The masking of a data block and of the seed, the second by a mask of the first: 0x00 ‖ maskedSeed ‖ maskedDB
(43_oaep_mgf1 R183). -/
def maskBlock (h : List Byte → List Byte) (db : List Byte) (k : Nat) (seed : List Byte) : List Byte :=
  let maskedDB := xorBytes db (mgf1 h seed (k - 33))
  let maskedSeed := xorBytes seed (mgf1 h maskedDB 32)
  [0] ++ maskedSeed ++ maskedDB

/-- `OaepEncode(msg, k, seed)`, for len(msg) ≤ k − 66 and a seed of 32 bytes (43_oaep_mgf1 R183). -/
def oaepEncode (h : List Byte → List Byte) (msg : List Byte) (k : Nat) (seed : List Byte) : List Byte :=
  maskBlock h (dataBlock h msg k) k seed

/-- What follows the first byte 0x01 of a byte string, if it has one (43_oaep_mgf1 R185). -/
def afterSeparator : List Byte → Option (List Byte)
  | [] => none
  | b :: rest => if b = 1 then some rest else afterSeparator rest

/-- The two failures of `OaepDecode` (43_oaep_mgf1 R185). -/
inductive DecodeFail where
  | labelMismatch
  | separatorNotFound
  deriving DecidableEq, Repr

/-- DB as `OaepDecode` recovers it from an encoded message of k bytes (43_oaep_mgf1 R185). -/
def recoverDB (h : List Byte → List Byte) (em : List Byte) (k : Nat) : List Byte :=
  let maskedSeed := (em.drop 1).take 32
  let maskedDB := em.drop 33
  let seed := xorBytes maskedSeed (mgf1 h maskedDB 32)
  xorBytes maskedDB (mgf1 h seed (k - 33))

/-- `OaepDecode(EM, k)`, for len(EM) = k ≥ 66: the label check first, then the scan (43_oaep_mgf1 R185). -/
def oaepDecode (h : List Byte → List Byte) (em : List Byte) (k : Nat) : Except DecodeFail (List Byte) :=
  let db := recoverDB h em k
  if db.take 32 ≠ h [] then .error .labelMismatch
  else
    match afterSeparator (db.drop 32) with
    | none => .error .separatorNotFound
    | some msg => .ok msg

end Sys2Proof.Machine
end

