-- ==== Sys2Proof/Machine/State.lean ====
section
/-! DEFINITION. The machine's state (spec/10_state.md), the host's actions (spec/20_memory.md R62, R63,
spec/70_reset_and_hazards.md R280), the reasons a step can stop, and the state after reset (10_state R38). -/

namespace Sys2Proof.Machine

/-- A byte buffer as (index, byte) cells: indices strictly rising, no cell holding 0, the byte an unlisted index reads as
(10_state R26, R38; log 9). -/
abbrev Memory := List Host.Cell

/-- The ten fault causes (60_exceptions R241). -/
inductive ErrCode where
  | illegalCmd
  | noModulus
  | badModulus
  | operandRange
  | notCoprime
  | length
  | msgTooLong
  | oaepFormat
  | labelMismatch
  | sepNotFound
  deriving DecidableEq, Repr

/-- What may happen next at the block's ports (10_state R20; log 5). -/
inductive Event where
  /-- the host writes a word at a byte offset of the window (20_memory R63) -/
  | write (offset : Nat) (value : Word)
  /-- the host reads the word at a byte offset of the window (20_memory R62) -/
  | read (offset : Nat)
  /-- a slot in which the engine completes its pending command, if it has one (10_state R20) -/
  | engine
  /-- the platform asserts the hardware reset input (70_reset_and_hazards R280) -/
  | hwReset
  deriving DecidableEq, Repr

/-- The whole state. Every field but the last four is the spec's. -/
structure State where
  /-- CFG.NBITS, constant for an instance (10_state R32, 00_scope R6; log 1) -/
  nbits : Nat
  /-- the big registers X0 ... X7, integers below 2^NBITS (10_state R21; log 8) -/
  x : Vector Nat 8
  /-- the modulus register N (10_state R24) -/
  n : Nat
  /-- STATUS.MODV: N holds a validated modulus (10_state R24) -/
  modv : Bool
  /-- NB, the bit length of N (10_state R24) -/
  nb : Nat
  /-- K, the byte length of N (10_state R24) -/
  k : Nat
  /-- NP = −N⁻¹ mod 2^32 (10_state R24) -/
  np : Word
  /-- RR = 2^(2·NBITS) mod N (10_state R24) -/
  rr : Nat
  /-- STATUS.P, the verdict (10_state R25) -/
  p : Bool
  /-- the message buffer MB (10_state R26) -/
  mb : Memory
  /-- MLEN (10_state R33) -/
  mlen : Half
  /-- the output buffer OB (10_state R26) -/
  ob : Memory
  /-- OLEN (10_state R34) -/
  olen : Half
  /-- CTRL.IE (10_state R28) -/
  ie : Bool
  /-- STATUS.BUSY (10_state R29) -/
  busy : Bool
  /-- STATUS.DONE (10_state R29) -/
  done : Bool
  /-- STATUS.OVR (10_state R29) -/
  ovr : Bool
  /-- STATUS.ERR, `none` for the code 0 (10_state R29, 60_exceptions R241; log 15) -/
  err : Option ErrCode
  /-- ECMD (10_state R31) -/
  ecmd : Word
  /-- CMDREG, the pending command (10_state R30, R35) -/
  cmdReg : Word
  /-- the command index `cp` (10_state R23) -/
  cp : Nat
  /-- the model's own: entropy draws consumed so far (log 3) -/
  draws : Nat
  /-- the model's own: unspecified reads made so far (log 4) -/
  busyReads : Nat
  /-- the model's own: the word the port returned on the host's last read (log 6) -/
  hostData : Word
  /-- the model's own: what the host, the scheduler and the platform do next, oldest first (log 5) -/
  events : List Event
  deriving DecidableEq, Repr

/-- Why a step stops with a fault. No command stops the machine: a command's fault is a next state (60_exceptions R244). -/
inductive Fault where
  /-- Raised by a host access outside the window 0x0000 ... 0x7FFF, which the port cannot carry (20_memory R67; log 14). Safe. -/
  | outsideWindow (offset : Nat)
  deriving DecidableEq, Repr

/-- Why a step is refused. -/
inductive Refusal where
  /-- Raised by `exec` alone, for an instruction without a meaning; no arm uses it now. Safe. -/
  | notModelled (mnemonic : String)
  /-- Raised by a host access whose offset is not a multiple of 4, which the port cannot carry (20_memory R67; log 14). Safe. -/
  | misalignedAccess (offset : Nat)
  deriving DecidableEq, Repr

/-- The state after reset, for an instance of the default width (10_state R38, 00_scope R6). -/
def State.reset : State where
  nbits := Config.defaultNBITS
  x := Vector.replicate 8 0
  n := 0
  modv := false
  nb := 0
  k := 0
  np := 0
  rr := 0
  p := false
  mb := []
  mlen := 0
  ob := []
  olen := 0
  ie := false
  busy := false
  done := false
  ovr := false
  err := none
  ecmd := 0
  cmdReg := 0
  cp := 0
  draws := 0
  busyReads := 0
  hostData := 0
  events := []

end Sys2Proof.Machine
end

