-- ==== Sys2Proof/Machine/Ops.lean ====
section
/-! DEFINITION. The shared operations over buffers and registers, completing a command, taking a fault and
acknowledging it, and reset (spec/10_state.md, spec/40_setup_move.md R120, spec/60_exceptions.md R244, R246,
spec/70_reset_and_hazards.md R281). -/

namespace Sys2Proof.Machine

/-! ### Byte buffers -/

/-- The canonical form: indices strictly rising, no listed byte equal to 0 (log 9). -/
abbrev Memory.wf (m : Memory) : Prop := m.Pairwise (fun a b => a.1 < b.1) ∧ ∀ c ∈ m, c.2 ≠ 0

/-- The byte at an index; an unlisted index reads as 0 (10_state R38: every byte 0 after reset). -/
def Memory.readByte (m : Memory) (i : Nat) : Byte :=
  match m with
  | [] => 0
  | (j, b) :: rest => if j = i then b else Memory.readByte rest i

/-- Writes a byte and keeps the canonical form: writing 0 removes the cell. -/
def Memory.writeByte (m : Memory) (i : Nat) (b : Byte) : Memory :=
  match m with
  | [] => if b = 0 then [] else [(i, b)]
  | (j, c) :: rest =>
    if i < j then (if b = 0 then (j, c) :: rest else (i, b) :: (j, c) :: rest)
    else if i = j then (if b = 0 then rest else (i, b) :: rest)
    else (j, c) :: Memory.writeByte rest i b

/-- The buffer that holds `bytes` from index `i` on and 0 elsewhere. -/
def Memory.ofBytesFrom (i : Nat) (bytes : List Byte) : Memory :=
  match bytes with
  | [] => []
  | b :: rest => if b = 0 then Memory.ofBytesFrom (i + 1) rest else (i, b) :: Memory.ofBytesFrom (i + 1) rest

/-- The buffer that holds `bytes` from index 0 on and 0 elsewhere (43_oaep_mgf1 R182, R186). -/
def Memory.ofBytes (bytes : List Byte) : Memory := Memory.ofBytesFrom 0 bytes

/-- The byte string B[0 .. len) of a buffer (00_scope R11). -/
def Memory.bytes (m : Memory) (len : Nat) : List Byte := (List.range len).map m.readByte

/-- Word j of a byte buffer: the byte with the lowest index in bits 7:0 (20_memory R65). -/
def Memory.readWord (m : Memory) (j : Nat) : Word :=
  BitVec.ofNat 32 ((m.readByte (4 * j)).toNat + 256 * (m.readByte (4 * j + 1)).toNat
    + 65536 * (m.readByte (4 * j + 2)).toNat + 16777216 * (m.readByte (4 * j + 3)).toNat)

/-- A write of `w` to word j of a byte buffer: B[4j+t] <- w[8t+7:8t] (20_memory R65). -/
def Memory.writeWord (m : Memory) (j : Nat) (w : Word) : Memory :=
  (((m.writeByte (4 * j) (BitVec.ofNat 8 (bitField w.toNat 7 0))).writeByte
    (4 * j + 1) (BitVec.ofNat 8 (bitField w.toNat 15 8))).writeByte
    (4 * j + 2) (BitVec.ofNat 8 (bitField w.toNat 23 16))).writeByte
    (4 * j + 3) (BitVec.ofNat 8 (bitField w.toNat 31 24))

/-! ### Big registers -/

/-- NW, the words of a big register (00_scope R6). -/
def State.nw (s : State) : Nat := s.nbits / 32

/-- BUFMAX, the bytes of a buffer (00_scope R6). -/
def State.bufMax (s : State) : Nat := s.nbits / 8

/-- `X[i]` (10_state R21). -/
def State.getX (s : State) (i : Reg) : Nat := s.x[i]

/-- `X[i] <- v`, v below 2^NBITS (00_scope R13; log 8). -/
def State.setX (s : State) (i : Reg) (v : Nat) : State := { s with x := s.x.set i v }

/-- Word j of a big value: V[32j+31 : 32j] (20_memory R64). -/
def bigWord (v j : Nat) : Word := BitVec.ofNat 32 (bitField v (32 * j + 31) (32 * j))

/-- A write of `w` to word j of a big value (20_memory R64). -/
def setBigWord (v j : Nat) (w : Word) : Nat :=
  v - bitField v (32 * j + 31) (32 * j) * 2 ^ (32 * j) + w.toNat * 2 ^ (32 * j)

/-! ### The modulus register -/

/-- Loads a validated modulus with everything derived from it (40_setup_move R122, 42_miller_rabin R166). -/
def State.loadModulus (s : State) (v : Nat) : State :=
  { s with
    n := v
    nb := bitlen v
    k := byteLen (bitlen v)
    np := negInv32 v
    rr := 2 ^ (2 * s.nbits) % v
    modv := true }

/-- `MontMul(a, b)` under the loaded modulus (41_modexp R141). -/
def State.montMul (s : State) (a b : Nat) : Nat := Machine.montMul s.nw s.n s.np.toNat a b

/-! ### The output buffer -/

/-- Writes OB from index 0, zero fill after it, and OLEN (43_oaep_mgf1 R182, R186). -/
def State.setOutput (s : State) (bytes : List Byte) : State :=
  { s with ob := Memory.ofBytes bytes, olen := BitVec.ofNat 16 bytes.length }

/-! ### The end of a command -/

/-- A command ends without a fault: CMDREG <- 0, BUSY <- 0, DONE <- 1 (40_setup_move R120). -/
def State.complete (s : State) : State := { s with cmdReg := 0, busy := false, done := true }

/-- Taking a fault, `raise E_x(w)` with w the pending command word: ERR and ECMD record it, CMDREG <- 0, BUSY <- 0,
DONE <- 1, and nothing else changes (60_exceptions R244). -/
def State.raise (s : State) (e : ErrCode) : State :=
  { s with err := some e, ecmd := s.cmdReg, cmdReg := 0, busy := false, done := true }

/-- Returning from a fault, the effect of CTRL.EACK: ERR, OVR and ECMD <- 0 (60_exceptions R246, 10_state R28). -/
def State.acknowledge (s : State) : State := { s with err := none, ovr := false, ecmd := 0 }

/-- The code of a fault in STATUS.ERR (60_exceptions R241). -/
def errCode : ErrCode → Byte
  | .illegalCmd => 0x01
  | .noModulus => 0x02
  | .badModulus => 0x03
  | .operandRange => 0x04
  | .notCoprime => 0x05
  | .length => 0x06
  | .msgTooLong => 0x07
  | .oaepFormat => 0x08
  | .labelMismatch => 0x09
  | .sepNotFound => 0x0A

/-! ### Starting a command, overrun, reset -/

/-- The latch of an accepted command word: CMDREG <- w, BUSY <- 1, DONE <- 0 (10_state R30). -/
def State.latch (s : State) (w : Word) : State := { s with cmdReg := w, busy := true, done := false }

/-- A refused host write leaves OVR <- 1 and nothing else (10_state R30, 20_memory R69). -/
def State.refuseWrite (s : State) : State := { s with ovr := true }

/-- A write to CMD: accepted when BUSY = 0 and ERR = 0, else refused (10_state R30). -/
def State.writeCmd (s : State) (w : Word) : State :=
  if s.busy = false ∧ s.err = none then { s.latch w with cp := s.cp + 1 } else s.refuseWrite

/-- Hardware or soft reset: every piece of state takes its reset value; CFG is constant, `cp` and the model's own fields
are not touched (10_state R38, 70_reset_and_hazards R281; log 3, log 18). -/
def State.resetBlock (s : State) : State :=
  { State.reset with
    nbits := s.nbits
    cp := s.cp
    draws := s.draws
    busyReads := s.busyReads
    hostData := s.hostData
    events := s.events }

/-! ### Draws -/

/-- `RngBytes(32)` as draw number `d` (00_scope R8; log 3). -/
def rngBytes32 (d : Nat) : List Byte := (List.range 32).map (Config.entropyByte d)

/-- A raw random integer brought into lo ... hi: every value of the range is one for some `r`, and no other is. -/
def drawIn (lo hi r : Nat) : Nat := lo + r % (hi - lo + 1)

/-- `RngRange(lo, hi)` as draw number `d`: any integer v with lo ≤ v ≤ hi (00_scope R8; log 3). -/
def rngRange (lo hi d : Nat) : Nat := drawIn lo hi (Config.entropyNat d)

/-- `Witnesses(n, rounds)` with the draws numbered from `d` on, all of them drawn (42_miller_rabin R167). -/
def witnesses (n rounds d : Nat) : List Nat :=
  if n < Config.detBound then fixedWitnesses n
  else (List.range rounds).map fun j => rngRange 2 (min (n - 2) Config.randMax) (d + j)

/-- How many draws `Witnesses(n, rounds)` consumes (42_miller_rabin R167, 95_test_vectors V47). -/
def witnessDraws (n rounds : Nat) : Nat := if n < Config.detBound then 0 else rounds

end Sys2Proof.Machine
end

