-- ==== Sys2Proof/Machine/Operands.lean ====
section
/-! DEFINITION. The operand forms of the commands and their checks (spec/30_encoding.md R93, R94; spec/41_modexp.md
R140; spec/20_memory.md R75). A command's operands are big registers named by its fields, the modulus register, the
message buffer, and an immediate. -/

namespace Sys2Proof.Machine

/-- The checks of 41_modexp R140 with the operands in `ops`: a loaded modulus, then every operand below N. -/
def rangeFault (s : State) (ops : List Nat) : Option ErrCode :=
  if s.modv = false then some .noModulus
  else if ops.any (fun v => s.n ≤ v) then some .operandRange
  else none

/-- Runs a command whose checks answered `fault`: the fault, or the completed effect (40_setup_move R120). -/
def commit (s : State) (fault : Option ErrCode) (effect : State) : State :=
  match fault with
  | some e => s.raise e
  | none => effect.complete

/-- The input byte string MB[0 .. MLEN) (20_memory R75). -/
def State.message (s : State) : List Byte := s.mb.bytes s.mlen.toNat

/-- `zext_NBITS(imm20)`, the value LDI loads (40_setup_move R126, 30_encoding R94). -/
def immValue (imm20 : Nat) : Nat := imm20

end Sys2Proof.Machine
end

