-- ==== Sys2Proof/Machine/Masking.lean ====
section
/-! DEFINITION. The mask generator's and the OAEP codec's commands (spec/43_oaep_mgf1.md R182, R184, R186). -/

namespace Sys2Proof.Machine

/-- MGF1 len: generate a mask from the message buffer (43_oaep_mgf1 R182). -/
def execMgf1 (len : Nat) (s : State) : Host.Outcome State Fault Refusal :=
  let fault : Option ErrCode :=
    if s.bufMax < s.mlen.toNat ∨ s.bufMax < len then some .length else none
  .next (commit s fault (s.setOutput (mgf1 Config.H s.message len)))

/-- The checks of OAEPENC, in order, all before the draw (43_oaep_mgf1 R184, 60_exceptions R243). -/
def oaepencFault (s : State) : Option ErrCode :=
  if s.modv = false then some .noModulus
  else if s.bufMax < s.mlen.toNat then some .length
  else if s.k < s.mlen.toNat + 66 then some .msgTooLong
  else none

/-- OAEPENC Xd: pad the message in MB for the loaded modulus (43_oaep_mgf1 R184). -/
def execOaepenc (rd : Reg) (s : State) : Host.Outcome State Fault Refusal :=
  let em := oaepEncode Config.H s.message s.k (rngBytes32 s.draws)
  let drawn := { s with draws := s.draws + 1 }
  .next (commit s (oaepencFault s) (drawn.setX rd (os2ip em)))

/-- OAEPDEC Xa: recover the message from an encoded integer (43_oaep_mgf1 R186). -/
def execOaepdec (ra : Reg) (s : State) : Host.Outcome State Fault Refusal :=
  let v := s.getX ra
  if s.modv = false then .next (s.raise .noModulus)
  else if s.k < 66 ∨ 256 ^ s.k ≤ v then .next (s.raise .oaepFormat)
  else
    match oaepDecode Config.H (i2osp v s.k) s.k with
    | .error .labelMismatch => .next (s.raise .labelMismatch)
    | .error .separatorNotFound => .next (s.raise .sepNotFound)
    | .ok msg => .next (s.setOutput msg).complete

end Sys2Proof.Machine
end

