-- ==== Sys2Proof/Machine/Modexp.lean ====
section
/-! DEFINITION. The modular arithmetic commands (spec/41_modexp.md R140 to R146). -/

namespace Sys2Proof.Machine

/-- MONTMUL Xd, Xa, Xb: one raw Montgomery product (41_modexp R143). -/
def execMontmul (rd ra rb : Reg) (s : State) : Host.Outcome State Fault Refusal :=
  let a := s.getX ra
  let b := s.getX rb
  .next (commit s (rangeFault s [a, b]) (s.setX rd (s.montMul a b)))

/-- MODMUL Xd, Xa, Xb: modular product (41_modexp R144). -/
def execModmul (rd ra rb : Reg) (s : State) : Host.Outcome State Fault Refusal :=
  let a := s.getX ra
  let b := s.getX rb
  .next (commit s (rangeFault s [a, b]) (s.setX rd (a * b % s.n)))

/-- MODSQR Xd, Xa: modular square (41_modexp R145). -/
def execModsqr (rd ra : Reg) (s : State) : Host.Outcome State Fault Refusal :=
  let a := s.getX ra
  .next (commit s (rangeFault s [a]) (s.setX rd (a * a % s.n)))

/-- MODEXP Xd, Xa, Xb: modular power; the exponent is not range-checked (41_modexp R140, R146). -/
def execModexp (rd ra rb : Reg) (s : State) : Host.Outcome State Fault Refusal :=
  let a := s.getX ra
  .next (commit s (rangeFault s [a]) (s.setX rd (powMod a (s.getX rb) s.n)))

end Sys2Proof.Machine
end

