-- ==== Sys2Proof/Machine/Setup.lean ====
section
/-! DEFINITION. The set-up, move and erase commands (spec/40_setup_move.md R121 to R126). -/

namespace Sys2Proof.Machine

/-- NOP (40_setup_move R121). -/
def execNop (s : State) : Host.Outcome State Fault Refusal := .next s.complete

/-- SETMOD Xa: load and validate the modulus (40_setup_move R122). -/
def execSetmod (ra : Reg) (s : State) : Host.Outcome State Fault Refusal :=
  let v := s.getX ra
  .next (commit s (if v < 3 ∨ v % 2 = 0 then some .badModulus else none) (s.loadModulus v))

/-- MOV Xd, Xa (40_setup_move R123). -/
def execMov (rd ra : Reg) (s : State) : Host.Outcome State Fault Refusal :=
  .next (s.setX rd (s.getX ra)).complete

/-- CLR Xd (40_setup_move R124). -/
def execClr (rd : Reg) (s : State) : Host.Outcome State Fault Refusal := .next (s.setX rd 0).complete

/-- WIPE: erase every data value (40_setup_move R125). -/
def execWipe (s : State) : Host.Outcome State Fault Refusal :=
  .next
    { s with
      x := Vector.replicate 8 0
      n := 0
      modv := false
      nb := 0
      k := 0
      np := 0
      rr := 0
      mb := []
      ob := []
      mlen := 0
      olen := 0
      p := false }.complete

/-- LDI Xd, imm20 (40_setup_move R126). -/
def execLdi (rd : Reg) (imm20 : Nat) (s : State) : Host.Outcome State Fault Refusal :=
  .next (s.setX rd (immValue imm20)).complete

end Sys2Proof.Machine
end

