-- ==== Sys2Proof/Machine/Flags.lean ====
section
/-! DEFINITION. The verdict flag and the status word (spec/10_state.md R25, R28, R29, R32, R36). -/

namespace Sys2Proof.Machine

/-- `P <- b` (10_state R25). -/
def State.setVerdict (s : State) (b : Bool) : State := { s with p := b }

/-- The interrupt output, a level: IE and DONE (10_state R36, 60_exceptions R248). -/
def State.irq (s : State) : Bool := s.ie && s.done

/-- The 8 bits of STATUS.ERR (60_exceptions R241). -/
def State.errByte (s : State) : Byte :=
  match s.err with
  | none => 0
  | some e => errCode e

/-- STATUS as the host reads it: BUSY 0, DONE 1, P 2, MODV 3, OVR 4, ERR 15:8, the rest 0 (10_state R29). -/
def State.statusWord (s : State) : Word :=
  BitVec.ofNat 32 (s.busy.toNat + 2 * s.done.toNat + 4 * s.p.toNat + 8 * s.modv.toNat + 16 * s.ovr.toNat
    + 256 * s.errByte.toNat)

/-- CTRL as the host reads it: IE in bit 0 and zeros elsewhere (10_state R28). -/
def State.ctrlWord (s : State) : Word := BitVec.ofNat 32 s.ie.toNat

/-- CFG: NBITS in 15:0, HLEN in 23:16, NREG in 31:24 (10_state R32). -/
def State.cfgWord (s : State) : Word :=
  BitVec.ofNat 32 (s.nbits + 65536 * Config.HLEN + 16777216 * Config.NREG)

/-- A write to CTRL: bit 31 resets and the rest is ignored, otherwise IE takes bit 0, then EACK (bit 1), then DACK (bit 2)
act (10_state R28). -/
def State.writeCtrl (s : State) (w : Word) : State :=
  if w.getLsbD 31 then s.resetBlock
  else
    let s1 := { s with ie := w.getLsbD 0 }
    let s2 := if w.getLsbD 1 then s1.acknowledge else s1
    if w.getLsbD 2 then { s2 with done := false } else s2

end Sys2Proof.Machine
end

