-- ==== Sys2Proof/Machine/Tester.lean ====
section
/-! DEFINITION. The modular inverse and the primality tester's commands (spec/42_miller_rabin.md R163 to R167). -/

namespace Sys2Proof.Machine

/-- The value MODINV writes, or the fault it raises (42_miller_rabin R163): the modulus check, the reduction of the
operand, then the inverse by Euclid's loop, whose remainder falls at every iteration (R164). -/
def modInverse (v m : Nat) : Except ErrCode Nat :=
  if m < 2 then .error .badModulus
  else
    match euclidInverse (v % m + 1) (v % m) m with
    | none => .error .notCoprime
    | some t => .ok t

/-- MODINV Xd, Xa, Xb: inverse modulo a register (42_miller_rabin R163). -/
def execModinv (rd ra rb : Reg) (s : State) : Host.Outcome State Fault Refusal :=
  match modInverse (s.getX ra) (s.getX rb) with
  | .error e => .next (s.raise e)
  | .ok t => .next (s.setX rd t).complete

/-- MRWIT Xa: one witness round against the loaded modulus (42_miller_rabin R165). -/
def execMrwit (ra : Reg) (s : State) : Host.Outcome State Fault Refusal :=
  let a := s.getX ra
  let fault : Option ErrCode :=
    if s.modv = false then some .noModulus
    else if a < 2 ∨ s.n < a + 2 then some .operandRange
    else none
  .next (commit s fault (s.setVerdict (mrRound s.n a)))

/-- ISPRIME Xa, rounds: the whole test (42_miller_rabin R166). -/
def execIsprime (ra : Reg) (rounds : Nat) (s : State) : Host.Outcome State Fault Refusal :=
  let n := s.getX ra
  if n ≤ 1 then .next (s.setVerdict false).complete
  else if n ≤ 3 then .next (s.setVerdict true).complete
  else if n % 2 = 0 then .next (s.setVerdict false).complete
  else
    let tested := (s.loadModulus n).setVerdict ((witnesses n rounds s.draws).all (mrRound n))
    .next { tested with draws := s.draws + witnessDraws n rounds }.complete

end Sys2Proof.Machine
end

