-- ==== Sys2Proof/Machine/Dispatch.lean ====
section
/-! DEFINITION. One arm per command: the meaning of the decoded command in an EngineComplete step (spec/40_setup_move.md R120). -/

namespace Sys2Proof.Machine

def exec (i : Instr) (s : State) : Host.Outcome State Fault Refusal :=
  match i with
  -- set-up, move, erase (40_setup_move)
  | .nop => Sys2Proof.Machine.execNop s
  | .setmod ra => Sys2Proof.Machine.execSetmod ra s
  | .mov rd ra => Sys2Proof.Machine.execMov rd ra s
  | .clr rd => Sys2Proof.Machine.execClr rd s
  | .wipe => Sys2Proof.Machine.execWipe s
  | .ldi rd imm20 => Sys2Proof.Machine.execLdi rd imm20 s
  -- modular arithmetic (41_modexp)
  | .montmul rd ra rb => Sys2Proof.Machine.execMontmul rd ra rb s
  | .modmul rd ra rb => Sys2Proof.Machine.execModmul rd ra rb s
  | .modsqr rd ra => Sys2Proof.Machine.execModsqr rd ra s
  | .modexp rd ra rb => Sys2Proof.Machine.execModexp rd ra rb s
  -- tester (42_miller_rabin)
  | .modinv rd ra rb => Sys2Proof.Machine.execModinv rd ra rb s
  | .mrwit ra => Sys2Proof.Machine.execMrwit ra s
  | .isprime ra imm12 => Sys2Proof.Machine.execIsprime ra imm12 s
  -- masking (43_oaep_mgf1)
  | .mgf1 imm12 => Sys2Proof.Machine.execMgf1 imm12 s
  | .oaepenc rd => Sys2Proof.Machine.execOaepenc rd s
  | .oaepdec ra => Sys2Proof.Machine.execOaepdec ra s

end Sys2Proof.Machine
end

