-- ==== Sys2Proof/Machine/Window.lean ====
section
/-! DEFINITION. The host window: its map and the two access primitives (spec/20_memory.md R61 to R69). -/

namespace Sys2Proof.Machine

/-- What a word offset of the window names (20_memory R61). -/
inductive Target where
  | ctrl
  | status
  | cmd
  | ecmd
  | cfg
  | mlen
  | olen
  | nWord (j : Nat)
  | xWord (i : Reg) (j : Nat)
  | mbWord (j : Nat)
  | obWord (j : Nat)
  | reserved
  deriving DecidableEq, Repr

/-- Word j of a stride of 0x400 bytes exists when j < NW (20_memory R61). -/
def strideWord (nw off : Nat) (item : Nat → Target) : Target :=
  if off % 0x400 / 4 < nw then item (off % 0x400 / 4) else .reserved

/-- The map of the window, for an offset that is a multiple of 4 in 0x0000 ... 0x7FFC (20_memory R61). -/
def target (nw off : Nat) : Target :=
  if off = 0x0000 then .ctrl
  else if off = 0x0004 then .status
  else if off = 0x0008 then .cmd
  else if off = 0x000C then .ecmd
  else if off = 0x0010 then .cfg
  else if off = 0x0014 then .mlen
  else if off = 0x0018 then .olen
  else if off < 0x1000 then .reserved
  else if off < 0x1400 then strideWord nw off .nWord
  else if off < 0x2000 then .reserved
  else if off < 0x4000 then strideWord nw off (.xWord (Fin.ofNat 8 ((off - 0x2000) / 0x400)))
  else if off < 0x4400 then strideWord nw off .mbWord
  else if off < 0x4800 then strideWord nw off .obWord
  else .reserved

/-- The data offsets, whose reads are unspecified while BUSY = 1 (20_memory R62). -/
def Target.isData : Target → Bool
  | .mlen | .olen | .nWord _ | .xWord _ _ | .mbWord _ | .obWord _ => true
  | .ctrl | .status | .cmd | .ecmd | .cfg | .reserved => false

/-- The word a target holds, read while the engine is idle (20_memory R62, R64, R65; 10_state R33, R34). -/
def State.wordAt (s : State) : Target → Word
  | .ctrl => s.ctrlWord
  | .status => s.statusWord
  | .cmd => 0
  | .ecmd => s.ecmd
  | .cfg => s.cfgWord
  | .mlen => s.mlen.setWidth 32
  | .olen => s.olen.setWidth 32
  | .nWord j => bigWord s.n j
  | .xWord i j => bigWord (s.getX i) j
  | .mbWord j => s.mb.readWord j
  | .obWord j => s.ob.readWord j
  | .reserved => 0

/-- A read of a target: the port's data changes and nothing of the block does; a data offset read while BUSY = 1 returns a
free value (20_memory R62, R69; log 4, log 6). -/
def State.readTarget (s : State) (t : Target) : State :=
  if s.busy && t.isData then
    { s with hostData := Config.busyReadWord s.busyReads, busyReads := s.busyReads + 1 }
  else { s with hostData := s.wordAt t }

/-- A write to a writable data offset: done when BUSY = 0, else refused with OVR (20_memory R63, R69). -/
def State.writeData (s : State) (written : State) : State :=
  if s.busy then s.refuseWrite else written

/-- A write to a target (20_memory R63). -/
def State.writeTarget (s : State) (t : Target) (w : Word) : State :=
  match t with
  | .ctrl => s.writeCtrl w
  | .cmd => s.writeCmd w
  | .mlen => s.writeData { s with mlen := w.setWidth 16 }
  | .xWord i j => s.writeData (s.setX i (setBigWord (s.getX i) j w))
  | .mbWord j => s.writeData { s with mb := s.mb.writeWord j w }
  | .status | .ecmd | .cfg | .olen | .nWord _ | .obWord _ | .reserved => s

/-- The offsets the port cannot carry stop the access by name: outside the window, then misaligned (20_memory R67; log 14). -/
def onPort (off : Nat) (s : State) : Host.Outcome State Fault Refusal :=
  if 0x8000 ≤ off then .fault (.outsideWindow off)
  else if off % 4 ≠ 0 then .refused (.misalignedAccess off)
  else .next s

/-- `MemRead(addr, 4)` (20_memory R62). -/
def hostRead (off : Nat) (s : State) : Host.Outcome State Fault Refusal :=
  onPort off (s.readTarget (target s.nw off))

/-- `MemWrite(addr, 4, v)` (20_memory R63). -/
def hostWrite (off : Nat) (w : Word) (s : State) : Host.Outcome State Fault Refusal :=
  onPort off (s.writeTarget (target s.nw off) w)

end Sys2Proof.Machine
end

