-- ==== Sys2Proof/Machine/Engine.lean ====
section
/-! DEFINITION. The engine's one kind of step, and one event at the block's ports (spec/40_setup_move.md R120,
spec/10_state.md R20). -/

namespace Sys2Proof.Machine

/-- `EngineComplete`: decode CMDREG; an illegal word faults, a command runs (40_setup_move R120). -/
def engineComplete (s : State) : Host.Outcome State Fault Refusal :=
  match decode s.cmdReg with
  | .error _ => .next (s.raise .illegalCmd)
  | .ok i => exec i s

/-- The engine acts in a slot exactly when BUSY = 1 (10_state R20). -/
def engineSlot (s : State) : Host.Outcome State Fault Refusal :=
  if s.busy then engineComplete s else .next s

/-- One event (10_state R20, 70_reset_and_hazards R280). -/
def runEvent (e : Event) (s : State) : Host.Outcome State Fault Refusal :=
  match e with
  | .write off w => hostWrite off w s
  | .read off => hostRead off s
  | .engine => engineSlot s
  | .hwReset => .next s.resetBlock

/-- A state ready to run a command word in its next step: the latch of an accepted write with no fault pending, and the
engine's slot next (10_state R30; log 7). -/
def fetchReady (s : State) (w : Word) : State :=
  { s.latch w with err := none, ecmd := 0, events := .engine :: s.events }

end Sys2Proof.Machine
end

