-- ==== Sys2Proof/Machine/Step.lean ====
section
/-! DEFINITION. One step of the machine (spec/10_state.md R20). -/

namespace Sys2Proof.Machine

/-- One step: the oldest event; with none left a pending command completes, and an idle block waits (10_state R20,
70_reset_and_hazards R281, R289; log 5). -/
def step (s : State) : Host.Outcome State Fault Refusal :=
  match s.events with
  | [] => engineSlot s
  | e :: rest => runEvent e { s with events := rest }

/-- `s` with the command word `w` where the next step takes it from: CMDREG with BUSY = 1 (log 7). -/
def State.withFetchWord (s : State) (nbits w : Nat) : State :=
  fetchReady s (BitVec.ofNat 32 (w % 2 ^ nbits))

end Sys2Proof.Machine
end

