-- ==== Sys2Proof/Machine/Datapath.lean ====
section
/-! DEFINITION. The second level of description (spec/00_scope.md R14): the iterative algorithms by which the datapath
computes what the commands are defined to give. No step uses them; they stand here to be proved equal to the results. -/

namespace Sys2Proof.Machine

/-- The datapath of MODMUL and MODSQR: `MontMul(MontMul(a, b), RR)` (41_modexp R144, R145). -/
def State.mulDatapath (s : State) (a b : Nat) : Nat := s.montMul (s.montMul a b) s.rr

/-- One exponent bit of the ladder: a Montgomery product and a Montgomery square of (L0, L1) (41_modexp R147). -/
def ladderStep (mm : Nat → Nat → Nat) (bit : Nat) (l : Nat × Nat) : Nat × Nat :=
  if bit = 0 then (mm l.1 l.1, mm l.1 l.2) else (mm l.1 l.2, mm l.2 l.2)

/-- The ladder over the bits i−1 downto 0 of `e` (41_modexp R147). -/
def ladderLoop (mm : Nat → Nat → Nat) (e : Nat) : (i : Nat) → Nat × Nat → Nat × Nat
  | 0, l => l
  | i + 1, l => ladderLoop mm e i (ladderStep mm (bitField e i i) l)

/-- The power ladder, the datapath of MODEXP, over all NBITS bits of the exponent (41_modexp R147). -/
def State.ladder (s : State) (base e : Nat) : Nat :=
  s.montMul (ladderLoop s.montMul e s.nbits (s.montMul 1 s.rr, s.montMul base s.rr)).1 1

/-- The squaring loop of a witness round by Montgomery products (42_miller_rabin R162). -/
def State.squareDatapath (s : State) : (steps x : Nat) → Bool
  | 0, _ => false
  | steps + 1, x =>
    let y := s.mulDatapath x x
    if y = s.n - 1 then true else s.squareDatapath steps y

/-- A witness round of the loaded modulus by the ladder and Montgomery squarings (42_miller_rabin R162). -/
def State.roundDatapath (s : State) (a : Nat) : Bool :=
  let ds := decomp s.n
  let x := s.ladder a ds.1
  if x = 1 ∨ x = s.n - 1 then true else s.squareDatapath (ds.2 - 1) x

/-- The witness loop with its early exit: a failed round ends it (42_miller_rabin R166). -/
def witnessLoop (n : Nat) : List Nat → Bool
  | [] => true
  | a :: rest => if mrRound n a = false then false else witnessLoop n rest

/-- The datapath of MODINV: Euclid's loop cut at 2·NBITS + 2 iterations (42_miller_rabin R164, 70_reset_and_hazards R290). -/
def State.inverseDatapath (s : State) (a m : Nat) : Option Nat := euclidInverse (2 * s.nbits + 2) a m

/-- The hash-counter loop: while fewer than `len` bytes stand in T, append the digest of seed ‖ BE32(c); at most `fuel`
requests (43_oaep_mgf1 R181). -/
def mgf1Loop (h : List Byte → List Byte) (seed : List Byte) (len : Nat) : (fuel c : Nat) → List Byte → List Byte
  | 0, _, T => T
  | fuel + 1, c, T =>
    if T.length < len then mgf1Loop h seed len fuel (c + 1) (T ++ h (seed ++ be32 c)) else T

/-- The mask generator as a loop of at most ceil(L/32) hash requests, truncated (43_oaep_mgf1 R181, 70 R290). -/
def mgf1Datapath (h : List Byte → List Byte) (seed : List Byte) (len : Nat) : List Byte :=
  (mgf1Loop h seed len ((len + 31) / 32) 0 []).take len

end Sys2Proof.Machine
end

