-- ==== Sys2Proof/Machine/HostProcedures.lean ====
section
/-! DEFINITION. The software around the block (spec/48_host_procedures.md R200 to R220): key data, error kinds, key
generation, the ciphers, and the command sequences that use the block. It adds nothing to the machine; no step uses it.
What the spec leaves to the software (the primality tester's rounds, retry limits, the small-prime list, every random
value) is an argument. -/

namespace Sys2Proof.Machine

/-! ### Error kinds -/

/-- The error kinds of the software (48_host_procedures R220). -/
inductive ErrorKind where
  | parameterCoexistence
  | keyFormatError
  | keyTooShort
  | bitLengthMismatch
  | nonDistinctPrimes
  | notPrime
  | notSafePrime
  | invalidGenerator
  | keyOutOfRange
  | notCoprime
  | generationTimeout
  | safePrimeTimeout
  | generatorNotFound
  | keyGenerationFailed
  | plaintextTooLarge
  | invalidCiphertext
  | privateKeyUnavailable
  | keyMismatch
  | invalidPrivateKey
  | messageTooLong
  | invalidOAEPFormat
  | labelMismatch
  | separatorNotFound
  | internalInvariant -- 48_host_procedures R221
  deriving DecidableEq, Repr

/-- The three groups of error kinds, and the internal-invariant condition apart (48_host_procedures R220, R221). -/
inductive ErrorGroup where
  | parameter
  | resourceExhaustion
  | cryptographicOperation
  | internal
  deriving DecidableEq, Repr

/-- The group of an error kind (48_host_procedures R220). -/
def ErrorKind.group : ErrorKind → ErrorGroup
  | .parameterCoexistence | .keyFormatError | .keyTooShort | .bitLengthMismatch | .nonDistinctPrimes | .notPrime
  | .notSafePrime | .invalidGenerator | .keyOutOfRange | .notCoprime => .parameter
  | .generationTimeout | .safePrimeTimeout | .generatorNotFound | .keyGenerationFailed => .resourceExhaustion
  | .plaintextTooLarge | .invalidCiphertext | .privateKeyUnavailable | .keyMismatch | .invalidPrivateKey
  | .messageTooLong | .invalidOAEPFormat | .labelMismatch | .separatorNotFound => .cryptographicOperation
  | .internalInvariant => .internal

/-- The fault code of the block behind an error kind: the five kinds the block raises, and E_OPERAND_RANGE, which backs
PlaintextTooLarge (48_host_procedures R220). -/
def ErrorKind.inBlock : ErrorKind → Option ErrCode
  | .notCoprime => some .notCoprime
  | .plaintextTooLarge => some .operandRange
  | .messageTooLong => some .msgTooLong
  | .invalidOAEPFormat => some .oaepFormat
  | .labelMismatch => some .labelMismatch
  | .separatorNotFound => some .sepNotFound
  | _ => none

/-! ### Data model -/

/-- 48_host_procedures R200. -/
structure RsaPublicKey where
  e : Nat
  n : Nat
  deriving DecidableEq, Repr

/-- 48_host_procedures R200. -/
structure RsaPrivateKey where
  d : Nat
  n : Nat
  deriving DecidableEq, Repr

/-- 48_host_procedures R201. -/
structure ElGamalPublicKey where
  p : Nat
  g : Nat
  h : Nat
  deriving DecidableEq, Repr

/-- 48_host_procedures R201. -/
structure ElGamalPrivateKey where
  x : Nat
  p : Nat
  deriving DecidableEq, Repr

/-- The fixed public exponent (48_host_procedures R200). -/
def rsaExponent : Nat := 65537

/-- The public key's data-model statement for primes p, q (48_host_procedures R200). -/
abbrev RsaPublicKey.ok (key : RsaPublicKey) (p q : Nat) : Prop :=
  p.Prime ∧ q.Prime ∧ p ≠ q ∧ p % 2 = 1 ∧ q % 2 = 1 ∧ key.e = rsaExponent ∧ key.n = p * q
    ∧ Nat.gcd key.e ((p - 1) * (q - 1)) = 1

/-- The private key's data-model statement for primes p, q: d is the inverse of e modulo (p−1)(q−1), the one value below it
(48_host_procedures R200). -/
abbrev RsaPrivateKey.ok (key : RsaPrivateKey) (p q : Nat) : Prop :=
  0 < key.d ∧ key.d < key.n ∧ key.n = p * q ∧ key.d < (p - 1) * (q - 1)
    ∧ rsaExponent * key.d % ((p - 1) * (q - 1)) = 1

/-- The generator conditions g² mod p ≠ 1 and g^q mod p ≠ 1 with q = (p−1)/2 (48_host_procedures R201, R208). -/
def isGenerator (p g : Nat) : Bool := decide (powMod g 2 p ≠ 1) && decide (powMod g ((p - 1) / 2) p ≠ 1)

/-- The ElGamal keys' data-model statement (48_host_procedures R201). -/
abbrev elGamalOk (pub : ElGamalPublicKey) (priv : ElGamalPrivateKey) : Prop :=
  pub.p.Prime ∧ ((pub.p - 1) / 2).Prime ∧ isGenerator pub.p pub.g = true ∧ priv.p = pub.p
    ∧ 1 < priv.x ∧ priv.x < pub.p - 1 ∧ pub.h = pub.g ^ priv.x % pub.p

/-- An RSA ciphertext is one integer 0 ≤ c < n (48_host_procedures R202). -/
abbrev rsaCiphertextOk (key : RsaPublicKey) (c : Nat) : Prop := c < key.n

/-- The ElGamal ciphertexts that decryption accepts (48_host_procedures R202, R215; 90_conflicts C5). -/
abbrev elGamalCiphertextOk (p c1 c2 : Nat) : Prop := 0 < c1 ∧ c1 < p ∧ 0 < c2 ∧ c2 < p

/-! ### Prime generation -/

/-- PrimalityTester's `is_prime` (42_miller_rabin R160 to R167); `drawn n` lists the witnesses drawn for a candidate at or above
the bound. -/
def isPrimeTest (drawn : Nat → List Nat) (n : Nat) : Bool :=
  if n ≤ 1 then false
  else if n ≤ 3 then true
  else if n % 2 = 0 then false
  else (if n < Config.detBound then fixedWitnesses n else drawn n).all (mrRound n)

/-- A candidate of `bits` bits with the top and the bottom bit forced to 1 (48_host_procedures R204); 1 for `bits` = 0, which has
no top bit, the model's choice (log 33). -/
def forceBits (bits r : Nat) : Nat := (r % 2 ^ bits) ||| 2 ^ (bits - 1) ||| 1

/-- `generate_prime(bits)`: one attempt for each drawn value, the bounded attempts being the length of the list
(48_host_procedures R204). That trial division lets through a candidate that is itself a listed prime is the model's choice
(log 25). -/
def generatePrime (isPrime : Nat → Bool) (smallPrimes : List Nat) (bits : Nat) : List Nat → Except ErrorKind Nat
  | [] => .error .generationTimeout
  | r :: rest =>
    let c := forceBits bits r
    if smallPrimes.any (fun q => c % q == 0 && c != q) then generatePrime isPrime smallPrimes bits rest
    else if isPrime c then .ok c
    else generatePrime isPrime smallPrimes bits rest

/-! ### RSA -/

/-- The default `bit_length` of both key generators (48_host_procedures R205, R208). -/
def defaultBitLength : Nat := 2048

/-- |a − b| of two lengths. -/
def lengthGap (a b : Nat) : Nat := (a - b) + (b - a)

/-- The key pair of p and q, or `failure` when 65537 has no inverse (48_host_procedures R205, R206, R207). -/
def rsaKeyPair (p q : Nat) (failure : ErrorKind) : Except ErrorKind (RsaPublicKey × RsaPrivateKey) :=
  let phi := (p - 1) * (q - 1)
  match euclidInverse (rsaExponent % phi + 1) (rsaExponent % phi) phi with
  | none => .error failure
  | some d => .ok (⟨rsaExponent, p * q⟩, ⟨d, p * q⟩)

/-- Custom mode of RSA key generation, both primes supplied, its checks in order (48_host_procedures R205). `bit_length/2` is
the floor, the model's choice for an odd length (log 26). -/
def rsaCustom (isPrime : Nat → Bool) (bitLength p q : Nat) : Except ErrorKind (RsaPublicKey × RsaPrivateKey) :=
  if !(isPrime p && isPrime q) then .error .notPrime
  else if p = q then .error .nonDistinctPrimes
  else if bitlen p + bitlen q ≠ 2 * (bitLength / 2) ∨ 2 < lengthGap (bitlen (p * q)) bitLength
      ∨ 2 < lengthGap (bitlen p) (bitLength / 2) ∨ 2 < lengthGap (bitlen q) (bitLength / 2) then
    .error .bitLengthMismatch
  else rsaKeyPair p q .notCoprime

/-- The attempts of RSA auto mode, each with the values drawn for its two primes of `bit_length/2` bits, MAX_RETRIES being the
length of the list; a Generation Timeout is fatal (48_host_procedures R204, R206; the floor is log 26). -/
def rsaAttempts (isPrime : Nat → Bool) (smallPrimes : List Nat) (bitLength : Nat) :
    List (List Nat × List Nat) → Except ErrorKind (RsaPublicKey × RsaPrivateKey)
  | [] => .error .keyGenerationFailed
  | (forP, forQ) :: rest =>
    match generatePrime isPrime smallPrimes (bitLength / 2) forP, generatePrime isPrime smallPrimes (bitLength / 2) forQ with
    | .error e, _ => .error e
    | .ok _, .error e => .error e
    | .ok p, .ok q =>
      if p = q ∨ bitlen (p * q) ≠ bitLength then rsaAttempts isPrime smallPrimes bitLength rest
      else rsaKeyPair p q .internalInvariant

/-- Auto mode of RSA key generation (48_host_procedures R206). -/
def rsaAuto (isPrime : Nat → Bool) (smallPrimes : List Nat) (draws : List (List Nat × List Nat)) (bitLength : Nat) :
    Except ErrorKind (RsaPublicKey × RsaPrivateKey) :=
  if bitLength < 2048 then .error .keyTooShort else rsaAttempts isPrime smallPrimes bitLength draws

/-- `generate_keypair(bit_length, p, q)` of RSA: both primes given is custom mode, neither is auto mode, exactly one is an error
(48_host_procedures R205, R206). -/
def rsaGenerate (isPrime : Nat → Bool) (smallPrimes : List Nat) (draws : List (List Nat × List Nat))
    (bitLength : Nat := defaultBitLength) (p q : Option Nat := none) : Except ErrorKind (RsaPublicKey × RsaPrivateKey) :=
  match p, q with
  | some p, some q => rsaCustom isPrime bitLength p q
  | none, none => rsaAuto isPrime smallPrimes draws bitLength
  | some _, none => .error .parameterCoexistence
  | none, some _ => .error .parameterCoexistence

/-- The checks of the RSA cipher's construction (48_host_procedures R210). -/
def rsaConstruct (pub : RsaPublicKey) (priv : Option RsaPrivateKey) : Except ErrorKind Unit :=
  if pub.e = 0 ∨ pub.n = 0 then .error .keyFormatError
  else
    match priv with
    | none => .ok ()
    | some k =>
      if k.n ≠ pub.n then .error .keyMismatch
      else if k.d = 0 ∨ k.n ≤ k.d then .error .invalidPrivateKey
      else .ok ()

/-- RSA encryption; `seed` is the OAEP draw, `none` for use_oaep = false (48_host_procedures R211). The power under an even n is
the model's choice (log 31); the block's SETMOD refuses such an n. -/
def rsaEncrypt (h : List Byte → List Byte) (pub : RsaPublicKey) (plaintext : List Byte) (seed : Option (List Byte)) :
    Except ErrorKind Nat :=
  let k := byteLen (bitlen pub.n)
  let send (m : Nat) : Except ErrorKind Nat :=
    if pub.n ≤ m then .error .plaintextTooLarge else .ok (powMod m pub.e pub.n)
  match seed with
  | none => send (os2ip plaintext)
  | some r =>
    if k < plaintext.length + 66 then .error .messageTooLong else send (os2ip (oaepEncode h plaintext k r))

/-- RSA decryption (48_host_procedures R212). A c ≥ n is accepted and reduced, the model's choice (log 28), as is
the power under an even n (log 31); the block's sequence faults on both. -/
def rsaDecrypt (h : List Byte → List Byte) (priv : Option RsaPrivateKey) (c : Nat) (useOaep : Bool) :
    Except ErrorKind (List Byte) :=
  match priv with
  | none => .error .privateKeyUnavailable
  | some key =>
    let k := byteLen (bitlen key.n)
    let em := i2osp (powMod c key.d key.n) k
    if useOaep = false then .ok em
    else if k < 66 then .error .invalidOAEPFormat
    else
      match oaepDecode h em k with
      | .error .labelMismatch => .error .labelMismatch
      | .error .separatorNotFound => .error .separatorNotFound
      | .ok msg => .ok msg

/-! ### ElGamal -/

/-- Custom mode of ElGamal key generation, all three values supplied, its checks in order (48_host_procedures R208). A g ≥ p is
accepted, reduced in the powers and kept as given in the key: the model's choice (log 27). -/
def elGamalCustom (isPrime : Nat → Bool) (p g x : Nat) : Except ErrorKind (ElGamalPublicKey × ElGamalPrivateKey) :=
  if isPrime p = false then .error .notPrime
  else if isPrime ((p - 1) / 2) = false then .error .notSafePrime
  else if isGenerator p g = false then .error .invalidGenerator
  else if x ≤ 1 ∨ p - 1 ≤ x then .error .keyOutOfRange
  else .ok (⟨p, g, powMod g x p⟩, ⟨x, p⟩)

/-- The safe-prime search: q a generated prime of bit_length − 1 bits, p = 2q + 1 re-tested, one try for each list of values
drawn for a q; a Generation Timeout is fatal (48_host_procedures R204, R209). -/
def findSafePrime (isPrime : Nat → Bool) (smallPrimes : List Nat) (bitLength : Nat) : List (List Nat) → Except ErrorKind Nat
  | [] => .error .safePrimeTimeout
  | forQ :: rest =>
    match generatePrime isPrime smallPrimes (bitLength - 1) forQ with
    | .error e => .error e
    | .ok q => if isPrime (2 * q + 1) then .ok (2 * q + 1) else findSafePrime isPrime smallPrimes bitLength rest

/-- The generator search: the first of at most 10000 candidates drawn in [2, p−1] that satisfies the two conditions
(48_host_procedures R209). -/
def findGenerator (p : Nat) (draws : List Nat) : Except ErrorKind Nat :=
  match ((draws.take 10000).map (drawIn 2 (p - 1))).find? (isGenerator p) with
  | none => .error .generatorNotFound
  | some g => .ok g

/-- What one attempt of ElGamal auto mode draws: for the safe prime, for the generator, for the private key. -/
structure ElGamalDraws where
  safePrime : List (List Nat)
  generator : List Nat
  privateKey : Nat
  deriving DecidableEq, Repr

/-- One attempt of ElGamal auto mode, the private key drawn in [2, p−2] (48_host_procedures R209). -/
def elGamalAttempt (isPrime : Nat → Bool) (smallPrimes : List Nat) (bitLength : Nat) (d : ElGamalDraws) :
    Except ErrorKind (ElGamalPublicKey × ElGamalPrivateKey) :=
  match findSafePrime isPrime smallPrimes bitLength d.safePrime with
  | .error e => .error e
  | .ok p =>
    match findGenerator p d.generator with
    | .error e => .error e
    | .ok g => .ok (⟨p, g, powMod g (drawIn 2 (p - 2) d.privateKey) p⟩, ⟨drawIn 2 (p - 2) d.privateKey, p⟩)

/-- ElGamal auto mode: one attempt for each entry, MAX_RETRIES being the length of the list; the first success ends it, a
Generation Timeout is fatal, and any other failed attempt is followed by the next (48_host_procedures R204, R209; log 20). -/
def elGamalAuto (isPrime : Nat → Bool) (smallPrimes : List Nat) (bitLength : Nat) :
    List ElGamalDraws → Except ErrorKind (ElGamalPublicKey × ElGamalPrivateKey)
  | [] => .error .keyGenerationFailed
  | d :: rest =>
    match elGamalAttempt isPrime smallPrimes bitLength d with
    | .ok keys => .ok keys
    | .error e =>
      if e = .generationTimeout then .error e else elGamalAuto isPrime smallPrimes bitLength rest

/-- `generate_keypair(bit_length, p, g, x)` of ElGamal: all three given is custom mode, none is auto mode, anything else is an
error (48_host_procedures R208, R209). -/
def elGamalGenerate (isPrime : Nat → Bool) (smallPrimes : List Nat) (draws : List ElGamalDraws)
    (bitLength : Nat := defaultBitLength) (p g x : Option Nat := none) :
    Except ErrorKind (ElGamalPublicKey × ElGamalPrivateKey) :=
  match p, g, x with
  | some p, some g, some x => elGamalCustom isPrime p g x
  | none, none, none => elGamalAuto isPrime smallPrimes bitLength draws
  | _, _, _ => .error .parameterCoexistence

/-- The checks of the ElGamal cipher's construction (48_host_procedures R213). A g ≥ p is reduced in the power, the model's choice
(log 30). -/
def elGamalConstruct (pub : ElGamalPublicKey) (priv : Option ElGamalPrivateKey) : Except ErrorKind Unit :=
  if pub.p = 0 ∨ pub.g = 0 ∨ pub.h = 0 then .error .keyFormatError
  else
    match priv with
    | none => .ok ()
    | some k =>
      if k.x ≤ 1 ∨ pub.p - 1 ≤ k.x then .error .keyOutOfRange
      else if powMod pub.g k.x pub.p ≠ pub.h then .error .keyMismatch
      else .ok ()

/-- The ephemeral, drawn in [2, p−2] (48_host_procedures R214); 2 where p < 4 leaves that range empty, the model's choice
(log 32). -/
def ephemeral (p draw : Nat) : Nat := drawIn 2 (p - 2) draw

/-- ElGamal encryption with the ephemeral of a draw (48_host_procedures R214). A public key with g ≥ p or h ≥ p is accepted and
reduced in the powers, the model's choice (log 30), as are the powers under an even p (log 31); the block's sequence faults
on them. -/
def elGamalEncrypt (pub : ElGamalPublicKey) (plaintext : List Byte) (draw : Nat) : Except ErrorKind (Nat × Nat) :=
  let m := os2ip plaintext
  let y := ephemeral pub.p draw
  if pub.p ≤ m then .error .plaintextTooLarge
  else .ok (powMod pub.g y pub.p, m * powMod pub.h y pub.p % pub.p)

/-- The integer an ElGamal ciphertext decrypts to (48_host_procedures R215, R216). An s without an inverse, which no prime p
has, answers the internal-invariant condition, the model's choice (log 29). -/
def elGamalDecryptInt (priv : Option ElGamalPrivateKey) (c1 c2 : Nat) : Except ErrorKind Nat :=
  match priv with
  | none => .error .privateKeyUnavailable
  | some key =>
    if c1 = 0 ∨ key.p ≤ c1 ∨ c2 = 0 ∨ key.p ≤ c2 then .error .invalidCiphertext
    else
      match euclidInverse (powMod c1 key.x key.p + 1) (powMod c1 key.x key.p) key.p with
      | none => .error .internalInvariant
      | some inv => .ok (c2 * inv % key.p)

/-- ElGamal decryption to bytes, leading zero bytes stripped (48_host_procedures R215, R216; 90_conflicts C4). -/
def elGamalDecrypt (priv : Option ElGamalPrivateKey) (c1 c2 : Nat) : Except ErrorKind (List Byte) := do
  let m ← elGamalDecryptInt priv c1 c2
  return i2osp m (byteLen (bitlen m))

/-! ### What the software is to satisfy (48_host_procedures R223) -/

/-- Round trip of an RSA message under OAEP with a given seed (48_host_procedures R223). -/
abbrev rsaRoundTrip (h : List Byte → List Byte) (pub : RsaPublicKey) (priv : RsaPrivateKey) (msg seed : List Byte) : Prop :=
  ∃ c, rsaEncrypt h pub msg (some seed) = .ok c ∧ rsaCiphertextOk pub c ∧ rsaDecrypt h (some priv) c true = .ok msg

/-- Round trip of an ElGamal ciphertext: the integer comes back, and the byte string but for its leading zero bytes
(48_host_procedures R216, R223; 90_conflicts C4). -/
abbrev elGamalRoundTrip (priv : ElGamalPrivateKey) (plaintext : List Byte) (c1 c2 : Nat) : Prop :=
  elGamalDecryptInt (some priv) c1 c2 = .ok (os2ip plaintext)
    ∧ elGamalDecrypt (some priv) c1 c2 = .ok (plaintext.dropWhile (· == 0))

/-- Key consistency of an RSA pair, for every m below n (48_host_procedures R223 asks it of those coprime to n). -/
abbrev rsaKeysConsistent (pub : RsaPublicKey) (priv : RsaPrivateKey) : Prop :=
  ∀ m < pub.n, m ^ (pub.e * priv.d) % pub.n = m

/-- Key consistency of an ElGamal pair (48_host_procedures R223). -/
abbrev elGamalKeysConsistent (pub : ElGamalPublicKey) (priv : ElGamalPrivateKey) : Prop :=
  pub.g ^ priv.x % pub.p = pub.h

/-! ### Command sequences -/

/-- A command: its word written to CMD, then a slot in which the engine completes it (48_host_procedures, introduction). -/
def runCommand (i : Instr) : List Event := [.write 0x0008 (encode i), .engine]

/-- `load Xi <- v`: all NW words of X[i], through the window (48_host_procedures, introduction; 20_memory R64). -/
def loadX (nw : Nat) (i : Reg) (v : Nat) : List Event :=
  (List.range nw).map fun j => .write (0x2000 + 0x400 * i + 4 * j) (bigWord v j)

/-- `read Xi` (48_host_procedures, introduction). -/
def readX (nw : Nat) (i : Reg) : List Event := (List.range nw).map fun j => .read (0x2000 + 0x400 * i + 4 * j)

/-- The message written to MB word by word, and its length to MLEN (20_memory R65, 10_state R33). -/
def loadMessage (msg : List Byte) : List Event :=
  (List.range ((msg.length + 3) / 4)).map (fun j => .write (0x4000 + 4 * j) ((Memory.ofBytes msg).readWord j))
    ++ [.write 0x0014 (BitVec.ofNat 32 msg.length)]

/-- Is c prime: the candidate loaded, ISPRIME with `rounds`, then STATUS read for its bit P (48_host_procedures R204). -/
def scriptIsPrime (nw c rounds : Nat) : List Event :=
  loadX nw 0 c ++ runCommand (.isprime 0 rounds) ++ [.read 0x0004]

/-- The private exponent from φ, then everything erased (48_host_procedures R207). -/
def scriptRsaExponent (nw phi : Nat) : List Event :=
  loadX nw 0 phi ++ runCommand (.ldi 1 rsaExponent) ++ runCommand (.modinv 2 1 0) ++ readX nw 2 ++ runCommand .wipe

/-- The generator check and h (48_host_procedures R208). -/
def scriptElGamalKey (nw p g q x : Nat) : List Event :=
  loadX nw 0 p ++ runCommand (.setmod 0) ++ loadX nw 1 g ++ runCommand (.modsqr 2 1) ++ loadX nw 3 q
    ++ runCommand (.modexp 4 1 3) ++ loadX nw 5 x ++ runCommand (.modexp 6 1 5)

/-- RSA encryption with OAEP (48_host_procedures R211). -/
def scriptRsaEncrypt (nw n : Nat) (msg : List Byte) : List Event :=
  loadX nw 0 n ++ runCommand (.setmod 0) ++ loadMessage msg ++ runCommand (.oaepenc 1)
    ++ runCommand (.ldi 2 rsaExponent) ++ runCommand (.modexp 3 1 2) ++ readX nw 3

/-- RSA encryption with use_oaep = false: the host converts the bytes and writes m to X1, OAEPENC is skipped, and MODEXP faults
on an m ≥ n (48_host_procedures R211). -/
def scriptRsaEncryptPlain (nw n : Nat) (msg : List Byte) : List Event :=
  loadX nw 0 n ++ runCommand (.setmod 0) ++ loadX nw 1 (os2ip msg)
    ++ runCommand (.ldi 2 rsaExponent) ++ runCommand (.modexp 3 1 2) ++ readX nw 3

/-- The power of an RSA decryption, m in X3; MODEXP faults on a c ≥ n (48_host_procedures R212). -/
def scriptRsaPower (nw n d c : Nat) : List Event :=
  loadX nw 0 n ++ runCommand (.setmod 0) ++ loadX nw 1 c ++ loadX nw 2 d ++ runCommand (.modexp 3 1 2)

/-- RSA decryption with OAEP (48_host_procedures R212). -/
def scriptRsaDecrypt (nw n d c : Nat) : List Event :=
  scriptRsaPower nw n d c ++ runCommand (.oaepdec 3) ++ [.read 0x0018]
    ++ (List.range nw).map (fun j => .read (0x4400 + 4 * j)) ++ runCommand (.clr 2) ++ runCommand (.clr 3)

/-- RSA decryption with use_oaep = false: the host reads X3 and serialises it itself (48_host_procedures R212). -/
def scriptRsaDecryptPlain (nw n d c : Nat) : List Event :=
  scriptRsaPower nw n d c ++ readX nw 3 ++ runCommand (.clr 2) ++ runCommand (.clr 3)

/-- ElGamal encryption, y being the ephemeral of a draw (48_host_procedures R214). -/
def scriptElGamalEncrypt (nw p g h draw m : Nat) : List Event :=
  loadX nw 0 p ++ runCommand (.setmod 0) ++ loadX nw 1 g ++ loadX nw 2 (ephemeral p draw) ++ loadX nw 4 h ++ loadX nw 6 m
    ++ runCommand (.modexp 3 1 2) ++ runCommand (.modexp 5 4 2) ++ runCommand (.modmul 7 6 5)
    ++ readX nw 3 ++ readX nw 7 ++ runCommand (.clr 2) ++ runCommand (.clr 5)

/-- ElGamal decryption (48_host_procedures R215). -/
def scriptElGamalDecrypt (nw p x c1 c2 : Nat) : List Event :=
  loadX nw 0 p ++ runCommand (.setmod 0) ++ loadX nw 1 c1 ++ loadX nw 2 x ++ loadX nw 6 c2
    ++ runCommand (.modexp 3 1 2) ++ runCommand (.modinv 4 3 0) ++ runCommand (.modmul 5 6 4) ++ readX nw 5
    ++ runCommand (.clr 2) ++ runCommand (.clr 3) ++ runCommand (.clr 4)

end Sys2Proof.Machine
end

