-- ==== Sys2Proof/Safety.lean ====
section
/-! DEFINITION. The invariant of the block and the end of a run (spec/10_state.md R21 to R38,
spec/70_reset_and_hazards.md R291). -/

namespace Sys2Proof.Machine

/-- A legal register width: a multiple of 32 in 64 ... 8192 (00_scope R6). -/
abbrev legalWidth (nbits : Nat) : Prop := nbits % 32 = 0 ∧ 64 ≤ nbits ∧ nbits ≤ 8192

/-- The modulus register and the five values kept with it are consistent (10_state R24). -/
abbrev State.modulusOk (s : State) : Prop :=
  (s.modv = true → s.n % 2 = 1 ∧ 3 ≤ s.n ∧ s.n < 2 ^ s.nbits ∧ s.nb = bitlen s.n ∧ s.k = byteLen s.nb
    ∧ (s.n * s.np.toNat + 1) % 2 ^ 32 = 0 ∧ s.rr = 2 ^ (2 * s.nbits) % s.n)
  ∧ (s.modv = false → s.n = 0 ∧ s.nb = 0 ∧ s.k = 0 ∧ s.np = 0 ∧ s.rr = 0)

/-- A byte buffer is in canonical form and has no byte at or beyond BUFMAX (10_state R26; log 9). -/
abbrev bufferOk (m : Memory) (bufMax : Nat) : Prop := m.wf ∧ ∀ c ∈ m, c.1 < bufMax

/-- What holds in every state of the block. -/
structure State.Inv (s : State) : Prop where
  /-- NBITS is legal (00_scope R6) -/
  width : legalWidth s.nbits
  /-- 0 ≤ X[i] < 2^NBITS (10_state R21) -/
  bigRegs : ∀ i : Reg, s.getX i < 2 ^ s.nbits
  /-- the modulus and its derived values are consistent (10_state R24) -/
  modulus : s.modulusOk
  /-- MB is a buffer of BUFMAX bytes (10_state R26) -/
  msgBuffer : bufferOk s.mb s.bufMax
  /-- OB is a buffer of BUFMAX bytes (10_state R26) -/
  outBuffer : bufferOk s.ob s.bufMax
  /-- OLEN ≤ BUFMAX (10_state R34) -/
  outLen : s.olen.toNat ≤ s.bufMax
  /-- bytes of OB at index ≥ OLEN are zero (10_state R26) -/
  outTail : ∀ i, s.olen.toNat ≤ i → s.ob.readByte i = 0
  /-- BUSY = 1 implies ERR = 0 (10_state R29) -/
  busyNoErr : s.busy = true → s.err = none
  /-- BUSY and DONE are never both 1 (10_state R29) -/
  busyNotDone : s.busy = true → s.done = false
  /-- ECMD is 0 when ERR = 0 (10_state R31) -/
  errRecord : s.err = none → s.ecmd = 0
  /-- CMDREG is cleared when a command ends (40_setup_move R120) -/
  idleLatch : s.busy = false → s.cmdReg = 0

/-- Every piece of the block's state is 0, and IRQ with it; CFG and `cp` apart (10_state R38). -/
abbrev blockZero (t : State) : Prop :=
  (∀ i : Reg, t.getX i = 0) ∧ t.n = 0 ∧ t.modv = false ∧ t.nb = 0 ∧ t.k = 0 ∧ t.np = 0 ∧ t.rr = 0 ∧ t.p = false
    ∧ (∀ i, t.mb.readByte i = 0) ∧ (∀ i, t.ob.readByte i = 0) ∧ t.mlen = 0 ∧ t.olen = 0 ∧ t.ie = false ∧ t.busy = false
    ∧ t.done = false ∧ t.ovr = false ∧ t.err = none ∧ t.ecmd = 0 ∧ t.cmdReg = 0 ∧ t.irq = false

/-! ### What a command leaves alone -/

/-- What no command touches at all: the width, CTRL.IE, STATUS.OVR, `cp`, and the host's side. -/
abbrev untouched (s t : State) : Prop :=
  t.nbits = s.nbits ∧ t.ie = s.ie ∧ t.ovr = s.ovr ∧ t.cp = s.cp ∧ t.busyReads = s.busyReads ∧ t.hostData = s.hostData
    ∧ t.events = s.events

/-- A command ended without a fault: BUSY = 0, DONE = 1, CMDREG cleared, no fault record written (40_setup_move R120). -/
abbrev completedFrom (s t : State) : Prop :=
  t.busy = false ∧ t.done = true ∧ t.cmdReg = 0 ∧ t.err = s.err ∧ t.ecmd = s.ecmd ∧ untouched s t

/-- The modulus register and everything derived from it are unchanged. -/
abbrev sameModulus (s t : State) : Prop :=
  t.n = s.n ∧ t.modv = s.modv ∧ t.nb = s.nb ∧ t.k = s.k ∧ t.np = s.np ∧ t.rr = s.rr

/-- MLEN and every byte of MB are unchanged. -/
abbrev sameMessage (s t : State) : Prop := t.mlen = s.mlen ∧ ∀ i, t.mb.readByte i = s.mb.readByte i

/-- OLEN and every byte of OB are unchanged. -/
abbrev sameOutput (s t : State) : Prop := t.olen = s.olen ∧ ∀ i, t.ob.readByte i = s.ob.readByte i

/-- Every big register is unchanged. -/
abbrev sameRegs (s t : State) : Prop := ∀ i : Reg, t.getX i = s.getX i

/-- Every big register but `rd` is unchanged. -/
abbrev sameRegsBut (rd : Reg) (s t : State) : Prop := ∀ i : Reg, i ≠ rd → t.getX i = s.getX i

/-- A command ended without a fault and wrote X[rd] and no other data. -/
abbrev onlyRegister (rd : Reg) (s t : State) : Prop :=
  sameRegsBut rd s t ∧ sameModulus s t ∧ t.p = s.p ∧ sameMessage s t ∧ sameOutput s t ∧ t.draws = s.draws
    ∧ completedFrom s t

/-- A command ended without a fault and wrote P and no other data. -/
abbrev onlyVerdict (s t : State) : Prop :=
  sameRegs s t ∧ sameModulus s t ∧ sameMessage s t ∧ sameOutput s t ∧ t.draws = s.draws ∧ completedFrom s t

/-- A command ended without a fault and wrote OB and OLEN and no other data. -/
abbrev onlyOutput (s t : State) : Prop :=
  sameRegs s t ∧ sameModulus s t ∧ t.p = s.p ∧ sameMessage s t ∧ t.draws = s.draws ∧ completedFrom s t

/-- The modulus register and its derived values are those of `v`: NB its bit length, K its byte length, NP the negated
inverse, RR the square of the radix, MODV set (40_setup_move R122). -/
abbrev holdsModulus (t : State) (v : Nat) : Prop :=
  t.n = v ∧ t.modv = true ∧ 2 ^ (t.nb - 1) ≤ v ∧ v < 2 ^ t.nb ∧ t.nb ≤ 8 * t.k ∧ 8 * t.k < t.nb + 8
    ∧ (v * t.np.toNat + 1) % 2 ^ 32 = 0 ∧ t.rr = 2 ^ (2 * t.nbits) % v

/-- The big register a command writes, if it writes one (10_state R22, 30_encoding R93). -/
def destination : Instr → Option Reg
  | .mov rd _ | .clr rd | .ldi rd _ | .montmul rd _ _ | .modmul rd _ _ | .modsqr rd _ | .modexp rd _ _ | .modinv rd _ _
  | .oaepenc rd => some rd
  | .nop | .setmod _ | .wipe | .mrwit _ | .isprime _ _ | .mgf1 _ | .oaepdec _ => none

/-! ### The tester's mathematics -/

/-- Witness `a` passes the round of an odd n ≥ 3: with n − 1 = d·2^s and d odd, a^d is 1 or one of a^d, a^(2d), ...,
a^(2^(s−1)·d) is n − 1, modulo n (42_miller_rabin R161, R162). -/
def roundPasses (n a : Nat) : Prop :=
  ∃ d s, n - 1 = d * 2 ^ s ∧ d % 2 = 1 ∧ (a ^ d % n = 1 ∨ ∃ j < s, a ^ (d * 2 ^ j) % n = n - 1)

/-! ### Runs -/

/-- The events that are accesses of the host (20_memory R62, R63). -/
def Event.isAccess : Event → Bool
  | .write _ _ | .read _ => true
  | .engine | .hwReset => false

/-- The run of a command list is over: `cp` equals the length of the list, the engine is idle, and the host has no access left
to make (10_state R23, 70_reset_and_hazards R291). -/
abbrev State.runOver (s : State) (commands : List Word) : Prop :=
  s.cp = commands.length ∧ s.busy = false ∧ ∀ e ∈ s.events, e.isAccess = false

/-- The run of a command list ended well: over, with no fault and no overrun recorded (70_reset_and_hazards R291). -/
abbrev State.endedWell (s : State) (commands : List Word) : Prop :=
  s.runOver commands ∧ s.err = none ∧ s.ovr = false

end Sys2Proof.Machine
end

