-- ==== Sys2Proof/Certificates/Slice0/Obligations.lean ====
section
/-! DEFINITION. The statements for the provers, from the numbered rules of the spec. Each docstring names the rules. -/

open Sys2Proof Sys2Proof.Machine

/-! ### Encoding -/

/-- Decoding an encoded well-formed command gives it back (30_encoding R91, R92, R94, R98). -/
def Obligations.DecodeOfEncodeIsTheCommand : Prop :=
  ∀ i : Instr, i.wellFormed = true → decode (encode i) = .ok i

/-- A word that decodes is the encoding of the well-formed command it decodes to: every bit is used
(30_encoding R93, R94, R96, R98). -/
def Obligations.EncodeOfDecodeIsTheWord : Prop :=
  ∀ (w : Word) (i : Instr), decode w = .ok i → i.wellFormed = true ∧ encode i = w

/-- A word is a command exactly when (w and mask) = match for a row of the opcode map, and that row is the command's
(30_encoding R95). -/
def Obligations.CommandsAreTheRowsOfTheOpcodeMap : Prop :=
  ∀ w : Word,
    (∀ i, decode w = .ok i → w &&& i.maskWord = i.matchWord ∧ (i.matchWord, i.maskWord) ∈ opcodeMap)
    ∧ ∀ row ∈ opcodeMap, w &&& row.2 = row.1 → ∃ i, decode w = .ok i ∧ i.matchWord = row.1 ∧ i.maskWord = row.2

/-- Words of the spec's own table decode to the commands it names (95_test_vectors V16). -/
def Obligations.WordsOfTheSpecDecode : Prop :=
  decode 0x00000000 = .ok .nop ∧ decode 0x01070000 = .ok (.setmod 7) ∧ decode 0x02530000 = .ok (.mov 5 3)
  ∧ decode 0x057FFFFF = .ok (.ldi 7 1048575) ∧ decode 0x10201000 = .ok (.montmul 2 0 1)
  ∧ decode 0x13201000 = .ok (.modexp 2 0 1) ∧ decode 0x20201000 = .ok (.modinv 2 0 1)
  ∧ decode 0x22070FFF = .ok (.isprime 7 4095) ∧ decode 0x30000028 = .ok (.mgf1 40)
  ∧ decode 0x31700000 = .ok (.oaepenc 7) ∧ decode 0x32040000 = .ok (.oaepdec 4)

/-- A word that matches no row, written to CMD and accepted, faults with E_ILLEGAL_CMD when the engine acts, records the word,
and changes nothing else (30_encoding R96, 60_exceptions R244). -/
def Obligations.IllegalWordFaultsAndChangesNothingElse : Prop :=
  ∀ (s : State) (rest : List Event), s.busy = true → s.events = .engine :: rest →
    (∀ row ∈ opcodeMap, s.cmdReg &&& row.2 ≠ row.1) →
    step s = .next { s with
      events := rest, err := some .illegalCmd, ecmd := s.cmdReg, cmdReg := 0, busy := false, done := true }

/-! ### The step -/

/-- When the pending word decodes to a command, the engine's slot runs that command at that state; a pending command also
runs when no event is left, which is the model's choice, log 5 (10_state R20, 40_setup_move R120). -/
def Obligations.StepRunsTheDecodedCommand : Prop :=
  ∀ (s : State) (i : Instr) (rest : List Event), s.busy = true → decode s.cmdReg = .ok i →
    (s.events = .engine :: rest → step s = exec i { s with events := rest })
    ∧ (s.events = [] → step s = exec i s)

/-- EngineComplete is enabled exactly when BUSY = 1: in its slot a busy engine always ends its command (10_state R20). That a
slot of an idle engine is a step at all, one that changes nothing, is the model's choice, log 16. -/
def Obligations.EngineActsExactlyWhenBusy : Prop :=
  ∀ (s : State) (rest : List Event), s.events = .engine :: rest →
    (s.busy = false → step s = .next { s with events := rest })
    ∧ (s.busy = true → ∃ t, step s = .next t ∧ t.busy = false ∧ t.done = true ∧ t.events = rest)

/-- Taking a fault records its code in ERR and the pending word in ECMD, with CMDREG, BUSY and DONE as at every completion, and
changes nothing else; and every command ends in one step, either completed or by taking a fault
(40_setup_move R120, 60_exceptions R244, 70_reset_and_hazards R290). -/
def Obligations.EveryCommandCompletesOrOnlyRecordsAFault : Prop :=
  (∀ (s : State) (e : ErrCode),
    s.raise e = { s with err := some e, ecmd := s.cmdReg, cmdReg := 0, busy := false, done := true })
  ∧ ∀ (i : Instr) (s : State),
    (∃ t, exec i s = .next t ∧ completedFrom s t) ∨ ∃ e, exec i s = .next (s.raise e)

/-- Who may write what: no command writes more than one big register but WIPE; N and MODV are written only by SETMOD, ISPRIME
and WIPE; P only by MRWIT, ISPRIME and WIPE; MB and MLEN by no command but WIPE; OB and OLEN only by MGF1, OAEPDEC and WIPE
(10_state R22, R24, R25, R26). -/
def Obligations.OnlyTheNamedCommandsWriteEachRegister : Prop :=
  ∀ (i : Instr) (s t : State), exec i s = .next t →
    (i ≠ .wipe → ∀ r, destination i ≠ some r → t.getX r = s.getX r)
    ∧ (i ≠ .wipe → (∀ ra, i ≠ .setmod ra) → (∀ ra k, i ≠ .isprime ra k) → sameModulus s t)
    ∧ (i ≠ .wipe → (∀ ra, i ≠ .mrwit ra) → (∀ ra k, i ≠ .isprime ra k) → t.p = s.p)
    ∧ (i ≠ .wipe → sameMessage s t)
    ∧ (i ≠ .wipe → (∀ k, i ≠ .mgf1 k) → (∀ ra, i ≠ .oaepdec ra) → sameOutput s t)

/-- IRQ = CTRL.IE and STATUS.DONE; so every command, faulting or not, ends with IRQ = IE (10_state R36, 60_exceptions R248). -/
def Obligations.InterruptFollowsEveryCompletion : Prop :=
  ∀ (i : Instr) (s t : State), s.irq = (s.ie && s.done) ∧ (exec i s = .next t → t.irq = s.ie)

/-! ### Set-up, move, erase -/

/-- NOP, the word 0x00000000: state before = state after except the completion itself (40_setup_move R121). -/
def Obligations.NopOnlyCompletes : Prop :=
  decode 0x00000000 = .ok .nop
  ∧ ∀ s : State, exec .nop s = .next { s with cmdReg := 0, busy := false, done := true }

/-- SETMOD of an odd value of at least 3 loads it into N with NB, K, NP and RR derived, sets MODV, and changes nothing else
(40_setup_move R122, 10_state R24). -/
def Obligations.SetmodLoadsTheModulus : Prop :=
  ∀ (ra : Reg) (s : State), 3 ≤ s.getX ra → s.getX ra % 2 = 1 →
    ∃ t, exec (.setmod ra) s = .next t ∧ holdsModulus t (s.getX ra)
      ∧ sameRegs s t ∧ t.p = s.p ∧ sameMessage s t ∧ sameOutput s t ∧ t.draws = s.draws ∧ completedFrom s t

/-- SETMOD of a value that is even or below 3 faults with E_BAD_MODULUS; the earlier modulus stays loaded
(40_setup_move R122). -/
def Obligations.SetmodRefusesABadModulus : Prop :=
  ∀ (ra : Reg) (s : State), (s.getX ra < 3 ∨ s.getX ra % 2 = 0) → exec (.setmod ra) s = .next (s.raise .badModulus)

/-- MOV, CLR and LDI write one big register with the copy, zero and the zero-extended immediate, and change nothing else
(40_setup_move R123, R124, R126). -/
def Obligations.MovClrLdiWriteOneRegister : Prop :=
  ∀ (rd ra : Reg) (imm20 : Nat) (s : State),
    (∃ t, exec (.mov rd ra) s = .next t ∧ t.getX rd = s.getX ra ∧ onlyRegister rd s t)
    ∧ (∃ t, exec (.clr rd) s = .next t ∧ t.getX rd = 0 ∧ onlyRegister rd s t)
    ∧ (imm20 < 2 ^ 20 → ∃ t, exec (.ldi rd imm20) s = .next t ∧ t.getX rd = imm20 ∧ onlyRegister rd s t)

/-- After CLR no state of the block depends on the old value of the erased register (40_setup_move R124). -/
def Obligations.ClrForgetsTheOldValue : Prop :=
  ∀ (rd : Reg) (s : State) (v : Nat), exec (.clr rd) (s.setX rd v) = exec (.clr rd) s

/-- WIPE, the word 0x04000000, erases every data value: X, N and all derived from it, MB, OB, MLEN, OLEN and P become 0;
CTRL.IE, OVR, ERR and ECMD are not touched (40_setup_move R125). -/
def Obligations.WipeErasesEveryDataValue : Prop :=
  decode 0x04000000 = .ok .wipe
  ∧ ∀ s : State, ∃ t, exec .wipe s = .next t
    ∧ (∀ i : Reg, t.getX i = 0)
    ∧ t.n = 0 ∧ t.modv = false ∧ t.nb = 0 ∧ t.k = 0 ∧ t.np = 0 ∧ t.rr = 0 ∧ t.p = false
    ∧ (∀ i, t.mb.readByte i = 0) ∧ (∀ i, t.ob.readByte i = 0) ∧ t.mlen = 0 ∧ t.olen = 0
    ∧ t.draws = s.draws ∧ completedFrom s t

/-! ### Modular arithmetic -/

/-- The commands that need a modulus fault with E_NO_MODULUS when none is loaded (60_exceptions R241, R243). -/
def Obligations.NoModulusFaults : Prop :=
  ∀ (rd ra rb : Reg) (s : State), s.modv = false →
    ∀ i ∈ [Instr.montmul rd ra rb, .modmul rd ra rb, .modsqr rd ra, .modexp rd ra rb, .mrwit ra, .oaepenc rd, .oaepdec ra],
      exec i s = .next (s.raise .noModulus)

/-- With a modulus loaded, an operand at or above N faults with E_OPERAND_RANGE: both operands of MONTMUL and MODMUL, the
operand of MODSQR, the base of MODEXP (41_modexp R140). -/
def Obligations.OperandAtOrAboveTheModulusFaults : Prop :=
  ∀ (rd ra rb : Reg) (s : State), s.modv = true →
    ((s.n ≤ s.getX ra ∨ s.n ≤ s.getX rb) →
      exec (.montmul rd ra rb) s = .next (s.raise .operandRange)
      ∧ exec (.modmul rd ra rb) s = .next (s.raise .operandRange))
    ∧ (s.n ≤ s.getX ra →
      exec (.modsqr rd ra) s = .next (s.raise .operandRange)
      ∧ exec (.modexp rd ra rb) s = .next (s.raise .operandRange))

/-- MODMUL and MODSQR write the exact residue of the product and of the square and change nothing else; N − 1 squares to 1
for N ≥ 3 (41_modexp R144, R145). -/
def Obligations.ModmulAndModsqrWriteTheProduct : Prop :=
  ∀ (rd ra rb : Reg) (s : State), s.modv = true → s.getX ra < s.n →
    (s.getX rb < s.n →
      ∃ t, exec (.modmul rd ra rb) s = .next t ∧ t.getX rd = s.getX ra * s.getX rb % s.n ∧ onlyRegister rd s t)
    ∧ ∃ t, exec (.modsqr rd ra) s = .next t ∧ t.getX rd = s.getX ra * s.getX ra % s.n ∧ onlyRegister rd s t
      ∧ (3 ≤ s.n → s.getX ra = s.n - 1 → t.getX rd = 1)

/-- MODEXP writes the mathematical power modulo N for every exponent, 1 for the exponent 0 when N ≥ 3, and changes nothing
else (41_modexp R146). -/
def Obligations.ModexpWritesThePower : Prop :=
  ∀ (rd ra rb : Reg) (s : State), s.modv = true → s.getX ra < s.n →
    ∃ t, exec (.modexp rd ra rb) s = .next t ∧ t.getX rd = s.getX ra ^ s.getX rb % s.n ∧ onlyRegister rd s t
      ∧ (3 ≤ s.n → s.getX rb = 0 → t.getX rd = 1)

/-- The law of the Montgomery multiplier, for the word-serial loop: 2^NBITS has an inverse RINV modulo N, the product is below N
and a·b·RINV modulo N, multiplying by RR enters the Montgomery form, multiplying by 1 leaves it, and a product times RR is
the plain product, the datapath of MODMUL and MODSQR (41_modexp R141, R142, which the spec marks as general knowledge). -/
def Obligations.MontgomeryMultiplierMeetsItsLaw : Prop :=
  ∀ (s : State) (a b : Nat), s.Inv → s.modv = true → a < s.n → b < s.n →
    (∃ rinv, rinv * 2 ^ s.nbits % s.n = 1)
    ∧ ∀ rinv, rinv * 2 ^ s.nbits % s.n = 1 →
        s.montMul a b < s.n ∧ s.montMul a b = a * b * rinv % s.n
        ∧ s.montMul a s.rr = a * 2 ^ s.nbits % s.n ∧ s.montMul a 1 = a * rinv % s.n
        ∧ s.mulDatapath a b = a * b % s.n

/-- MONTMUL writes the Montgomery product, the one value below N that times 2^NBITS is a·b modulo N, and changes nothing else
(41_modexp R142, R143). -/
def Obligations.MontmulWritesTheMontgomeryProduct : Prop :=
  ∀ (rd ra rb : Reg) (s : State), s.Inv → s.modv = true → s.getX ra < s.n → s.getX rb < s.n →
    ∃ t, exec (.montmul rd ra rb) s = .next t ∧ t.getX rd < s.n
      ∧ t.getX rd * 2 ^ s.nbits % s.n = s.getX ra * s.getX rb % s.n ∧ onlyRegister rd s t

/-- The power ladder over all NBITS exponent bits computes what MODEXP is defined to write (41_modexp R147). -/
def Obligations.LadderComputesThePower : Prop :=
  ∀ (s : State) (base e : Nat), s.Inv → s.modv = true → base < s.n → e < 2 ^ s.nbits →
    s.ladder base e = base ^ e % s.n

/-! ### The tester and the modular inverse -/

/-- MODINV writes the unique t in 1 ... m−1 with X[ra]·t mod m = 1 when X[ra] and m are coprime, also for an even m and with
no modulus loaded, and changes nothing else (42_miller_rabin R163). -/
def Obligations.ModinvWritesTheInverse : Prop :=
  ∀ (rd ra rb : Reg) (s : State), 2 ≤ s.getX rb → Nat.gcd (s.getX ra) (s.getX rb) = 1 →
    ∃ t, exec (.modinv rd ra rb) s = .next t ∧ 1 ≤ t.getX rd ∧ t.getX rd ≤ s.getX rb - 1
      ∧ s.getX ra * t.getX rd % s.getX rb = 1 ∧ onlyRegister rd s t
      ∧ ∀ u, 1 ≤ u → u ≤ s.getX rb - 1 → s.getX ra * u % s.getX rb = 1 → u = t.getX rd

/-- MODINV faults with E_BAD_MODULUS for a modulus 0 or 1, and with E_NOT_COPRIME when no inverse exists
(42_miller_rabin R163). -/
def Obligations.ModinvFaultsWithoutAnInverse : Prop :=
  ∀ (rd ra rb : Reg) (s : State),
    (s.getX rb < 2 → exec (.modinv rd ra rb) s = .next (s.raise .badModulus))
    ∧ (2 ≤ s.getX rb → Nat.gcd (s.getX ra) (s.getX rb) ≠ 1 → exec (.modinv rd ra rb) s = .next (s.raise .notCoprime))

/-- Euclid's loop cut at 2·NBITS + 2 iterations still gives the inverse exactly when there is one
(42_miller_rabin R164, 70_reset_and_hazards R290). -/
def Obligations.EuclidEndsWithinItsBound : Prop :=
  ∀ (s : State) (a m : Nat), 2 ≤ m → a < m → m < 2 ^ s.nbits →
    (Nat.gcd a m = 1 → ∃ t, s.inverseDatapath a m = some t ∧ 1 ≤ t ∧ t < m ∧ a * t % m = 1)
    ∧ (Nat.gcd a m ≠ 1 → s.inverseDatapath a m = none)

/-- MRWIT with a witness in 2 ... N−2 sets P exactly when the round passes, and changes nothing else
(42_miller_rabin R161, R162, R165). -/
def Obligations.MrwitSetsTheVerdictOfTheRound : Prop :=
  ∀ (ra : Reg) (s : State), s.modv = true → s.n % 2 = 1 → 2 ≤ s.getX ra → s.getX ra + 2 ≤ s.n →
    ∃ t, exec (.mrwit ra) s = .next t ∧ (t.p = true ↔ roundPasses s.n (s.getX ra)) ∧ onlyVerdict s t

/-- MRWIT with a witness outside 2 ... N−2 faults with E_OPERAND_RANGE; so it always does when N = 3
(42_miller_rabin R165). -/
def Obligations.MrwitRefusesAWitnessOutOfRange : Prop :=
  ∀ (ra : Reg) (s : State), s.modv = true → (s.getX ra < 2 ∨ s.n < s.getX ra + 2 ∨ s.n = 3) →
    exec (.mrwit ra) s = .next (s.raise .operandRange)

/-- The datapath of a witness round, the ladder and Montgomery squarings under the loaded modulus, gives the round's verdict
(42_miller_rabin R162, 41_modexp R147). -/
def Obligations.RoundDatapathGivesTheVerdict : Prop :=
  ∀ (s : State) (a : Nat), s.Inv → s.modv = true → a < s.n → (s.roundDatapath a = true ↔ roundPasses s.n a)

/-- ISPRIME's trivial exits: n ≤ 1 gives P = 0, 2 and 3 give P = 1, an even n above 3 gives P = 0; N and everything else stay
(42_miller_rabin R166). -/
def Obligations.IsprimeDecidesTheTrivialCandidates : Prop :=
  ∀ (ra : Reg) (rounds : Nat) (s : State),
    (s.getX ra ≤ 1 → ∃ t, exec (.isprime ra rounds) s = .next t ∧ t.p = false ∧ onlyVerdict s t)
    ∧ (2 ≤ s.getX ra → s.getX ra ≤ 3 → ∃ t, exec (.isprime ra rounds) s = .next t ∧ t.p = true ∧ onlyVerdict s t)
    ∧ (3 < s.getX ra → s.getX ra % 2 = 0 →
        ∃ t, exec (.isprime ra rounds) s = .next t ∧ t.p = false ∧ onlyVerdict s t)

/-- ISPRIME of an odd n ≥ 5 below the bound: P = 1 exactly when every one of the twelve witnesses at most n − 2 passes; n
becomes the loaded modulus, no draw is consumed, `rounds` is ignored (42_miller_rabin R166, R167). -/
def Obligations.IsprimeBelowTheBoundUsesTheFixedWitnesses : Prop :=
  ∀ (ra : Reg) (rounds : Nat) (s : State), 5 ≤ s.getX ra → s.getX ra % 2 = 1 → s.getX ra < 3825123056546413051 →
    ∃ t, exec (.isprime ra rounds) s = .next t
      ∧ (t.p = true ↔ ∀ a ∈ [2, 3, 5, 7, 11, 13, 17, 19, 23, 29, 31, 37],
          a ≤ s.getX ra - 2 → roundPasses (s.getX ra) a)
      ∧ holdsModulus t (s.getX ra) ∧ t.draws = s.draws
      ∧ sameRegs s t ∧ sameMessage s t ∧ sameOutput s t ∧ completedFrom s t

/-- ISPRIME of an odd n at or above the bound: the witnesses are the next `rounds` draws, each in 2 ... 2^20, all of them consumed,
and P = 1 exactly when every one of them passes; n becomes the loaded modulus (42_miller_rabin R166, R167; the numbering and
the counter of draws are the model's choice, log 3, log 24). -/
def Obligations.IsprimeAboveTheBoundUsesDrawnWitnesses : Prop :=
  ∀ (ra : Reg) (rounds : Nat) (s : State), s.getX ra % 2 = 1 → 3825123056546413051 ≤ s.getX ra →
    ∃ t ws, exec (.isprime ra rounds) s = .next t
      ∧ ws = (List.range rounds).map (fun j => rngRange 2 1048576 (s.draws + j))
      ∧ (∀ a ∈ ws, 2 ≤ a ∧ a ≤ 1048576) ∧ (t.p = true ↔ ∀ a ∈ ws, roundPasses (s.getX ra) a)
      ∧ holdsModulus t (s.getX ra) ∧ t.draws = s.draws + rounds
      ∧ sameRegs s t ∧ sameMessage s t ∧ sameOutput s t ∧ completedFrom s t

/-- A failed round with a witness in 2 ... n−2 proves n composite; so P = 0 after MRWIT proves N composite, and P = 0 after
ISPRIME, whatever was drawn, proves the candidate not prime (42_miller_rabin R160, R168, the spec's own argument). -/
def Obligations.FailedVerdictProvesComposite : Prop :=
  (∀ n a : Nat, n % 2 = 1 → 5 ≤ n → 2 ≤ a → a ≤ n - 2 → ¬ roundPasses n a → ¬ n.Prime)
  ∧ ∀ (ra : Reg) (rounds : Nat) (s t : State),
      (exec (.mrwit ra) s = .next t → t.err = none → t.p = false → ¬ s.n.Prime)
      ∧ (exec (.isprime ra rounds) s = .next t → t.p = false → ¬ (s.getX ra).Prime)

/-! ### Masking -/

/-- MGF1 writes len mask bytes, byte i being byte i mod 32 of the digest of seed ‖ BE32(i div 32), zero fill after them, and
OLEN = len; nothing else changes (43_oaep_mgf1 R181, R182). -/
def Obligations.Mgf1FillsTheOutputBuffer : Prop :=
  ∀ (len : Nat) (s : State), legalWidth s.nbits → s.mlen.toNat ≤ s.bufMax → len ≤ s.bufMax →
    ∃ t, exec (.mgf1 len) s = .next t ∧ t.olen.toNat = len
      ∧ (∀ i < len, t.ob.readByte i = (Config.H (s.mb.bytes s.mlen.toNat ++ be32 (i / 32))).getD (i % 32) 0)
      ∧ (∀ i, len ≤ i → t.ob.readByte i = 0) ∧ onlyOutput s t

/-- MGF1 faults with E_LENGTH when the seed length or the mask length exceeds the buffer (43_oaep_mgf1 R182). -/
def Obligations.Mgf1RefusesALengthBeyondTheBuffer : Prop :=
  ∀ (len : Nat) (s : State), (s.bufMax < s.mlen.toNat ∨ s.bufMax < len) → exec (.mgf1 len) s = .next (s.raise .length)

/-- The hash-counter loop, with at most ceil(L/32) requests, computes the mask; and the first bytes of a longer mask are the
shorter mask (43_oaep_mgf1 R181, 70_reset_and_hazards R290). -/
def Obligations.MaskLoopComputesTheMask : Prop :=
  ∀ (h : List Byte → List Byte) (seed : List Byte) (len : Nat), (∀ x, (h x).length = 32) →
    mgf1Datapath h seed len = mgf1 h seed len ∧ (mgf1 h seed len).length = len
    ∧ ∀ shorter, shorter ≤ len → mgf1 h seed shorter = (mgf1 h seed len).take shorter

/-- OAEPENC writes OS2IP(0x00 ‖ maskedSeed ‖ maskedDB) for the next drawn seed of 32 bytes; the result is below N, one draw is
consumed, and nothing else changes (43_oaep_mgf1 R183, R184; the numbering and the counter of draws are the model's choice,
log 3). -/
def Obligations.OaepencWritesTheEncodedMessage : Prop :=
  ∀ (rd : Reg) (s : State), s.Inv → s.modv = true → s.mlen.toNat ≤ s.bufMax → s.mlen.toNat + 66 ≤ s.k →
    ∃ t seed db mdb, exec (.oaepenc rd) s = .next t ∧ seed = rngBytes32 s.draws ∧ seed.length = 32
      ∧ db = Config.H [] ++ List.replicate (s.k - s.mlen.toNat - 66) 0 ++ [1] ++ s.mb.bytes s.mlen.toNat
      ∧ mdb = xorBytes db (mgf1 Config.H seed (s.k - 33))
      ∧ t.getX rd = os2ip ([0] ++ xorBytes seed (mgf1 Config.H mdb 32) ++ mdb)
      ∧ t.getX rd < s.n ∧ t.draws = s.draws + 1
      ∧ sameRegsBut rd s t ∧ sameModulus s t ∧ t.p = s.p ∧ sameMessage s t ∧ sameOutput s t ∧ completedFrom s t

/-- OAEPENC with a modulus loaded: E_LENGTH for a length beyond the buffer, then E_MSG_TOO_LONG when MLEN + 66 > K; no draw is
consumed (43_oaep_mgf1 R184, 60_exceptions R243, R244). -/
def Obligations.OaepencRefusesAnUnfitMessage : Prop :=
  ∀ (rd : Reg) (s : State), s.modv = true →
    (s.bufMax < s.mlen.toNat → exec (.oaepenc rd) s = .next (s.raise .length))
    ∧ (s.mlen.toNat ≤ s.bufMax → s.k < s.mlen.toNat + 66 → exec (.oaepenc rd) s = .next (s.raise .msgTooLong))

/-- OAEPDEC, when the recovered DB starts with LHASH and its first 0x01 after that stands at index i: the bytes after it go to
OB, zero fill follows, OLEN is their number, nothing else changes (43_oaep_mgf1 R185, R186). -/
def Obligations.OaepdecWritesTheRecoveredMessage : Prop :=
  ∀ (ra : Reg) (s : State) (db : List Byte) (i : Nat), s.Inv → s.modv = true → 66 ≤ s.k → s.getX ra < 256 ^ s.k →
    db = recoverDB Config.H (i2osp (s.getX ra) s.k) s.k → db.take 32 = Config.H [] →
    32 ≤ i → i < s.k - 33 → db.getD i 0 = 1 → (∀ j, 32 ≤ j → j < i → db.getD j 0 ≠ 1) →
    ∃ t, exec (.oaepdec ra) s = .next t ∧ t.olen.toNat = s.k - 33 - (i + 1)
      ∧ (∀ j < t.olen.toNat, t.ob.readByte j = db.getD (i + 1 + j) 0)
      ∧ (∀ j, t.olen.toNat ≤ j → t.ob.readByte j = 0) ∧ onlyOutput s t

/-- OAEPDEC with a modulus loaded, its faults in order: E_OAEP_FORMAT, then E_LABEL_MISMATCH when the recovered prefix differs
from LHASH, then E_SEP_NOT_FOUND when no 0x01 follows it (43_oaep_mgf1 R185, R186, R188). -/
def Obligations.OaepdecFaultsInOrder : Prop :=
  ∀ (ra : Reg) (s : State) (db : List Byte), s.modv = true →
    db = recoverDB Config.H (i2osp (s.getX ra) s.k) s.k →
    ((s.k < 66 ∨ 256 ^ s.k ≤ s.getX ra) → exec (.oaepdec ra) s = .next (s.raise .oaepFormat))
    ∧ (66 ≤ s.k → s.getX ra < 256 ^ s.k → db.take 32 ≠ Config.H [] →
        exec (.oaepdec ra) s = .next (s.raise .labelMismatch))
    ∧ (66 ≤ s.k → s.getX ra < 256 ^ s.k → db.take 32 = Config.H [] →
        (∀ j, 32 ≤ j → j < s.k - 33 → db.getD j 0 ≠ 1) → exec (.oaepdec ra) s = .next (s.raise .sepNotFound))

/-- Round trip: what OAEPENC writes, OAEPDEC under the same N turns back into the same message, for every message that fits and
every draw (43_oaep_mgf1 R187). -/
def Obligations.OaepRoundTripGivesTheMessageBack : Prop :=
  ∀ (rd : Reg) (s : State), s.Inv → s.modv = true → s.mlen.toNat ≤ s.bufMax → s.mlen.toNat + 66 ≤ s.k →
    ∃ t, exec (.oaepenc rd) s = .next t
      ∧ ∀ (ra : Reg) (u : State), u.Inv → u.modv = true → u.n = s.n → u.getX ra = t.getX rd →
        ∃ v, exec (.oaepdec ra) u = .next v ∧ v.err = u.err ∧ v.olen = s.mlen
          ∧ ∀ i < s.mlen.toNat, v.ob.readByte i = s.mb.readByte i

/-! ### The host window -/

/-- A host write to word j of X[i], engine idle, replaces exactly those 32 bits, and nothing else changes, also while a fault
is pending (20_memory R63, R64, 60_exceptions R245). -/
def Obligations.HostWritesOneWordOfARegister : Prop :=
  ∀ (s : State) (i : Reg) (j : Nat) (w : Word) (rest : List Event), s.Inv → s.busy = false → j < s.nw →
    s.events = .write (0x2000 + 0x400 * i + 4 * j) w :: rest →
    ∃ t, step s = .next t ∧ bigWord (t.getX i) j = w ∧ (∀ l, l ≠ j → bigWord (t.getX i) l = bigWord (s.getX i) l)
      ∧ sameRegsBut i s t ∧ t = { s with x := t.x, events := rest }

/-- A host write to word j of MB, engine idle, sets MB[4j+t] to bits 8t+7:8t for t = 0 ... 3 and no other byte; a write to MLEN
stores its low 16 bits (20_memory R63, R65, 10_state R33). -/
def Obligations.HostWritesTheMessageBuffer : Prop :=
  ∀ (s : State) (j : Nat) (w : Word) (rest : List Event), s.Inv → s.busy = false →
    (j < s.nw → s.events = .write (0x4000 + 4 * j) w :: rest →
      ∃ t, step s = .next t ∧ (∀ l < 4, (t.mb.readByte (4 * j + l)).toNat = w.toNat / 2 ^ (8 * l) % 256)
        ∧ (∀ a, a < 4 * j ∨ 4 * j + 3 < a → t.mb.readByte a = s.mb.readByte a)
        ∧ t = { s with mb := t.mb, events := rest })
    ∧ (s.events = .write 0x0014 w :: rest →
      ∃ t, step s = .next t ∧ t.mlen.toNat = w.toNat % 65536 ∧ t = { s with mlen := t.mlen, events := rest })

/-- Reads of data words, engine idle: word j of N and X[i] is bits 32j+31:32j, word j of MB and OB holds byte 4j in bits 7:0
(20_memory R62, R64, R65). -/
def Obligations.HostReadsTheDataWords : Prop :=
  ∀ (s : State) (i : Reg) (j : Nat) (rest : List Event), s.Inv → s.busy = false → j < s.nw →
    (s.events = .read (0x1000 + 4 * j) :: rest →
      ∃ t, step s = .next t ∧ t.hostData.toNat = s.n / 2 ^ (32 * j) % 2 ^ 32)
    ∧ (s.events = .read (0x2000 + 0x400 * i + 4 * j) :: rest →
      ∃ t, step s = .next t ∧ t.hostData.toNat = s.getX i / 2 ^ (32 * j) % 2 ^ 32)
    ∧ (s.events = .read (0x4000 + 4 * j) :: rest →
      ∃ t, step s = .next t ∧ ∀ l < 4, t.hostData.toNat / 2 ^ (8 * l) % 256 = (s.mb.readByte (4 * j + l)).toNat)
    ∧ (s.events = .read (0x4400 + 4 * j) :: rest →
      ∃ t, step s = .next t ∧ ∀ l < 4, t.hostData.toNat / 2 ^ (8 * l) % 256 = (s.ob.readByte (4 * j + l)).toNat)

/-- STATUS as read at any time: BUSY, DONE, P, MODV, OVR in bits 0 to 4, 0 in 7:5, the error code in 15:8, 0 above
(10_state R29, 20_memory R62, 60_exceptions R241). -/
def Obligations.StatusWordShowsTheFlags : Prop :=
  ∀ (s : State) (rest : List Event), s.events = .read 0x0004 :: rest →
    ∃ t, step s = .next t
      ∧ t.hostData.getLsbD 0 = s.busy ∧ t.hostData.getLsbD 1 = s.done ∧ t.hostData.getLsbD 2 = s.p
      ∧ t.hostData.getLsbD 3 = s.modv ∧ t.hostData.getLsbD 4 = s.ovr ∧ t.hostData.toNat / 32 % 8 = 0
      ∧ t.hostData.toNat / 65536 = 0
      ∧ t.hostData.toNat / 256 % 256 =
          match s.err with
          | none => 0x00
          | some .illegalCmd => 0x01
          | some .noModulus => 0x02
          | some .badModulus => 0x03
          | some .operandRange => 0x04
          | some .notCoprime => 0x05
          | some .length => 0x06
          | some .msgTooLong => 0x07
          | some .oaepFormat => 0x08
          | some .labelMismatch => 0x09
          | some .sepNotFound => 0x0A

/-- The other control registers as read: CTRL shows IE alone, CMD reads 0, ECMD its word, CFG the instance's parameters, at
any time; MLEN and OLEN their 16 bits while the engine is idle (10_state R28, R30 to R34). -/
def Obligations.ControlRegistersRead : Prop :=
  ∀ (s : State) (rest : List Event), legalWidth s.nbits →
    (s.events = .read 0x0000 :: rest → ∃ t, step s = .next t ∧ t.hostData.toNat = s.ie.toNat)
    ∧ (s.events = .read 0x0008 :: rest → ∃ t, step s = .next t ∧ t.hostData = 0)
    ∧ (s.events = .read 0x000C :: rest → ∃ t, step s = .next t ∧ t.hostData = s.ecmd)
    ∧ (s.events = .read 0x0010 :: rest →
        ∃ t, step s = .next t ∧ t.hostData.toNat = s.nbits + 32 * 2 ^ 16 + 8 * 2 ^ 24)
    ∧ (s.busy = false → s.events = .read 0x0014 :: rest →
        ∃ t, step s = .next t ∧ t.hostData.toNat = s.mlen.toNat)
    ∧ (s.busy = false → s.events = .read 0x0018 :: rest →
        ∃ t, step s = .next t ∧ t.hostData.toNat = s.olen.toNat)

/-- A read at any offset the port can carry changes no state of the block: only the data the host receives and, for an
unspecified read, the model's own counter (20_memory R62, R70; the counter is the model's choice, log 4). -/
def Obligations.ReadsChangeNoState : Prop :=
  ∀ (s : State) (off : Nat) (rest : List Event), s.events = .read off :: rest → off % 4 = 0 → off ≤ 0x7FFC →
    ∃ t, step s = .next t ∧ t = { s with hostData := t.hostData, busyReads := t.busyReads, events := rest }
      ∧ (s.busy = false → t.busyReads = s.busyReads)

/-- Reserved offsets, those of the map's gaps and those of a stride at or beyond 4·NW, read 0 and ignore writes, without any
flag (20_memory R61, R68). -/
def Obligations.ReservedOffsetsReadZeroAndIgnoreWrites : Prop :=
  ∀ (s : State) (off : Nat) (w : Word) (rest : List Event), off % 4 = 0 → off ≤ 0x7FFC →
    ((0x001C ≤ off ∧ off ≤ 0x0FFF) ∨ (0x1400 ≤ off ∧ off ≤ 0x1FFF) ∨ 0x4800 ≤ off
      ∨ (0x1000 ≤ off ∧ 4 * s.nw ≤ off % 0x400)) →
    (s.events = .write off w :: rest → step s = .next { s with events := rest })
    ∧ (s.events = .read off :: rest → step s = .next { s with hostData := 0, events := rest })

/-- Writes to STATUS, ECMD, CFG, OLEN and to words of N and OB are ignored, without any flag (20_memory R63). -/
def Obligations.ReadOnlyOffsetsIgnoreWrites : Prop :=
  ∀ (s : State) (j : Nat) (w : Word) (rest : List Event), s.Inv → j < s.nw →
    ∀ off ∈ [0x0004, 0x000C, 0x0010, 0x0018, 0x1000 + 4 * j, 0x4400 + 4 * j],
      s.events = .write off w :: rest → step s = .next { s with events := rest }

/-- While BUSY = 1 a write to CMD, MLEN, a word of X[i] or a word of MB is refused: nothing changes except OVR <- 1
(20_memory R63, R69, 10_state R30). -/
def Obligations.BusyEngineRefusesWrites : Prop :=
  ∀ (s : State) (i : Reg) (j : Nat) (w : Word) (rest : List Event), s.Inv → s.busy = true → j < s.nw →
    ∀ off ∈ [0x0008, 0x0014, 0x2000 + 0x400 * i.val + 4 * j, 0x4000 + 4 * j],
      s.events = .write off w :: rest → step s = .next { s with ovr := true, events := rest }

/-- A write to CMD is accepted when BUSY = 0 and ERR = 0: CMDREG <- w, BUSY <- 1, DONE <- 0, cp <- cp + 1; otherwise it is
refused and nothing changes except OVR <- 1; and `cp` moves by exactly 1 on an accepted write and on no other step
(10_state R23, R30). -/
def Obligations.CmdWriteIsAcceptedOrRefused : Prop :=
  (∀ (s : State) (w : Word) (rest : List Event), s.events = .write 0x0008 w :: rest →
    (s.busy = false → s.err = none →
      step s = .next { s with cmdReg := w, busy := true, done := false, cp := s.cp + 1, events := rest })
    ∧ ((s.busy = true ∨ s.err ≠ none) → step s = .next { s with ovr := true, events := rest }))
  ∧ ∀ s t : State, step s = .next t →
    (s.busy = false ∧ s.err = none ∧ (∃ w rest, s.events = .write 0x0008 w :: rest) ∧ t.cp = s.cp + 1)
    ∨ (¬ (s.busy = false ∧ s.err = none ∧ ∃ w rest, s.events = .write 0x0008 w :: rest) ∧ t.cp = s.cp)

/-- A write to CTRL without bit 31, at any time: IE takes bit 0; bit 1 clears ERR, OVR and ECMD; bit 2 clears DONE; nothing else
changes (10_state R28, 60_exceptions R246). -/
def Obligations.CtrlWriteSetsAndAcknowledges : Prop :=
  ∀ (s : State) (w : Word) (rest : List Event), s.events = .write 0x0000 w :: rest → w.getLsbD 31 = false →
    step s = .next { s with
      ie := w.getLsbD 0
      err := if w.getLsbD 1 then none else s.err
      ovr := if w.getLsbD 1 then false else s.ovr
      ecmd := if w.getLsbD 1 then 0 else s.ecmd
      done := if w.getLsbD 2 then false else s.done
      events := rest }

/-- The return from a fault: while it is pending a command word is refused; a write to CTRL with EACK set clears ERR, OVR and
ECMD and restores nothing, and DONE falls only with DACK or the next accepted command word, which may be the same word or
any other (60_exceptions R244, R246). -/
def Obligations.AcknowledgementEndsAPendingFault : Prop :=
  ∀ (s : State) (w w' c : Word) (rest : List Event), s.Inv → s.err ≠ none →
    c.getLsbD 31 = false → c.getLsbD 1 = true →
    s.events = .write 0x0008 w :: .write 0x0000 c :: .write 0x0008 w' :: rest →
    ∃ t u v, step s = .next t ∧ step t = .next u ∧ step u = .next v
      ∧ t = { s with ovr := true, events := t.events }
      ∧ u = { s with
          ie := c.getLsbD 0, err := none, ovr := false, ecmd := 0
          done := if c.getLsbD 2 then false else s.done, events := u.events }
      ∧ v = { u with cmdReg := w', busy := true, done := false, cp := s.cp + 1, events := rest }

/-- An access whose offset is not a multiple of 4 or is outside 0x0000 ... 0x7FFC is no step of the block (20_memory R67). -/
def Obligations.PortCannotCarryOtherAccesses : Prop :=
  ∀ (s : State) (off : Nat) (w : Word) (rest : List Event), (off % 4 ≠ 0 ∨ 0x7FFC < off) →
    (s.events = .write off w :: rest ∨ s.events = .read off :: rest) → ∀ t, step s ≠ .next t

/-! ### The software around the block -/

/-- RSA: decryption with OAEP gives back every message that fits, for every seed and every hash of 32 bytes, with keys that meet
the data model. Key generation refuses one prime alone, a value that fails the tester, and equal primes; a pair it makes with
a tester that accepts only primes has n = p·q, e = 65537, d = e⁻¹ below φ, and m^(e·d) = m modulo n; auto mode gives n exactly
bit_length bits. With the tester's own test, two distinct primes of half the length each succeed when 65537 is coprime to φ,
and 4 and 9 fail as not prime (48_host_procedures R200, R205, R206, R211, R212, R223). -/
def Obligations.RsaGenerationAndDecryptionKeepTheirContract : Prop :=
  (∀ (h : List Byte → List Byte) (pub : RsaPublicKey) (priv : RsaPrivateKey) (p q : Nat) (msg seed : List Byte),
    (∀ x, (h x).length = 32) → pub.ok p q → priv.ok p q → seed.length = 32 →
    msg.length + 66 ≤ byteLen (bitlen pub.n) →
    rsaRoundTrip h pub priv msg seed)
  ∧ (∀ (isPrime : Nat → Bool) (small : List Nat) (draws : List (List Nat × List Nat)) (len p q : Nat),
    rsaGenerate isPrime small draws len (some p) none = .error .parameterCoexistence
    ∧ rsaGenerate isPrime small draws len none (some q) = .error .parameterCoexistence
    ∧ ((isPrime p = false ∨ isPrime q = false) →
        rsaGenerate isPrime small draws len (some p) (some q) = .error .notPrime)
    ∧ (isPrime p = true → rsaGenerate isPrime small draws len (some p) (some p) = .error .nonDistinctPrimes))
  ∧ (∀ (isPrime : Nat → Bool) (small : List Nat) (draws : List (List Nat × List Nat)) (len : Nat) (op oq : Option Nat)
      (pub : RsaPublicKey) (priv : RsaPrivateKey), rsaGenerate isPrime small draws len op oq = .ok (pub, priv) →
    ((op = none ∨ oq = none) → 2048 ≤ len ∧ bitlen pub.n = len)
    ∧ ((∀ c, isPrime c = true → c.Prime) →
        ∃ p q : Nat, p.Prime ∧ q.Prime ∧ p ≠ q ∧ (∀ a, op = some a → p = a) ∧ (∀ b, oq = some b → q = b)
          ∧ pub.e = 65537 ∧ pub.n = p * q ∧ priv.n = pub.n ∧ 0 < priv.d ∧ priv.d < (p - 1) * (q - 1)
          ∧ pub.e * priv.d % ((p - 1) * (q - 1)) = 1 ∧ rsaKeysConsistent pub priv))
  ∧ (∀ (drawn : Nat → List Nat) (small : List Nat) (draws : List (List Nat × List Nat)) (half p q : Nat),
    (∀ n, ∀ a ∈ drawn n, 2 ≤ a ∧ a ≤ n - 2) → p.Prime → q.Prime → p ≠ q → bitlen p = half → bitlen q = half →
    Nat.gcd 65537 ((p - 1) * (q - 1)) = 1 →
    ∃ d, rsaGenerate (isPrimeTest drawn) small draws (2 * half) (some p) (some q) = .ok (⟨65537, p * q⟩, ⟨d, p * q⟩))
  ∧ ∀ (drawn : Nat → List Nat) (small : List Nat) (draws : List (List Nat × List Nat)) (len : Nat),
    rsaGenerate (isPrimeTest drawn) small draws len (some 4) (some 9) = .error .notPrime

/-- ElGamal: with keys that meet the data model, and for every draw of the ephemeral, which lies in 2 ... p−2, encryption of an
m < p gives c1 = g^y and c2 = m·h^y modulo p; decryption gives back every m > 0 as an integer and the byte string without its
leading zero bytes, and refuses the ciphertext of m = 0 or under a g that is a multiple of p, where c2 or c1 is 0. Key
generation refuses some but not all of p, g, x, then a p or (p−1)/2 that fails the tester, a g that is no generator, an x
outside 2 ... p−2; a pair it makes with a tester that accepts only primes meets the data model, h = g^x modulo p with it, and
auto mode draws g in 2 ... p−1. That custom mode accepts a g ≥ p and keeps it as given, which its clauses include, is the
model's choice, log 27, and that encryption reduces such a g in the power is its choice, log 30 (48_host_procedures R201, R202, R208, R209, R214, R215, R216, R223). -/
def Obligations.ElGamalGenerationAndDecryptionKeepTheirContract : Prop :=
  (∀ (pub : ElGamalPublicKey) (priv : ElGamalPrivateKey) (plaintext : List Byte) (draw : Nat),
    elGamalOk pub priv → os2ip plaintext < pub.p →
    ∃ c1 c2 y, 2 ≤ y ∧ y ≤ pub.p - 2 ∧ elGamalEncrypt pub plaintext draw = .ok (c1, c2)
      ∧ c1 = pub.g ^ y % pub.p ∧ c2 = os2ip plaintext * (pub.h ^ y % pub.p) % pub.p
      ∧ (pub.g % pub.p ≠ 0 → 0 < os2ip plaintext → elGamalRoundTrip priv plaintext c1 c2)
      ∧ ((pub.g % pub.p = 0 ∨ os2ip plaintext = 0) → elGamalDecryptInt (some priv) c1 c2 = .error .invalidCiphertext))
  ∧ (∀ (isPrime : Nat → Bool) (small : List Nat) (draws : List ElGamalDraws) (len : Nat) (op og ox : Option Nat),
    (op.isSome || og.isSome || ox.isSome) = true → (op.isSome && og.isSome && ox.isSome) = false →
    elGamalGenerate isPrime small draws len op og ox = .error .parameterCoexistence)
  ∧ (∀ (isPrime : Nat → Bool) (small : List Nat) (draws : List ElGamalDraws) (len p g x : Nat),
    (isPrime p = false → elGamalGenerate isPrime small draws len (some p) (some g) (some x) = .error .notPrime)
    ∧ (isPrime p = true → isPrime ((p - 1) / 2) = false →
        elGamalGenerate isPrime small draws len (some p) (some g) (some x) = .error .notSafePrime)
    ∧ (isPrime p = true → isPrime ((p - 1) / 2) = true → isGenerator p g = false →
        elGamalGenerate isPrime small draws len (some p) (some g) (some x) = .error .invalidGenerator)
    ∧ (isPrime p = true → isPrime ((p - 1) / 2) = true → isGenerator p g = true → (x ≤ 1 ∨ p - 1 ≤ x) →
        elGamalGenerate isPrime small draws len (some p) (some g) (some x) = .error .keyOutOfRange))
  ∧ ∀ (isPrime : Nat → Bool) (small : List Nat) (draws : List ElGamalDraws) (len : Nat) (op og ox : Option Nat)
      (pub : ElGamalPublicKey) (priv : ElGamalPrivateKey),
    (∀ c, isPrime c = true → c.Prime) → elGamalGenerate isPrime small draws len op og ox = .ok (pub, priv) →
    elGamalOk pub priv ∧ elGamalKeysConsistent pub priv
    ∧ (∀ a, op = some a → pub.p = a) ∧ (∀ b, og = some b → pub.g = b) ∧ (∀ c, ox = some c → priv.x = c)
    ∧ (og = none → 2 ≤ pub.g ∧ pub.g ≤ pub.p - 1)

/-! ### Reset and the invariant -/

/-- After reset every piece of state is 0, and IRQ is 0 with it: in the state right after reset, where `cp` is 0 as well, and
after a hardware reset or a write to CTRL with bit 31 set at any later time, where CFG and `cp` stay (10_state R38). -/
def Obligations.ResetLeavesEveryPieceOfStateZero : Prop :=
  blockZero State.reset ∧ State.reset.cp = 0
  ∧ ∀ (s : State) (w : Word) (rest : List Event), w.getLsbD 31 = true →
      (s.events = .hwReset :: rest ∨ s.events = .write 0x0000 w :: rest) →
      ∃ t, step s = .next t ∧ blockZero t ∧ t.nbits = s.nbits ∧ t.cp = s.cp

/-- The hardware reset and the soft reset (CTRL bit 31, the rest of the written word ignored) have the same effect, also while a
command runs: every register and buffer is 0, the pending command is gone; the width and `cp` stay, and so do the model's
own fields, its choice, log 18 (70_reset_and_hazards R280, R281, R282, 10_state R28, R38). -/
def Obligations.BothResetsGiveTheResetState : Prop :=
  ∀ (s : State) (w : Word) (rest : List Event), w.getLsbD 31 = true →
    (s.events = .hwReset :: rest ∨ s.events = .write 0x0000 w :: rest) →
    step s = .next { State.reset with
      nbits := s.nbits, cp := s.cp, draws := s.draws, busyReads := s.busyReads, hostData := s.hostData, events := rest }

/-- The state after reset meets the invariant (10_state R38, 00_scope R6). -/
def Obligations.ResetMeetsTheInvariant : Prop := State.reset.Inv

/-- Every step keeps the invariant: big registers below 2^NBITS, the modulus consistent with its derived values, buffers in
canonical form within BUFMAX, OB zero at and beyond OLEN, BUSY never with ERR or DONE, ECMD 0 without a fault, CMDREG 0 when
idle (10_state R21, R24, R26, R29, R31, R34; the canonical form is the model's choice, log 9). -/
def Obligations.EveryStepKeepsTheInvariant : Prop :=
  ∀ s t : State, s.Inv → step s = .next t → t.Inv
end

