-- ==== Sys2Proof/Laws/Arith.lean ====
section
/-! SUPPORT. One lemma per integer function of the commands, saying what it computes. -/

namespace Sys2Proof.Machine

/-! ### Bit fields and lengths -/

theorem bitField_lt (v hi lo : Nat) : bitField v hi lo < 2 ^ (hi - lo + 1) :=
  Nat.mod_lt _ (Nat.two_pow_pos _)

theorem lt_two_pow_bitlen (v : Nat) : v < 2 ^ bitlen v := by
  unfold bitlen
  split
  · simp_all
  · exact Nat.lt_log2_self

theorem two_pow_bitlen_le (v : Nat) (h : v ≠ 0) : 2 ^ (bitlen v - 1) ≤ v := by
  simp only [bitlen, h, if_false, Nat.add_sub_cancel]
  exact Nat.log2_self_le h

theorem bitlen_le (v b : Nat) (h : v < 2 ^ b) : bitlen v ≤ b := by
  unfold bitlen
  split
  · omega
  · rename_i hv
    exact (Nat.log2_lt hv).2 h

/-- The byte length K of an integer: 8·(K−1) < bitlen ≤ 8·K. -/
theorem byteLen_bounds (b : Nat) : b ≤ 8 * byteLen b ∧ 8 * byteLen b < b + 8 := by
  unfold byteLen
  omega

/-! ### The Montgomery constant -/

theorem negInvBits_spec (v : Nat) (hv : v % 2 = 1) (j : Nat) :
    negInvBits v j < 2 ^ j ∧ (v * negInvBits v j + 1) % 2 ^ j = 0 := by
  induction j with
  | zero => simp [negInvBits]
  | succ j ih =>
    obtain ⟨hlt, hmod⟩ := ih
    obtain ⟨q, hq⟩ := Nat.dvd_of_mod_eq_zero hmod
    have hdiv : (v * negInvBits v j + 1) / 2 ^ j = q := by
      rw [hq, Nat.mul_div_cancel_left _ (Nat.two_pow_pos j)]
    have hpow : 2 ^ (j + 1) = 2 ^ j * 2 := Nat.pow_succ 2 j
    rw [negInvBits, hdiv, hpow]
    split
    · rename_i hodd
      refine ⟨by omega, ?_⟩
      have e : v * (negInvBits v j + 2 ^ j) + 1 = 2 ^ j * (q + v) := by
        rw [Nat.mul_add, Nat.mul_add, ← hq]; ring
      rw [e, Nat.mul_mod_mul_left]
      have : (q + v) % 2 = 0 := by omega
      simp [this]
    · rename_i heven
      refine ⟨by omega, ?_⟩
      rw [hq, Nat.mul_mod_mul_left]
      have : q % 2 = 0 := by omega
      simp [this]

/-- NP is the t < 2^32 with (v·t + 1) mod 2^32 = 0. -/
theorem negInv32_spec (v : Nat) (hv : v % 2 = 1) : (v * (negInv32 v).toNat + 1) % 2 ^ 32 = 0 := by
  obtain ⟨hlt, hmod⟩ := negInvBits_spec v hv 32
  rw [negInv32, BitVec.toNat_ofNat, Nat.mod_eq_of_lt hlt]
  exact hmod

/-! ### Powers -/

theorem powLoop_spec (n fuel b e acc : Nat) (he : e < 2 ^ fuel) :
    powLoop n fuel b e acc ≡ acc * b ^ e [MOD n] := by
  induction fuel generalizing b e acc with
  | zero =>
    have : e = 0 := by omega
    subst this
    simp [powLoop, Nat.ModEq]
  | succ fuel ih =>
    rw [powLoop]
    have he' : e / 2 < 2 ^ fuel := by rw [Nat.pow_succ] at he; omega
    have hsq : (b * b % n) ^ (e / 2) ≡ b ^ (2 * (e / 2)) [MOD n] := by
      rw [pow_mul, pow_two]
      exact (Nat.mod_modEq (b * b) n).pow _
    refine (ih _ _ _ he').trans ?_
    rcases Nat.mod_two_eq_zero_or_one e with h | h
    · rw [if_neg (by omega)]
      have e2 : 2 * (e / 2) = e := by omega
      rw [e2] at hsq
      exact Nat.ModEq.mul_left acc hsq
    · rw [if_pos h]
      have e2 : e = 2 * (e / 2) + 1 := by omega
      have h1 : acc * b % n * (b * b % n) ^ (e / 2) ≡ acc * b * b ^ (2 * (e / 2)) [MOD n] :=
        (Nat.mod_modEq (acc * b) n).mul hsq
      have h2 : acc * b * b ^ (2 * (e / 2)) = acc * b ^ e := by
        conv_rhs => rw [e2, pow_succ]
        ring
      rw [← h2]
      exact h1

theorem powLoop_lt (n fuel b e acc : Nat) (hn : 0 < n) (hacc : acc < n) : powLoop n fuel b e acc < n := by
  induction fuel generalizing b e acc with
  | zero => exact hacc
  | succ fuel ih =>
    rw [powLoop]
    apply ih
    split
    · exact Nat.mod_lt _ hn
    · exact hacc

/-- `powMod` is the power modulo n. -/
theorem powMod_eq (b e n : Nat) (hn : 0 < n) : powMod b e n = b ^ e % n := by
  have h := powLoop_spec n (bitlen e) (b % n) e (1 % n) (lt_two_pow_bitlen e)
  have hlt := powLoop_lt n (bitlen e) (b % n) e (1 % n) hn (Nat.mod_lt _ hn)
  have h2 : 1 % n * (b % n) ^ e ≡ b ^ e [MOD n] := by
    simpa using (Nat.mod_modEq 1 n).mul ((Nat.mod_modEq b n).pow e)
  have h3 := h.trans h2
  unfold powMod
  rw [← Nat.mod_eq_of_lt hlt]
  exact h3

/-! ### The Montgomery multiplier -/

/-- One step divides exactly: 2^32·T' = T + word·b + m·n for a 32-bit digit m. -/
theorem montStep_spec (n np b word T : Nat) (hnp : (n * np + 1) % 2 ^ 32 = 0) :
    ∃ m, m < 2 ^ 32 ∧ 2 ^ 32 * montStep n np b word T = T + word * b + m * n := by
  refine ⟨bitField (bitField (T + word * b) 31 0 * np) 31 0, bitField_lt _ _ _, ?_⟩
  unfold montStep
  simp only
  generalize hU : T + word * b = U
  generalize hm : bitField (bitField U 31 0 * np) 31 0 = m
  apply Nat.mul_div_cancel'
  have hm' : m ≡ U * np [MOD 2 ^ 32] := by
    subst hm
    simp only [bitField, pow_zero, Nat.div_one]
    exact (Nat.mod_modEq _ _).trans ((Nat.mod_modEq U (2 ^ 32)).mul_right np)
  have h0 : n * np + 1 ≡ 0 [MOD 2 ^ 32] := hnp
  have h1 : U + m * n ≡ U + U * np * n [MOD 2 ^ 32] := Nat.ModEq.add_left U (hm'.mul_right n)
  have h2 : U + U * np * n = U * (n * np + 1) := by ring
  have h3 : U * (n * np + 1) ≡ U * 0 [MOD 2 ^ 32] := Nat.ModEq.mul_left U h0
  rw [h2] at h1
  exact (Nat.modEq_zero_iff_dvd).1 ((h1.trans h3).trans (by simp [Nat.ModEq]))

/-- The bound kept between steps: T < 2·n. -/
theorem montStep_lt (n np b word T : Nat) (hnp : (n * np + 1) % 2 ^ 32 = 0) (hb : b < n) (hw : word < 2 ^ 32)
    (hT : T < 2 * n) : montStep n np b word T < 2 * n := by
  obtain ⟨m, hm, he⟩ := montStep_spec n np b word T hnp
  have h1 : word * b ≤ (2 ^ 32 - 1) * n := Nat.mul_le_mul (by omega) hb.le
  have h2 : m * n ≤ (2 ^ 32 - 1) * n := Nat.mul_le_mul_right n (by omega)
  have h3 : 2 ^ 32 * montStep n np b word T < 2 ^ 32 * (2 * n) := by
    rw [he]; omega
  exact Nat.lt_of_mul_lt_mul_left h3

/-- Words i ... i+steps−1 of a, as one integer. -/
theorem bitField_succ_words (a i steps : Nat) :
    a / 2 ^ (32 * i) % 2 ^ (32 * (steps + 1)) =
      bitField a (32 * i + 31) (32 * i) + 2 ^ 32 * (a / 2 ^ (32 * (i + 1)) % 2 ^ (32 * steps)) := by
  have e : 32 * i + 31 - 32 * i + 1 = 32 := by omega
  have e1 : 2 ^ (32 * (steps + 1)) = 2 ^ 32 * 2 ^ (32 * steps) := by rw [← pow_add]; congr 1; ring
  have e2 : a / 2 ^ (32 * (i + 1)) = a / 2 ^ (32 * i) / 2 ^ 32 := by
    rw [Nat.div_div_eq_div_mul, ← pow_add]; congr 2
  rw [bitField, e, e1, e2, Nat.mod_mul]

/-- The loop multiplies by 2^(32·steps): the words of a read so far times b, plus the running value, modulo n. -/
theorem montLoop_spec (n np a b steps i T : Nat) (hnp : (n * np + 1) % 2 ^ 32 = 0) :
    montLoop n np a b steps i T * 2 ^ (32 * steps) ≡ T + a / 2 ^ (32 * i) % 2 ^ (32 * steps) * b [MOD n] := by
  induction steps generalizing i T with
  | zero => simp [montLoop, Nat.mod_one, Nat.ModEq]
  | succ steps ih =>
    have h := (ih (i + 1) (montStep n np b (bitField a (32 * i + 31) (32 * i)) T)).mul_right (2 ^ 32)
    rw [montLoop, bitField_succ_words]
    revert h
    generalize bitField a (32 * i + 31) (32 * i) = word
    generalize a / 2 ^ (32 * (i + 1)) % 2 ^ (32 * steps) = rest
    intro h
    obtain ⟨m, -, he⟩ := montStep_spec n np b word T hnp
    have e1 : montLoop n np a b steps (i + 1) (montStep n np b word T) * 2 ^ (32 * steps) * 2 ^ 32
        = montLoop n np a b steps (i + 1) (montStep n np b word T) * 2 ^ (32 * (steps + 1)) := by
      rw [mul_assoc, ← pow_add]; rfl
    have e2 : (montStep n np b word T + rest * b) * 2 ^ 32 = T + (word + 2 ^ 32 * rest) * b + m * n := by
      have : (montStep n np b word T + rest * b) * 2 ^ 32 = 2 ^ 32 * montStep n np b word T + 2 ^ 32 * rest * b := by
        ring
      rw [this, he]; ring
    rw [e1, e2] at h
    exact h.trans (show _ % n = _ % n from Nat.add_mul_mod_self_right _ m n)

theorem montLoop_lt (n np a b steps i T : Nat) (hnp : (n * np + 1) % 2 ^ 32 = 0) (hb : b < n) (hT : T < 2 * n) :
    montLoop n np a b steps i T < 2 * n := by
  induction steps generalizing i T with
  | zero => exact hT
  | succ steps ih =>
    rw [montLoop]
    refine ih _ _ (montStep_lt n np b _ T hnp hb ?_ hT)
    have e : 32 * i + 31 - 32 * i + 1 = 32 := by omega
    have := bitField_lt a (32 * i + 31) (32 * i)
    rwa [e] at this

/-- The Montgomery product is below n, and times 2^(32·nw) it is a·b modulo n. -/
theorem montMul_spec (nw n np a b : Nat) (hnp : (n * np + 1) % 2 ^ 32 = 0) (hb : b < n) (ha : a < 2 ^ (32 * nw)) :
    montMul nw n np a b < n ∧ montMul nw n np a b * 2 ^ (32 * nw) ≡ a * b [MOD n] := by
  have hlt := montLoop_lt n np a b nw 0 0 hnp hb (by omega)
  have hmod := montLoop_spec n np a b nw 0 0 hnp
  simp only [Nat.mul_zero, pow_zero, Nat.div_one, Nat.zero_add, Nat.mod_eq_of_lt ha] at hmod
  unfold montMul
  simp only
  split
  · rename_i hle
    refine ⟨by omega, ?_⟩
    have e : montLoop n np a b nw 0 0 = (montLoop n np a b nw 0 0 - n) + n := by omega
    rw [e, Nat.add_mul] at hmod
    exact (show _ % n = _ % n from (Nat.add_mul_mod_self_left _ n (2 ^ (32 * nw))).symm).trans hmod
  · exact ⟨by omega, hmod⟩

/-! ### The tester -/

/-- The halving loop keeps d·2^s, and ends with d odd when its fuel covers d. -/
theorem decompLoop_spec (fuel d s : Nat) (hd : d ≠ 0) (hf : d < 2 ^ fuel) :
    (decompLoop fuel d s).1 * 2 ^ (decompLoop fuel d s).2 = d * 2 ^ s ∧ (decompLoop fuel d s).1 % 2 = 1
      ∧ s ≤ (decompLoop fuel d s).2 := by
  induction fuel generalizing d s with
  | zero => omega
  | succ fuel ih =>
    rw [decompLoop]
    split
    · rename_i h
      obtain ⟨h1, h2, h3⟩ := ih (d / 2) (s + 1) (by omega) (by rw [Nat.pow_succ] at hf; omega)
      refine ⟨?_, h2, by omega⟩
      rw [h1, pow_succ]
      have : d = 2 * (d / 2) := by omega
      conv_rhs => rw [this]
      ring
    · exact ⟨rfl, by omega, le_refl s⟩

/-- `Decomp(n)` for odd n ≥ 3: n − 1 = d·2^s with d odd and s ≥ 1. -/
theorem decomp_spec (n : Nat) (hn : 3 ≤ n) (hodd : n % 2 = 1) :
    n - 1 = (decomp n).1 * 2 ^ (decomp n).2 ∧ (decomp n).1 % 2 = 1 ∧ 1 ≤ (decomp n).2 := by
  have hlt := lt_two_pow_bitlen n
  obtain ⟨h1, h2, -⟩ := decompLoop_spec (bitlen n) (n - 1) 0 (by omega) (by omega)
  refine ⟨by simpa [decomp] using h1.symm, h2, ?_⟩
  by_contra h
  have h0 : (decompLoop (bitlen n) (n - 1) 0).2 = 0 := by
    have : (decomp n).2 = 0 := by omega
    exact this
  rw [h0] at h1
  omega

/-- The pair of an odd part and an exponent is unique. -/
theorem decomp_unique (d s d' s' : Nat) (hd : d % 2 = 1) (hd' : d' % 2 = 1) (h : d * 2 ^ s = d' * 2 ^ s') :
    d = d' ∧ s = s' := by
  induction s generalizing s' with
  | zero =>
    cases s' with
    | zero => simpa using h
    | succ k =>
      rw [pow_succ, ← mul_assoc] at h
      omega
  | succ s ih =>
    cases s' with
    | zero =>
      rw [pow_succ, ← mul_assoc] at h
      omega
    | succ k =>
      have : d * 2 ^ s = d' * 2 ^ k := by
        rw [pow_succ, pow_succ] at h
        have : 2 * (d * 2 ^ s) = 2 * (d' * 2 ^ k) := by linarith
        omega
      obtain ⟨h1, h2⟩ := ih k this
      exact ⟨h1, by omega⟩

/-- The squaring loop finds n − 1 exactly when one of x^(2^j), 1 ≤ j ≤ steps, is n − 1 modulo n. -/
theorem squareLoop_spec (n steps x : Nat) :
    squareLoop n steps x = true ↔ ∃ j, 1 ≤ j ∧ j ≤ steps ∧ x ^ 2 ^ j % n = n - 1 := by
  induction steps generalizing x with
  | zero =>
    refine iff_of_false (by simp [squareLoop]) ?_
    rintro ⟨j, h1, h2, -⟩
    omega
  | succ steps ih =>
    rw [squareLoop]
    have hpow : ∀ j, (x * x % n) ^ 2 ^ j % n = x ^ 2 ^ (j + 1) % n := by
      intro j
      rw [← Nat.pow_mod, pow_succ' 2 j, pow_mul, pow_two]
    split
    · rename_i h
      refine iff_of_true rfl ⟨1, le_refl 1, by omega, ?_⟩
      rw [pow_one, pow_two]; exact h
    · rename_i h
      rw [ih]
      constructor
      · rintro ⟨j, h1, h2, h3⟩
        exact ⟨j + 1, by omega, by omega, by rw [← hpow]; exact h3⟩
      · rintro ⟨j, h1, h2, h3⟩
        obtain ⟨i, rfl⟩ : ∃ i, j = i + 1 := ⟨j - 1, by omega⟩
        by_cases hi : i = 0
        · subst hi
          exact absurd (by simpa [pow_two] using h3) h
        · exact ⟨i, by omega, by omega, by rw [hpow]; exact h3⟩

/-- A round of an odd n ≥ 3 passes exactly when a^d is 1 or some a^(d·2^j), j < s, is n − 1, for n − 1 = d·2^s, d odd. -/
theorem mrRound_spec (n a d s : Nat) (hn : 3 ≤ n) (hodd : n % 2 = 1) (hds : n - 1 = d * 2 ^ s) (hd : d % 2 = 1) :
    mrRound n a = true ↔ a ^ d % n = 1 ∨ ∃ j, j < s ∧ a ^ (d * 2 ^ j) % n = n - 1 := by
  obtain ⟨h1, h2, h3⟩ := decomp_spec n hn hodd
  obtain ⟨rfl, rfl⟩ := decomp_unique d s _ _ hd h2 (hds.symm.trans h1)
  unfold mrRound
  simp only [powMod_eq a _ n (by omega)]
  have hpow : ∀ j, (a ^ (decomp n).1 % n) ^ 2 ^ j % n = a ^ ((decomp n).1 * 2 ^ j) % n := by
    intro j
    rw [← Nat.pow_mod, pow_mul]
  split
  · rename_i h
    refine iff_of_true rfl ?_
    rcases h with h | h
    · exact .inl h
    · exact .inr ⟨0, by omega, by simpa using h⟩
  · rename_i h
    rw [squareLoop_spec]
    simp only [hpow]
    constructor
    · rintro ⟨j, h4, h5, h6⟩
      exact .inr ⟨j, by omega, h6⟩
    · rintro (h4 | ⟨j, h4, h5⟩)
      · exact absurd (.inl h4) h
      · by_cases hj : j = 0
        · subst hj
          exact absurd (.inr (by simpa using h5)) h
        · exact ⟨j, by omega, by omega, h5⟩

/-! ### The modular inverse -/

/-- Euclid's loop with enough fuel ends at the greatest common divisor and keeps a·t ≡ r modulo m. -/
theorem euclidLoop_spec (a m : Int) (fuel r0 r1 : Nat) (t0 t1 : Int) (hf : r1 < fuel)
    (h0 : m ∣ a * t0 - r0) (h1 : m ∣ a * t1 - r1) :
    (euclidLoop fuel r0 r1 t0 t1).1 = Nat.gcd r0 r1
      ∧ m ∣ a * (euclidLoop fuel r0 r1 t0 t1).2 - (euclidLoop fuel r0 r1 t0 t1).1 := by
  induction fuel generalizing r0 r1 t0 t1 with
  | zero => omega
  | succ fuel ih =>
    rw [euclidLoop]
    split
    · rename_i h
      subst h
      exact ⟨by simp, h0⟩
    · rename_i h
      simp only
      have hr : r0 - r0 / r1 * r1 = r0 % r1 := by
        have := Nat.div_add_mod r0 r1
        rw [Nat.mul_comm] at this
        omega
      have hlt : r0 % r1 < r1 := Nat.mod_lt _ (by omega)
      have hcast : ((r0 - r0 / r1 * r1 : Nat) : Int) = (r0 : Int) - (r0 / r1 : Nat) * r1 := by
        have : r0 / r1 * r1 ≤ r0 := Nat.div_mul_le_self r0 r1
        push_cast [Nat.cast_sub this]
        ring
      have hstep : m ∣ a * (t0 - (r0 / r1 : Nat) * t1) - ((r0 - r0 / r1 * r1 : Nat) : Int) := by
        rw [hcast]
        have e : a * (t0 - (r0 / r1 : Nat) * t1) - ((r0 : Int) - (r0 / r1 : Nat) * r1)
            = (a * t0 - r0) - (r0 / r1 : Nat) * (a * t1 - r1) := by ring
        rw [e]
        exact dvd_sub h0 (h1.mul_left _)
      have := ih r1 (r0 - r0 / r1 * r1) t1 (t0 - (r0 / r1 : Nat) * t1) (by omega) h1 hstep
      refine ⟨?_, this.2⟩
      rw [this.1, hr, Nat.gcd_comm, ← Nat.gcd_rec, Nat.gcd_comm]

/-- `Inverse(a, m)` with enough fuel: the inverse in 1 ... m−1 when a and m are coprime, none otherwise. -/
theorem euclidInverse_spec (fuel a m : Nat) (hm : 2 ≤ m) (hf : a < fuel) :
    (Nat.gcd a m = 1 → ∃ t, euclidInverse fuel a m = some t ∧ 1 ≤ t ∧ t < m ∧ a * t % m = 1)
      ∧ (Nat.gcd a m ≠ 1 → euclidInverse fuel a m = none) := by
  obtain ⟨hg, hdvd⟩ := euclidLoop_spec (a : Int) (m : Int) fuel m a 0 1 hf (by simp) (by simp)
  rw [Nat.gcd_comm] at hg
  unfold euclidInverse
  simp only [hg]
  refine ⟨fun h => ?_, fun h => by rw [if_neg h]⟩
  rw [if_pos h]
  rw [hg, h] at hdvd
  generalize (euclidLoop fuel m a 0 1).2 = t at *
  have hm0 : (0 : Int) < m := by omega
  have hnn : 0 ≤ t % (m : Int) := Int.emod_nonneg _ (by omega)
  have hlt : t % (m : Int) < m := Int.emod_lt_of_pos _ hm0
  have hcong : (a : Int) * (t % (m : Int)) % m = 1 := by
    rw [Int.mul_emod, Int.emod_emod_of_dvd _ (dvd_refl _), ← Int.mul_emod]
    have := Int.emod_emod_of_dvd ((a : Int) * t) (dvd_refl (m : Int))
    rw [Int.emod_eq_emod_iff_emod_sub_eq_zero.2 (Int.emod_eq_zero_of_dvd hdvd)]
    exact Int.emod_eq_of_lt (by omega) (by simpa using (by omega : (1 : Int) < m))
  obtain ⟨u, hu⟩ := Int.eq_ofNat_of_zero_le hnn
  rw [hu] at hcong hlt
  have hmul : a * u % m = 1 := by exact_mod_cast hcong
  have hu0 : u ≠ 0 := by rintro rfl; simp at hmul
  refine ⟨u, by rw [hu]; simp, by omega, by exact_mod_cast hlt, hmul⟩

end Sys2Proof.Machine
end

