-- ==== Sys2Proof/Laws/Octets.lean ====
section
/-! SUPPORT. Byte strings: the big-endian conversions, lengths, the mask generator's bytes, and the two halves of the
OAEP codec, each lemma for any hash `h` with a 32-byte digest. -/

namespace Sys2Proof.Machine

/-! ### Conversions -/

theorem os2ip_append_singleton (s : List Byte) (b : Byte) : os2ip (s ++ [b]) = os2ip s * 256 + b.toNat := by
  simp [os2ip, List.foldl_append]

theorem os2ip_lt (s : List Byte) : os2ip s < 256 ^ s.length := by
  induction s using List.reverseRecOn with
  | nil => simp [os2ip]
  | append_singleton s b ih =>
    rw [os2ip_append_singleton, List.length_append, List.length_singleton, pow_succ]
    have := b.isLt
    omega

/-- A string and what follows it: the value of the first is shifted by the length of the second. -/
theorem os2ip_append (s t : List Byte) : os2ip (s ++ t) = os2ip s * 256 ^ t.length + os2ip t := by
  induction t using List.reverseRecOn with
  | nil => simp [os2ip]
  | append_singleton t b ih =>
    rw [← List.append_assoc, os2ip_append_singleton, ih, os2ip_append_singleton, List.length_append,
      List.length_singleton, pow_succ]
    ring

@[simp] theorem length_i2osp (v len : Nat) : (i2osp v len).length = len := by simp [i2osp]

/-- The last byte of `I2OSP(v, len+1)` is v's low byte, the rest is `I2OSP(v / 256, len)`. -/
theorem i2osp_succ (v len : Nat) : i2osp v (len + 1) = i2osp (v / 256) len ++ [BitVec.ofNat 8 v] := by
  unfold i2osp
  rw [List.range_succ, List.map_append]
  congr 1
  · apply List.map_congr_left
    intro t ht
    have ht' : t < len := List.mem_range.1 ht
    have e : len + 1 - 1 - t = len - 1 - t + 1 := by omega
    rw [e, pow_succ', Nat.div_div_eq_div_mul]
  · simp

theorem os2ip_i2osp (v len : Nat) (h : v < 256 ^ len) : os2ip (i2osp v len) = v := by
  induction len generalizing v with
  | zero =>
    have : v = 0 := by simpa using h
    simp [this, i2osp, os2ip]
  | succ len ih =>
    rw [i2osp_succ, os2ip_append_singleton, ih (v / 256) (by rw [pow_succ] at h; omega), BitVec.toNat_ofNat]
    omega

theorem i2osp_os2ip (s : List Byte) : i2osp (os2ip s) s.length = s := by
  induction s using List.reverseRecOn with
  | nil => simp [i2osp]
  | append_singleton s b ih =>
    rw [List.length_append, List.length_singleton, i2osp_succ, os2ip_append_singleton]
    have hb := b.isLt
    have h1 : (os2ip s * 256 + b.toNat) / 256 = os2ip s := by omega
    have h2 : BitVec.ofNat 8 (os2ip s * 256 + b.toNat) = b := by
      apply BitVec.eq_of_toNat_eq
      rw [BitVec.toNat_ofNat]
      omega
    rw [h1, h2, ih]

/-! ### Exclusive or -/

@[simp] theorem length_xorBytes (s t : List Byte) : (xorBytes s t).length = min s.length t.length := by
  simp [xorBytes]

theorem xorBytes_cancel (s t : List Byte) (h : s.length ≤ t.length) : xorBytes (xorBytes s t) t = s := by
  induction s generalizing t with
  | nil => simp [xorBytes]
  | cons a s ih =>
    cases t with
    | nil => simp at h
    | cons b t =>
      have := ih t (by simpa using h)
      simp only [xorBytes, List.zipWith_cons_cons] at this ⊢
      rw [this, BitVec.xor_assoc, BitVec.xor_self, BitVec.xor_zero]

/-! ### The mask generator -/

section
variable (h : List Byte → List Byte) (hlen : ∀ s, (h s).length = 32)
include hlen

theorem length_digests (seed : List Byte) (n : Nat) :
    ((List.range n).flatMap fun c => h (seed ++ be32 c)).length = 32 * n := by
  induction n with
  | zero => simp
  | succ n ih => rw [List.range_succ, List.flatMap_append, List.length_append, ih]; simp [hlen]; ring

/-- A mask has the length asked for. -/
theorem length_mgf1 (seed : List Byte) (len : Nat) : (mgf1 h seed len).length = len := by
  rw [mgf1, List.length_take, length_digests h hlen]
  omega

theorem digests_getD (seed : List Byte) (n i : Nat) (hi : i < 32 * n) :
    ((List.range n).flatMap fun c => h (seed ++ be32 c)).getD i 0 = (h (seed ++ be32 (i / 32))).getD (i % 32) 0 := by
  induction n with
  | zero => omega
  | succ n ih =>
    have hl := length_digests h hlen seed n
    rw [List.range_succ, List.flatMap_append]
    by_cases hin : i < 32 * n
    · rw [← ih hin]
      simp only [List.getD_eq_getElem?_getD]
      rw [List.getElem?_append_left (by rw [hl]; exact hin)]
    · have hdiv : i / 32 = n := by omega
      simp only [List.getD_eq_getElem?_getD]
      rw [List.getElem?_append_right (by rw [hl]; omega), hl, hdiv]
      have hsub : i - 32 * n = i % 32 := by omega
      simp [hsub]

/-- Byte i of a mask is byte i mod 32 of the digest of the counter i div 32. -/
theorem mgf1_getD (seed : List Byte) (len i : Nat) (hi : i < len) :
    (mgf1 h seed len).getD i 0 = (h (seed ++ be32 (i / 32))).getD (i % 32) 0 := by
  rw [← digests_getD h hlen seed ((len + 31) / 32) i (by omega), mgf1]
  simp [List.getD_eq_getElem?_getD, hi]

/-! ### The OAEP codec -/

theorem length_dataBlock (msg : List Byte) (k : Nat) (hk : msg.length + 66 ≤ k) :
    (dataBlock h msg k).length = k - 33 := by
  simp [dataBlock, hlen]
  omega

/-- A masked block of k − 33 bytes makes an encoded message of exactly k bytes. -/
theorem length_maskBlock (db : List Byte) (k : Nat) (seed : List Byte) (hk : 33 ≤ k) (hdb : db.length = k - 33)
    (hs : seed.length = 32) : (maskBlock h db k seed).length = k := by
  simp [maskBlock, length_mgf1 h hlen, hdb, hs]
  omega

/-- An encoded message has exactly k bytes. -/
theorem length_oaepEncode (msg : List Byte) (k : Nat) (seed : List Byte) (hk : msg.length + 66 ≤ k)
    (hs : seed.length = 32) : (oaepEncode h msg k seed).length = k :=
  length_maskBlock h hlen _ k seed (by omega) (length_dataBlock h hlen msg k hk) hs

/-- The decoder recovers the data block that was masked, whatever it holds. -/
theorem recoverDB_maskBlock (db : List Byte) (k : Nat) (seed : List Byte) (hdb : db.length = k - 33)
    (hs : seed.length = 32) : recoverDB h (maskBlock h db k seed) k = db := by
  unfold recoverDB maskBlock
  simp only
  have hml := length_mgf1 h hlen
  generalize hM : xorBytes db (mgf1 h seed (k - 33)) = M
  have hMl : M.length = k - 33 := by rw [← hM]; simp [hdb, hml]
  generalize hS : xorBytes seed (mgf1 h M 32) = S
  have hSl : S.length = 32 := by rw [← hS]; simp [hs, hml]
  have e1 : List.drop 33 ([0] ++ S ++ M) = M := by
    rw [List.drop_append_of_le_length (by simp [hSl])]
    have : List.drop 33 ([0] ++ S) = [] := List.drop_eq_nil_of_le (by simp [hSl])
    rw [this, List.nil_append]
  have e2 : List.take 32 (List.drop 1 ([0] ++ S ++ M)) = S := by
    simp [← hSl]
  rw [e1, e2, ← hS, xorBytes_cancel seed _ (by simp [hs, hml]), ← hM, xorBytes_cancel db _ (by simp [hdb, hml])]

/-- The decoder recovers the data block the encoder masked. -/
theorem recoverDB_oaepEncode (msg : List Byte) (k : Nat) (seed : List Byte) (hk : msg.length + 66 ≤ k)
    (hs : seed.length = 32) : recoverDB h (oaepEncode h msg k seed) k = dataBlock h msg k :=
  recoverDB_maskBlock h hlen _ k seed (length_dataBlock h hlen msg k hk) hs

/-- The recovered data block of an encoded message of k bytes has k − 33 bytes. -/
theorem length_recoverDB (em : List Byte) (k : Nat) (hem : em.length = k) : (recoverDB h em k).length = k - 33 := by
  simp [recoverDB, length_mgf1 h hlen, hem]

omit hlen in
/-- Zero bytes before the separator are skipped. -/
theorem afterSeparator_zeros (n : Nat) (msg : List Byte) :
    afterSeparator (List.replicate n 0 ++ [1] ++ msg) = some msg := by
  induction n with
  | zero => simp [afterSeparator]
  | succ n ih => simpa [List.replicate_succ, afterSeparator] using ih

omit hlen in
/-- What follows the first 0x01 byte, at the least index i that holds one. -/
theorem afterSeparator_eq_some (s msg : List Byte) :
    afterSeparator s = some msg ↔ ∃ i, i < s.length ∧ s.getD i 0 = 1 ∧ (∀ j < i, s.getD j 0 ≠ 1) ∧ msg = s.drop (i + 1) := by
  induction s with
  | nil => simp [afterSeparator]
  | cons b rest ih =>
    rw [afterSeparator]
    split
    · rename_i hb
      subst hb
      constructor
      · intro e
        exact ⟨0, by simp, by simp, by simp, by simpa using e.symm⟩
      · rintro ⟨i, -, -, hmin, rfl⟩
        cases i with
        | zero => simp
        | succ i => exact absurd (by simp) (hmin 0 (by omega))
    · rename_i hb
      rw [ih]
      constructor
      · rintro ⟨i, h1, h2, h3, rfl⟩
        refine ⟨i + 1, by simp; omega, by simpa using h2, ?_, by simp⟩
        intro j hj
        cases j with
        | zero => simpa using hb
        | succ j => simpa using h3 j (by omega)
      · rintro ⟨i, h1, h2, h3, rfl⟩
        cases i with
        | zero => exact absurd (by simpa using h2) hb
        | succ i =>
          exact ⟨i, by simpa using h1, by simpa using h2, fun j hj => by simpa using h3 (j + 1) (by omega), by simp⟩

omit hlen in
/-- No separator: no byte is 0x01. -/
theorem afterSeparator_eq_none (s : List Byte) : afterSeparator s = none ↔ ∀ i < s.length, s.getD i 0 ≠ 1 := by
  induction s with
  | nil => simp [afterSeparator]
  | cons b rest ih =>
    rw [afterSeparator]
    split
    · rename_i hb
      refine iff_of_false (by simp) fun hall => ?_
      exact hall 0 (by simp) (by simpa using hb)
    · rename_i hb
      rw [ih]
      constructor
      · intro hall i hi
        cases i with
        | zero => simpa using hb
        | succ i => simpa using hall i (by simpa using hi)
      · intro hall i hi
        simpa using hall (i + 1) (by simpa using hi)

/-- Decoding an encoded message gives it back (43_oaep_mgf1 R187, for the functions). -/
theorem oaepDecode_oaepEncode (msg : List Byte) (k : Nat) (seed : List Byte) (hk : msg.length + 66 ≤ k)
    (hs : seed.length = 32) : oaepDecode h (oaepEncode h msg k seed) k = .ok msg := by
  unfold oaepDecode
  simp only [recoverDB_oaepEncode h hlen msg k seed hk hs]
  have e0 : dataBlock h msg k = h [] ++ (List.replicate (k - msg.length - 66) 0 ++ [1] ++ msg) := by
    simp [dataBlock, List.append_assoc]
  have e1 : (dataBlock h msg k).take 32 = h [] := by rw [e0, ← hlen [], List.take_left]
  have e2 : (dataBlock h msg k).drop 32 = List.replicate (k - msg.length - 66) 0 ++ [1] ++ msg := by
    rw [e0, ← hlen [], List.drop_left]
  rw [e1, e2, afterSeparator_zeros]
  simp

end

/-- The digest of the hash core has 32 bytes. -/
@[simp] theorem length_H (s : List Byte) : (Config.H s).length = 32 := by simp [Config.H]

end Sys2Proof.Machine
end

