-- ==== Sys2Proof/Laws/HostProcedures.lean ====
section
/-! SUPPORT. One lemma per search of the software around the block, saying what a success means, and the serialisation of an
integer without leading zero bytes. -/

namespace Sys2Proof.Machine

/-- A drawn value lies in its range. -/
theorem drawIn_mem (lo hi r : Nat) (h : lo ≤ hi) : lo ≤ drawIn lo hi r ∧ drawIn lo hi r ≤ hi := by
  have := Nat.mod_lt r (show 0 < hi - lo + 1 by omega)
  unfold drawIn
  omega

/-- A byte string that does not start with 0 is as long as its integer needs. -/
theorem byteLen_os2ip_cons (b : Byte) (s : List Byte) (hb : b ≠ 0) : byteLen (bitlen (os2ip (b :: s))) = s.length + 1 := by
  have hlt := os2ip_lt (b :: s)
  have hsum : os2ip (b :: s) = b.toNat * 256 ^ s.length + os2ip s := by simpa [os2ip] using os2ip_append [b] s
  have hb1 : 1 ≤ b.toNat := Nat.one_le_iff_ne_zero.2 fun h => hb (BitVec.eq_of_toNat_eq h)
  have hge : 256 ^ s.length ≤ os2ip (b :: s) := by
    rw [hsum]
    exact le_trans (Nat.le_mul_of_pos_left _ hb1) (Nat.le_add_right _ _)
  have h256 : ∀ x, 256 ^ x = 2 ^ (8 * x) := fun x => by rw [Nat.pow_mul]
  rw [h256] at hge
  rw [List.length_cons, h256] at hlt
  have h1 := bitlen_le _ _ hlt
  have h2 := (Nat.pow_lt_pow_iff_right (by decide : 1 < 2)).1 (lt_of_le_of_lt hge (lt_two_pow_bitlen _))
  have h3 := byteLen_bounds (bitlen (os2ip (b :: s)))
  omega

/-- An integer serialised to the bytes it needs: the byte string it came from without its leading zero bytes
(48_host_procedures R215, R216). -/
theorem i2osp_minimal (s : List Byte) : i2osp (os2ip s) (byteLen (bitlen (os2ip s))) = s.dropWhile (· == 0) := by
  induction s with
  | nil => rfl
  | cons b s ih =>
    by_cases hb : b = 0
    · subst hb
      have h0 : os2ip (0 :: s) = os2ip s := by simp [os2ip]
      rw [h0, ih, List.dropWhile_cons_of_pos (by simp)]
    · rw [byteLen_os2ip_cons b s hb, List.dropWhile_cons_of_neg (by simpa using hb)]
      exact i2osp_os2ip (b :: s)

/-- A generated prime has passed the tester (48_host_procedures R204). -/
theorem generatePrime_tested (isPrime : Nat → Bool) (small : List Nat) (bits : Nat) (draws : List Nat) (c : Nat)
    (h : generatePrime isPrime small bits draws = .ok c) : isPrime c = true := by
  induction draws with
  | nil => cases h
  | cons r rest ih =>
    rw [generatePrime] at h
    split_ifs at h with h1 h2
    · exact ih h
    · cases h; exact h2
    · exact ih h

/-- Everything the key pair of p and q can be, for (p−1)(q−1) ≥ 2 (48_host_procedures R205, R207). -/
theorem rsaKeyPair_cases (p q : Nat) (failure : ErrorKind) (hphi : 2 ≤ (p - 1) * (q - 1)) :
    (Nat.gcd rsaExponent ((p - 1) * (q - 1)) ≠ 1 ∧ rsaKeyPair p q failure = .error failure)
      ∨ ∃ d, rsaKeyPair p q failure = .ok (⟨rsaExponent, p * q⟩, ⟨d, p * q⟩) ∧ 0 < d ∧ d < (p - 1) * (q - 1)
          ∧ rsaExponent * d % ((p - 1) * (q - 1)) = 1 := by
  unfold rsaKeyPair
  revert hphi
  generalize (p - 1) * (q - 1) = phi
  intro hphi
  have hmod := Nat.mod_lt rsaExponent (show 0 < phi by omega)
  obtain ⟨h1, h2⟩ := euclidInverse_spec (rsaExponent % phi + 1) (rsaExponent % phi) phi hphi (by omega)
  rw [← Nat.gcd_rec, Nat.gcd_comm] at h1 h2
  by_cases hg : Nat.gcd rsaExponent phi = 1
  · obtain ⟨d, hd, h3, h4, h5⟩ := h1 hg
    exact .inr ⟨d, by simp only [hd], by omega, h4, by rw [← h5, Nat.mod_mul_mod]⟩
  · exact .inl ⟨hg, by simp only [h2 hg]⟩

/-- The pair an attempt of RSA auto mode succeeds with (48_host_procedures R206). -/
theorem rsaAttempts_spec (isPrime : Nat → Bool) (small : List Nat) (len : Nat) (draws : List (List Nat × List Nat))
    (keys : RsaPublicKey × RsaPrivateKey) (h : rsaAttempts isPrime small len draws = .ok keys) :
    ∃ p q, isPrime p = true ∧ isPrime q = true ∧ p ≠ q ∧ bitlen (p * q) = len
      ∧ rsaKeyPair p q .internalInvariant = .ok keys := by
  induction draws with
  | nil => cases h
  | cons d rest ih =>
    rw [rsaAttempts] at h
    split at h
    · cases h
    · cases h
    · rename_i p q hp hq
      split_ifs at h with hc
      · exact ih h
      · exact ⟨p, q, generatePrime_tested _ _ _ _ _ hp, generatePrime_tested _ _ _ _ _ hq, fun e => hc (.inl e),
          by_contra fun e => hc (.inr e), h⟩

/-- A found safe prime p = 2q + 1 and its q have passed the tester (48_host_procedures R209). -/
theorem findSafePrime_spec (isPrime : Nat → Bool) (small : List Nat) (len : Nat) (draws : List (List Nat)) (p : Nat)
    (h : findSafePrime isPrime small len draws = .ok p) : ∃ q, isPrime q = true ∧ isPrime p = true ∧ p = 2 * q + 1 := by
  induction draws with
  | nil => cases h
  | cons r rest ih =>
    rw [findSafePrime] at h
    split at h
    · cases h
    · rename_i q hq
      split_ifs at h with h1
      · cases h
        exact ⟨q, generatePrime_tested _ _ _ _ _ hq, h1, rfl⟩
      · exact ih h

/-- A found generator satisfies the two conditions and was drawn in [2, p−1] (48_host_procedures R209). -/
theorem findGenerator_spec (p : Nat) (draws : List Nat) (g : Nat) (h : findGenerator p draws = .ok g) :
    isGenerator p g = true ∧ ∃ r, g = drawIn 2 (p - 1) r := by
  unfold findGenerator at h
  split at h
  · cases h
  · rename_i hg
    cases h
    obtain ⟨r, -, hr⟩ := List.mem_map.1 (List.mem_of_find?_eq_some hg)
    exact ⟨List.find?_some hg, r, hr.symm⟩

end Sys2Proof.Machine
end

