-- ==== Sys2Proof/Laws/Memory.lean ====
section
/-! SUPPORT. The byte buffers: reads after writes, and that every operation keeps the canonical form. -/

namespace Sys2Proof.Machine

theorem Memory.wf_nil : Memory.wf [] := by simp [Memory.wf]

theorem Memory.wf_cons (i : Nat) (b : Byte) (m : Memory) :
    Memory.wf ((i, b) :: m) ↔ b ≠ 0 ∧ (∀ c ∈ m, i < c.1) ∧ Memory.wf m := by
  simp only [Memory.wf, List.pairwise_cons, List.mem_cons, forall_eq_or_imp]
  tauto

/-- In canonical form no cell stands below the first: an index under all of them reads as 0. -/
theorem Memory.readByte_of_below (m : Memory) (i : Nat) (h : ∀ c ∈ m, i < c.1) : m.readByte i = 0 := by
  induction m with
  | nil => rfl
  | cons c rest ih =>
    obtain ⟨j, b⟩ := c
    have hj : i < j := h (j, b) (by simp)
    rw [Memory.readByte, if_neg (by omega)]
    exact ih fun c hc => h c (by simp [hc])

/-- A read after a write: the written byte at its index, the old byte elsewhere. -/
theorem Memory.readByte_writeByte (m : Memory) (hm : m.wf) (i k : Nat) (b : Byte) :
    (m.writeByte i b).readByte k = if k = i then b else m.readByte k := by
  induction m with
  | nil =>
    rw [Memory.writeByte]
    by_cases hk : k = i
    · subst hk
      split <;> simp_all [Memory.readByte]
    · split <;> simp [Memory.readByte, Ne.symm hk]
  | cons c rest ih =>
    obtain ⟨j, d⟩ := c
    obtain ⟨hd, hlt, hrest⟩ := (Memory.wf_cons j d rest).1 hm
    have below : ∀ k, k ≤ j → Memory.readByte rest k = 0 := fun k hk =>
      Memory.readByte_of_below rest k fun c hc => by have := hlt c hc; omega
    rw [Memory.writeByte]
    split
    · rename_i hij
      by_cases hb : b = 0
      · rw [if_pos hb]
        by_cases hk : k = i
        · subst hk hb
          rw [if_pos rfl, Memory.readByte, if_neg (by omega), below k (by omega)]
        · rw [if_neg hk]
      · rw [if_neg hb, Memory.readByte]
        by_cases hk : k = i
        · rw [if_pos hk.symm, if_pos hk]
        · rw [if_neg (Ne.symm hk), if_neg hk]
    · split
      · rename_i hij
        subst hij
        by_cases hb : b = 0
        · rw [if_pos hb]
          by_cases hk : k = i
          · subst hk hb
            rw [if_pos rfl, below k (by omega)]
          · rw [if_neg hk, Memory.readByte, if_neg (Ne.symm hk)]
        · rw [if_neg hb, Memory.readByte, Memory.readByte]
          by_cases hk : k = i
          · rw [if_pos hk.symm, if_pos hk]
          · rw [if_neg (Ne.symm hk), if_neg hk, if_neg (Ne.symm hk)]
      · rename_i h1 h2
        rw [Memory.readByte, Memory.readByte, ih hrest]
        by_cases hk : k = i
        · rw [if_pos hk, if_pos hk, if_neg (by omega)]
        · rw [if_neg hk, if_neg hk]

/-- The cells of a written buffer are old cells or the written one. -/
theorem Memory.mem_writeByte (m : Memory) (i : Nat) (b : Byte) (c : Host.Cell) (h : c ∈ m.writeByte i b) :
    c ∈ m ∨ (c = (i, b) ∧ b ≠ 0) := by
  induction m with
  | nil =>
    by_cases hb : b = 0 <;> simp_all [Memory.writeByte]
  | cons d rest ih =>
    obtain ⟨j, e⟩ := d
    rw [Memory.writeByte] at h
    split at h
    · split at h <;> simp_all
      tauto
    · split at h
      · split at h <;> simp_all
        tauto
      · rcases List.mem_cons.1 h with h | h
        · simp [h]
        · rcases ih h with h | h
          · simp [h]
          · exact .inr h

/-- A byte write keeps the canonical form. -/
theorem Memory.wf_writeByte (m : Memory) (hm : m.wf) (i : Nat) (b : Byte) : (m.writeByte i b).wf := by
  induction m with
  | nil => by_cases hb : b = 0 <;> simp_all [Memory.writeByte, Memory.wf]
  | cons d rest ih =>
    obtain ⟨j, e⟩ := d
    obtain ⟨he, hlt, hrest⟩ := (Memory.wf_cons j e rest).1 hm
    rw [Memory.writeByte]
    split
    · rename_i hij
      split
      · exact hm
      · rename_i hb
        refine (Memory.wf_cons i b _).2 ⟨hb, ?_, hm⟩
        intro c hc
        rcases List.mem_cons.1 hc with rfl | hc
        · exact hij
        · have := hlt c hc; omega
    · split
      · rename_i hij
        split
        · exact hrest
        · rename_i hb
          exact (Memory.wf_cons i b _).2 ⟨hb, fun c hc => by have := hlt c hc; omega, hrest⟩
      · refine (Memory.wf_cons j e _).2 ⟨he, ?_, ih hrest⟩
        intro c hc
        rcases Memory.mem_writeByte rest i b c hc with hc | ⟨rfl, -⟩
        · exact hlt c hc
        · simp; omega

/-- Writing to one of the four bytes of word j leaves every index outside 4j ... 4j+3 alone; the four bytes are those of the
word, lowest index in bits 7:0. -/
theorem Memory.readByte_writeWord (m : Memory) (hm : m.wf) (j k : Nat) (w : Word) :
    (m.writeWord j w).readByte k =
      if k = 4 * j then BitVec.ofNat 8 (bitField w.toNat 7 0)
      else if k = 4 * j + 1 then BitVec.ofNat 8 (bitField w.toNat 15 8)
      else if k = 4 * j + 2 then BitVec.ofNat 8 (bitField w.toNat 23 16)
      else if k = 4 * j + 3 then BitVec.ofNat 8 (bitField w.toNat 31 24)
      else m.readByte k := by
  have h1 := Memory.wf_writeByte m hm (4 * j) (BitVec.ofNat 8 (bitField w.toNat 7 0))
  have h2 := Memory.wf_writeByte _ h1 (4 * j + 1) (BitVec.ofNat 8 (bitField w.toNat 15 8))
  have h3 := Memory.wf_writeByte _ h2 (4 * j + 2) (BitVec.ofNat 8 (bitField w.toNat 23 16))
  rw [Memory.writeWord, Memory.readByte_writeByte _ h3, Memory.readByte_writeByte _ h2,
    Memory.readByte_writeByte _ h1, Memory.readByte_writeByte _ hm]
  split_ifs <;> first | rfl | omega

/-- A word write keeps the canonical form. -/
theorem Memory.wf_writeWord (m : Memory) (hm : m.wf) (j : Nat) (w : Word) : (m.writeWord j w).wf :=
  Memory.wf_writeByte _ (Memory.wf_writeByte _ (Memory.wf_writeByte _ (Memory.wf_writeByte _ hm _ _) _ _) _ _) _ _

/-- The cells of a buffer after a word write are old cells or at 4j ... 4j+3. -/
theorem Memory.mem_writeWord (m : Memory) (j : Nat) (w : Word) (c : Host.Cell) (h : c ∈ m.writeWord j w) :
    c ∈ m ∨ c.1 < 4 * j + 4 := by
  unfold Memory.writeWord at h
  rcases Memory.mem_writeByte _ _ _ _ h with h | ⟨rfl, -⟩
  · rcases Memory.mem_writeByte _ _ _ _ h with h | ⟨rfl, -⟩
    · rcases Memory.mem_writeByte _ _ _ _ h with h | ⟨rfl, -⟩
      · rcases Memory.mem_writeByte _ _ _ _ h with h | ⟨rfl, -⟩
        · exact .inl h
        · exact .inr (by simp)
      · exact .inr (by simp)
    · exact .inr (by simp)
  · exact .inr (by simp)

/-- The cells made from a byte string lie within it. -/
theorem Memory.mem_ofBytesFrom (bytes : List Byte) (i : Nat) (c : Host.Cell) (h : c ∈ Memory.ofBytesFrom i bytes) :
    i ≤ c.1 ∧ c.1 < i + bytes.length ∧ c.2 ≠ 0 := by
  induction bytes generalizing i with
  | nil => simp [Memory.ofBytesFrom] at h
  | cons b rest ih =>
    rw [Memory.ofBytesFrom] at h
    split at h
    · have := ih (i + 1) h
      simp only [List.length_cons]
      exact ⟨by omega, by omega, this.2.2⟩
    · rcases List.mem_cons.1 h with rfl | h
      · simp only [List.length_cons]
        exact ⟨by omega, by omega, by assumption⟩
      · have := ih (i + 1) h
        simp only [List.length_cons]
        exact ⟨by omega, by omega, this.2.2⟩

/-- A buffer made from a byte string is in canonical form. -/
theorem Memory.wf_ofBytesFrom (bytes : List Byte) (i : Nat) : (Memory.ofBytesFrom i bytes).wf := by
  induction bytes generalizing i with
  | nil => exact Memory.wf_nil
  | cons b rest ih =>
    rw [Memory.ofBytesFrom]
    split
    · exact ih (i + 1)
    · rename_i hb
      exact (Memory.wf_cons i b _).2 ⟨hb, fun c hc => by have := Memory.mem_ofBytesFrom rest (i + 1) c hc; omega, ih (i + 1)⟩

theorem Memory.readByte_ofBytesFrom (bytes : List Byte) (i k : Nat) :
    (Memory.ofBytesFrom i bytes).readByte k = if i ≤ k then bytes.getD (k - i) 0 else 0 := by
  induction bytes generalizing i with
  | nil => simp [Memory.ofBytesFrom, Memory.readByte]
  | cons b rest ih =>
    have step : (if i = k then b else (Memory.ofBytesFrom (i + 1) rest).readByte k)
        = if i ≤ k then (b :: rest).getD (k - i) 0 else 0 := by
      rw [ih]
      by_cases h : i = k
      · subst h; simp
      · by_cases h2 : i ≤ k
        · obtain ⟨d, rfl⟩ : ∃ d, k = i + 1 + d := ⟨k - i - 1, by omega⟩
          rw [if_neg h, if_pos (by omega), if_pos h2]
          have e : i + 1 + d - i = d + 1 := by omega
          simp [e]
        · rw [if_neg h, if_neg (by omega), if_neg h2]
    rw [← step, Memory.ofBytesFrom]
    split
    · rename_i hb
      by_cases h : i = k
      · rw [if_pos h, hb]
        exact Memory.readByte_of_below _ _ fun c hc => by
          have := Memory.mem_ofBytesFrom rest (i + 1) c hc; omega
      · rw [if_neg h]
    · rw [Memory.readByte]

/-- A buffer made from a byte string holds it from index 0 on and 0 after it. -/
theorem Memory.readByte_ofBytes (bytes : List Byte) (k : Nat) :
    (Memory.ofBytes bytes).readByte k = bytes.getD k 0 := by
  simp [Memory.ofBytes, Memory.readByte_ofBytesFrom]

theorem Memory.wf_ofBytes (bytes : List Byte) : (Memory.ofBytes bytes).wf := Memory.wf_ofBytesFrom bytes 0

theorem Memory.mem_ofBytes (bytes : List Byte) (c : Host.Cell) (h : c ∈ Memory.ofBytes bytes) : c.1 < bytes.length := by
  have := Memory.mem_ofBytesFrom bytes 0 c h
  omega

@[simp] theorem Memory.length_bytes (m : Memory) (len : Nat) : (m.bytes len).length = len := by
  simp [Memory.bytes]

/-- The byte string read from a buffer that was made from one. -/
theorem Memory.bytes_ofBytes (bytes : List Byte) : (Memory.ofBytes bytes).bytes bytes.length = bytes := by
  apply List.ext_getElem
  · simp
  · intro k h1 h2
    simp [Memory.bytes, Memory.readByte_ofBytes, h2]

/-- Equal memories in canonical form are equal data: two buffers that read the same everywhere are the same list. -/
theorem Memory.ext_readByte (m m' : Memory) (hm : m.wf) (hm' : m'.wf) (h : ∀ i, m.readByte i = m'.readByte i) : m = m' := by
  induction m generalizing m' with
  | nil =>
    cases m' with
    | nil => rfl
    | cons c rest =>
      obtain ⟨j, b⟩ := c
      have := h j
      simp [Memory.readByte] at this
      exact absurd this.symm ((Memory.wf_cons j b rest).1 hm').1
  | cons c rest ih =>
    obtain ⟨j, b⟩ := c
    obtain ⟨hb, hlt, hrest⟩ := (Memory.wf_cons j b rest).1 hm
    have first : Memory.readByte ((j, b) :: rest) j = b := by simp [Memory.readByte]
    cases m' with
    | nil => exact absurd ((first.symm.trans (h j)).trans rfl) hb
    | cons c' rest' =>
      obtain ⟨j', b'⟩ := c'
      obtain ⟨hb', hlt', hrest'⟩ := (Memory.wf_cons j' b' rest').1 hm'
      have first' : Memory.readByte ((j', b') :: rest') j' = b' := by simp [Memory.readByte]
      have hj : j = j' := by
        rcases Nat.lt_trichotomy j j' with hl | he | hl
        · exfalso
          have e := (h j).symm.trans first
          rw [Memory.readByte_of_below] at e
          · exact hb e.symm
          · intro c hc
            rcases List.mem_cons.1 hc with rfl | hc
            · exact hl
            · have := hlt' c hc; omega
        · exact he
        · exfalso
          have e := (h j').trans first'
          rw [Memory.readByte_of_below] at e
          · exact hb' e.symm
          · intro c hc
            rcases List.mem_cons.1 hc with rfl | hc
            · exact hl
            · have := hlt c hc; omega
      subst hj
      have hbb : b = b' := (first.symm.trans (h j)).trans first'
      subst hbb
      congr 1
      refine ih rest' hrest hrest' fun i => ?_
      have hi := h i
      simp only [Memory.readByte] at hi
      by_cases e : j = i
      · subst e
        rw [Memory.readByte_of_below rest j (fun c hc => hlt c hc),
          Memory.readByte_of_below rest' j (fun c hc => hlt' c hc)]
      · simpa [e] using hi

end Sys2Proof.Machine
end

