-- ==== Sys2Proof/Laws/PerInstr.lean ====
section
/-! SUPPORT. Statements about every instruction as syntax, one lemma per constructor. -/

namespace Sys2Proof.Laws

/-- A value below 2^k added to a multiple of 2^k, under a mask that has no bit below k: the value drops out. -/
theorem and_mask_add_low (high low k : Nat) (mask : Word) (hlow : low < 2 ^ k)
    (hmask : BitVec.ofNat 32 (2 ^ k - 1) &&& mask = 0) :
    BitVec.ofNat 32 (2 ^ k * high + low) &&& mask = BitVec.ofNat 32 (2 ^ k * high) &&& mask := by
  have h1 : 2 ^ k * high + low = 2 ^ k * high ||| low := Nat.two_pow_add_eq_or_of_lt hlow high
  have h2 : BitVec.ofNat 32 low = BitVec.ofNat 32 low &&& BitVec.ofNat 32 (2 ^ k - 1) := by
    rw [← BitVec.ofNat_and, Nat.and_two_pow_sub_one_eq_mod, Nat.mod_eq_of_lt hlow]
  rw [h1, BitVec.ofNat_or, BitVec.and_comm, BitVec.and_or_distrib_left]
  have h3 : mask &&& BitVec.ofNat 32 low = 0 := by
    rw [h2, BitVec.and_comm, BitVec.and_assoc, hmask]
    exact BitVec.and_zero
  rw [h3, BitVec.and_comm]
  exact BitVec.or_zero

end Sys2Proof.Laws

/-! ### The word of a command lies in its row of the opcode map (30_encoding R95) -/

namespace Sys2Proof.Laws.EncodeInRow

/-- The encoder's word of a well-formed command matches the command's row, and the row is one of the opcode map's. -/
def Statement (i : Instr) : Prop :=
  i.wellFormed = true → encode i &&& i.maskWord = i.matchWord ∧ (i.matchWord, i.maskWord) ∈ opcodeMap

theorem nop : Statement .nop := fun _ => by decide +kernel

theorem setmod (ra : Reg) : Statement (.setmod ra) := fun _ => by revert ra; decide +kernel

theorem mov (rd ra : Reg) : Statement (.mov rd ra) := fun _ => by revert rd ra; decide +kernel

theorem clr (rd : Reg) : Statement (.clr rd) := fun _ => by revert rd; decide +kernel

theorem wipe : Statement .wipe := fun _ => by decide +kernel

theorem ldi (rd : Reg) (imm20 : Nat) : Statement (.ldi rd imm20) := fun h => by
  have hlow : imm20 < 2 ^ 20 := by simpa [Instr.wellFormed] using h
  refine ⟨?_, by simp [opcodeMap, Instr.matchWord, Instr.maskWord]⟩
  have e : 0x05 * 2 ^ 24 + rd.val * 2 ^ 20 + imm20 = 2 ^ 20 * (0x50 + rd.val) + imm20 := by ring
  simp only [encode, formatI]
  rw [e, and_mask_add_low _ _ 20 _ hlow (by simp only [Instr.maskWord]; decide)]
  clear h e
  revert rd
  simp only [Instr.maskWord, Instr.matchWord]
  decide +kernel

theorem montmul (rd ra rb : Reg) : Statement (.montmul rd ra rb) := fun _ => by revert rd ra rb; decide +kernel

theorem modmul (rd ra rb : Reg) : Statement (.modmul rd ra rb) := fun _ => by revert rd ra rb; decide +kernel

theorem modsqr (rd ra : Reg) : Statement (.modsqr rd ra) := fun _ => by revert rd ra; decide +kernel

theorem modexp (rd ra rb : Reg) : Statement (.modexp rd ra rb) := fun _ => by revert rd ra rb; decide +kernel

theorem modinv (rd ra rb : Reg) : Statement (.modinv rd ra rb) := fun _ => by revert rd ra rb; decide +kernel

theorem mrwit (ra : Reg) : Statement (.mrwit ra) := fun _ => by revert ra; decide +kernel

theorem isprime (ra : Reg) (imm12 : Nat) : Statement (.isprime ra imm12) := fun h => by
  have hlow : imm12 < 2 ^ 12 := by simpa [Instr.wellFormed] using h
  refine ⟨?_, by simp [opcodeMap, Instr.matchWord, Instr.maskWord]⟩
  have e : 0x22 * 2 ^ 24 + 0 * 2 ^ 20 + ra.val * 2 ^ 16 + 0 * 2 ^ 12 + imm12
      = 2 ^ 12 * (0x22 * 2 ^ 12 + ra.val * 2 ^ 4) + imm12 := by ring
  simp only [encode, formatR]
  rw [e, and_mask_add_low _ _ 12 _ hlow (by simp only [Instr.maskWord]; decide)]
  clear h e
  revert ra
  simp only [Instr.maskWord, Instr.matchWord]
  decide +kernel

theorem mgf1 (imm12 : Nat) : Statement (.mgf1 imm12) := fun h => by
  have hlow : imm12 < 2 ^ 12 := by simpa [Instr.wellFormed] using h
  refine ⟨?_, by simp [opcodeMap, Instr.matchWord, Instr.maskWord]⟩
  have e : 0x30 * 2 ^ 24 + 0 * 2 ^ 20 + 0 * 2 ^ 16 + 0 * 2 ^ 12 + imm12 = 2 ^ 12 * (0x30 * 2 ^ 12) + imm12 := by ring
  simp only [encode, formatR]
  rw [e, and_mask_add_low _ _ 12 _ hlow (by simp only [Instr.maskWord]; decide)]
  simp only [Instr.maskWord, Instr.matchWord]
  decide +kernel

theorem oaepenc (rd : Reg) : Statement (.oaepenc rd) := fun _ => by revert rd; decide +kernel

theorem oaepdec (ra : Reg) : Statement (.oaepdec ra) := fun _ => by revert ra; decide +kernel

end Sys2Proof.Laws.EncodeInRow
end

