-- ==== Sys2Proof/Laws/State.lean ====
section
/-! SUPPORT. One lemma per field per state update, each true by rfl, so that no proof unfolds a record update. -/

namespace Sys2Proof.Machine

variable (s : State)

/-! ### setX -/

@[simp] theorem State.setX_nbits (i : Reg) (v : Nat) : (s.setX i v).nbits = s.nbits := rfl
@[simp] theorem State.setX_x (i : Reg) (v : Nat) : (s.setX i v).x = s.x.set i v := rfl
@[simp] theorem State.setX_n (i : Reg) (v : Nat) : (s.setX i v).n = s.n := rfl
@[simp] theorem State.setX_modv (i : Reg) (v : Nat) : (s.setX i v).modv = s.modv := rfl
@[simp] theorem State.setX_nb (i : Reg) (v : Nat) : (s.setX i v).nb = s.nb := rfl
@[simp] theorem State.setX_k (i : Reg) (v : Nat) : (s.setX i v).k = s.k := rfl
@[simp] theorem State.setX_np (i : Reg) (v : Nat) : (s.setX i v).np = s.np := rfl
@[simp] theorem State.setX_rr (i : Reg) (v : Nat) : (s.setX i v).rr = s.rr := rfl
@[simp] theorem State.setX_p (i : Reg) (v : Nat) : (s.setX i v).p = s.p := rfl
@[simp] theorem State.setX_mb (i : Reg) (v : Nat) : (s.setX i v).mb = s.mb := rfl
@[simp] theorem State.setX_mlen (i : Reg) (v : Nat) : (s.setX i v).mlen = s.mlen := rfl
@[simp] theorem State.setX_ob (i : Reg) (v : Nat) : (s.setX i v).ob = s.ob := rfl
@[simp] theorem State.setX_olen (i : Reg) (v : Nat) : (s.setX i v).olen = s.olen := rfl
@[simp] theorem State.setX_ie (i : Reg) (v : Nat) : (s.setX i v).ie = s.ie := rfl
@[simp] theorem State.setX_busy (i : Reg) (v : Nat) : (s.setX i v).busy = s.busy := rfl
@[simp] theorem State.setX_done (i : Reg) (v : Nat) : (s.setX i v).done = s.done := rfl
@[simp] theorem State.setX_ovr (i : Reg) (v : Nat) : (s.setX i v).ovr = s.ovr := rfl
@[simp] theorem State.setX_err (i : Reg) (v : Nat) : (s.setX i v).err = s.err := rfl
@[simp] theorem State.setX_ecmd (i : Reg) (v : Nat) : (s.setX i v).ecmd = s.ecmd := rfl
@[simp] theorem State.setX_cmdReg (i : Reg) (v : Nat) : (s.setX i v).cmdReg = s.cmdReg := rfl
@[simp] theorem State.setX_cp (i : Reg) (v : Nat) : (s.setX i v).cp = s.cp := rfl
@[simp] theorem State.setX_draws (i : Reg) (v : Nat) : (s.setX i v).draws = s.draws := rfl
@[simp] theorem State.setX_busyReads (i : Reg) (v : Nat) : (s.setX i v).busyReads = s.busyReads := rfl
@[simp] theorem State.setX_hostData (i : Reg) (v : Nat) : (s.setX i v).hostData = s.hostData := rfl
@[simp] theorem State.setX_events (i : Reg) (v : Nat) : (s.setX i v).events = s.events := rfl

/-! ### loadModulus -/

@[simp] theorem State.loadModulus_nbits (v : Nat) : (s.loadModulus v).nbits = s.nbits := rfl
@[simp] theorem State.loadModulus_x (v : Nat) : (s.loadModulus v).x = s.x := rfl
@[simp] theorem State.loadModulus_n (v : Nat) : (s.loadModulus v).n = v := rfl
@[simp] theorem State.loadModulus_modv (v : Nat) : (s.loadModulus v).modv = true := rfl
@[simp] theorem State.loadModulus_nb (v : Nat) : (s.loadModulus v).nb = bitlen v := rfl
@[simp] theorem State.loadModulus_k (v : Nat) : (s.loadModulus v).k = byteLen (bitlen v) := rfl
@[simp] theorem State.loadModulus_np (v : Nat) : (s.loadModulus v).np = negInv32 v := rfl
@[simp] theorem State.loadModulus_rr (v : Nat) : (s.loadModulus v).rr = 2 ^ (2 * s.nbits) % v := rfl
@[simp] theorem State.loadModulus_p (v : Nat) : (s.loadModulus v).p = s.p := rfl
@[simp] theorem State.loadModulus_mb (v : Nat) : (s.loadModulus v).mb = s.mb := rfl
@[simp] theorem State.loadModulus_mlen (v : Nat) : (s.loadModulus v).mlen = s.mlen := rfl
@[simp] theorem State.loadModulus_ob (v : Nat) : (s.loadModulus v).ob = s.ob := rfl
@[simp] theorem State.loadModulus_olen (v : Nat) : (s.loadModulus v).olen = s.olen := rfl
@[simp] theorem State.loadModulus_ie (v : Nat) : (s.loadModulus v).ie = s.ie := rfl
@[simp] theorem State.loadModulus_busy (v : Nat) : (s.loadModulus v).busy = s.busy := rfl
@[simp] theorem State.loadModulus_done (v : Nat) : (s.loadModulus v).done = s.done := rfl
@[simp] theorem State.loadModulus_ovr (v : Nat) : (s.loadModulus v).ovr = s.ovr := rfl
@[simp] theorem State.loadModulus_err (v : Nat) : (s.loadModulus v).err = s.err := rfl
@[simp] theorem State.loadModulus_ecmd (v : Nat) : (s.loadModulus v).ecmd = s.ecmd := rfl
@[simp] theorem State.loadModulus_cmdReg (v : Nat) : (s.loadModulus v).cmdReg = s.cmdReg := rfl
@[simp] theorem State.loadModulus_cp (v : Nat) : (s.loadModulus v).cp = s.cp := rfl
@[simp] theorem State.loadModulus_draws (v : Nat) : (s.loadModulus v).draws = s.draws := rfl
@[simp] theorem State.loadModulus_busyReads (v : Nat) : (s.loadModulus v).busyReads = s.busyReads := rfl
@[simp] theorem State.loadModulus_hostData (v : Nat) : (s.loadModulus v).hostData = s.hostData := rfl
@[simp] theorem State.loadModulus_events (v : Nat) : (s.loadModulus v).events = s.events := rfl

/-! ### setVerdict -/

@[simp] theorem State.setVerdict_nbits (b : Bool) : (s.setVerdict b).nbits = s.nbits := rfl
@[simp] theorem State.setVerdict_x (b : Bool) : (s.setVerdict b).x = s.x := rfl
@[simp] theorem State.setVerdict_n (b : Bool) : (s.setVerdict b).n = s.n := rfl
@[simp] theorem State.setVerdict_modv (b : Bool) : (s.setVerdict b).modv = s.modv := rfl
@[simp] theorem State.setVerdict_nb (b : Bool) : (s.setVerdict b).nb = s.nb := rfl
@[simp] theorem State.setVerdict_k (b : Bool) : (s.setVerdict b).k = s.k := rfl
@[simp] theorem State.setVerdict_np (b : Bool) : (s.setVerdict b).np = s.np := rfl
@[simp] theorem State.setVerdict_rr (b : Bool) : (s.setVerdict b).rr = s.rr := rfl
@[simp] theorem State.setVerdict_p (b : Bool) : (s.setVerdict b).p = b := rfl
@[simp] theorem State.setVerdict_mb (b : Bool) : (s.setVerdict b).mb = s.mb := rfl
@[simp] theorem State.setVerdict_mlen (b : Bool) : (s.setVerdict b).mlen = s.mlen := rfl
@[simp] theorem State.setVerdict_ob (b : Bool) : (s.setVerdict b).ob = s.ob := rfl
@[simp] theorem State.setVerdict_olen (b : Bool) : (s.setVerdict b).olen = s.olen := rfl
@[simp] theorem State.setVerdict_ie (b : Bool) : (s.setVerdict b).ie = s.ie := rfl
@[simp] theorem State.setVerdict_busy (b : Bool) : (s.setVerdict b).busy = s.busy := rfl
@[simp] theorem State.setVerdict_done (b : Bool) : (s.setVerdict b).done = s.done := rfl
@[simp] theorem State.setVerdict_ovr (b : Bool) : (s.setVerdict b).ovr = s.ovr := rfl
@[simp] theorem State.setVerdict_err (b : Bool) : (s.setVerdict b).err = s.err := rfl
@[simp] theorem State.setVerdict_ecmd (b : Bool) : (s.setVerdict b).ecmd = s.ecmd := rfl
@[simp] theorem State.setVerdict_cmdReg (b : Bool) : (s.setVerdict b).cmdReg = s.cmdReg := rfl
@[simp] theorem State.setVerdict_cp (b : Bool) : (s.setVerdict b).cp = s.cp := rfl
@[simp] theorem State.setVerdict_draws (b : Bool) : (s.setVerdict b).draws = s.draws := rfl
@[simp] theorem State.setVerdict_busyReads (b : Bool) : (s.setVerdict b).busyReads = s.busyReads := rfl
@[simp] theorem State.setVerdict_hostData (b : Bool) : (s.setVerdict b).hostData = s.hostData := rfl
@[simp] theorem State.setVerdict_events (b : Bool) : (s.setVerdict b).events = s.events := rfl

/-! ### setOutput -/

@[simp] theorem State.setOutput_nbits (l : List Byte) : (s.setOutput l).nbits = s.nbits := rfl
@[simp] theorem State.setOutput_x (l : List Byte) : (s.setOutput l).x = s.x := rfl
@[simp] theorem State.setOutput_n (l : List Byte) : (s.setOutput l).n = s.n := rfl
@[simp] theorem State.setOutput_modv (l : List Byte) : (s.setOutput l).modv = s.modv := rfl
@[simp] theorem State.setOutput_nb (l : List Byte) : (s.setOutput l).nb = s.nb := rfl
@[simp] theorem State.setOutput_k (l : List Byte) : (s.setOutput l).k = s.k := rfl
@[simp] theorem State.setOutput_np (l : List Byte) : (s.setOutput l).np = s.np := rfl
@[simp] theorem State.setOutput_rr (l : List Byte) : (s.setOutput l).rr = s.rr := rfl
@[simp] theorem State.setOutput_p (l : List Byte) : (s.setOutput l).p = s.p := rfl
@[simp] theorem State.setOutput_mb (l : List Byte) : (s.setOutput l).mb = s.mb := rfl
@[simp] theorem State.setOutput_mlen (l : List Byte) : (s.setOutput l).mlen = s.mlen := rfl
@[simp] theorem State.setOutput_ob (l : List Byte) : (s.setOutput l).ob = Memory.ofBytes l := rfl
@[simp] theorem State.setOutput_olen (l : List Byte) : (s.setOutput l).olen = BitVec.ofNat 16 l.length := rfl
@[simp] theorem State.setOutput_ie (l : List Byte) : (s.setOutput l).ie = s.ie := rfl
@[simp] theorem State.setOutput_busy (l : List Byte) : (s.setOutput l).busy = s.busy := rfl
@[simp] theorem State.setOutput_done (l : List Byte) : (s.setOutput l).done = s.done := rfl
@[simp] theorem State.setOutput_ovr (l : List Byte) : (s.setOutput l).ovr = s.ovr := rfl
@[simp] theorem State.setOutput_err (l : List Byte) : (s.setOutput l).err = s.err := rfl
@[simp] theorem State.setOutput_ecmd (l : List Byte) : (s.setOutput l).ecmd = s.ecmd := rfl
@[simp] theorem State.setOutput_cmdReg (l : List Byte) : (s.setOutput l).cmdReg = s.cmdReg := rfl
@[simp] theorem State.setOutput_cp (l : List Byte) : (s.setOutput l).cp = s.cp := rfl
@[simp] theorem State.setOutput_draws (l : List Byte) : (s.setOutput l).draws = s.draws := rfl
@[simp] theorem State.setOutput_busyReads (l : List Byte) : (s.setOutput l).busyReads = s.busyReads := rfl
@[simp] theorem State.setOutput_hostData (l : List Byte) : (s.setOutput l).hostData = s.hostData := rfl
@[simp] theorem State.setOutput_events (l : List Byte) : (s.setOutput l).events = s.events := rfl

/-! ### complete -/

@[simp] theorem State.complete_nbits : (s.complete).nbits = s.nbits := rfl
@[simp] theorem State.complete_x : (s.complete).x = s.x := rfl
@[simp] theorem State.complete_n : (s.complete).n = s.n := rfl
@[simp] theorem State.complete_modv : (s.complete).modv = s.modv := rfl
@[simp] theorem State.complete_nb : (s.complete).nb = s.nb := rfl
@[simp] theorem State.complete_k : (s.complete).k = s.k := rfl
@[simp] theorem State.complete_np : (s.complete).np = s.np := rfl
@[simp] theorem State.complete_rr : (s.complete).rr = s.rr := rfl
@[simp] theorem State.complete_p : (s.complete).p = s.p := rfl
@[simp] theorem State.complete_mb : (s.complete).mb = s.mb := rfl
@[simp] theorem State.complete_mlen : (s.complete).mlen = s.mlen := rfl
@[simp] theorem State.complete_ob : (s.complete).ob = s.ob := rfl
@[simp] theorem State.complete_olen : (s.complete).olen = s.olen := rfl
@[simp] theorem State.complete_ie : (s.complete).ie = s.ie := rfl
@[simp] theorem State.complete_busy : (s.complete).busy = false := rfl
@[simp] theorem State.complete_done : (s.complete).done = true := rfl
@[simp] theorem State.complete_ovr : (s.complete).ovr = s.ovr := rfl
@[simp] theorem State.complete_err : (s.complete).err = s.err := rfl
@[simp] theorem State.complete_ecmd : (s.complete).ecmd = s.ecmd := rfl
@[simp] theorem State.complete_cmdReg : (s.complete).cmdReg = 0 := rfl
@[simp] theorem State.complete_cp : (s.complete).cp = s.cp := rfl
@[simp] theorem State.complete_draws : (s.complete).draws = s.draws := rfl
@[simp] theorem State.complete_busyReads : (s.complete).busyReads = s.busyReads := rfl
@[simp] theorem State.complete_hostData : (s.complete).hostData = s.hostData := rfl
@[simp] theorem State.complete_events : (s.complete).events = s.events := rfl

/-! ### raise -/

@[simp] theorem State.raise_nbits (e : ErrCode) : (s.raise e).nbits = s.nbits := rfl
@[simp] theorem State.raise_x (e : ErrCode) : (s.raise e).x = s.x := rfl
@[simp] theorem State.raise_n (e : ErrCode) : (s.raise e).n = s.n := rfl
@[simp] theorem State.raise_modv (e : ErrCode) : (s.raise e).modv = s.modv := rfl
@[simp] theorem State.raise_nb (e : ErrCode) : (s.raise e).nb = s.nb := rfl
@[simp] theorem State.raise_k (e : ErrCode) : (s.raise e).k = s.k := rfl
@[simp] theorem State.raise_np (e : ErrCode) : (s.raise e).np = s.np := rfl
@[simp] theorem State.raise_rr (e : ErrCode) : (s.raise e).rr = s.rr := rfl
@[simp] theorem State.raise_p (e : ErrCode) : (s.raise e).p = s.p := rfl
@[simp] theorem State.raise_mb (e : ErrCode) : (s.raise e).mb = s.mb := rfl
@[simp] theorem State.raise_mlen (e : ErrCode) : (s.raise e).mlen = s.mlen := rfl
@[simp] theorem State.raise_ob (e : ErrCode) : (s.raise e).ob = s.ob := rfl
@[simp] theorem State.raise_olen (e : ErrCode) : (s.raise e).olen = s.olen := rfl
@[simp] theorem State.raise_ie (e : ErrCode) : (s.raise e).ie = s.ie := rfl
@[simp] theorem State.raise_busy (e : ErrCode) : (s.raise e).busy = false := rfl
@[simp] theorem State.raise_done (e : ErrCode) : (s.raise e).done = true := rfl
@[simp] theorem State.raise_ovr (e : ErrCode) : (s.raise e).ovr = s.ovr := rfl
@[simp] theorem State.raise_err (e : ErrCode) : (s.raise e).err = some e := rfl
@[simp] theorem State.raise_ecmd (e : ErrCode) : (s.raise e).ecmd = s.cmdReg := rfl
@[simp] theorem State.raise_cmdReg (e : ErrCode) : (s.raise e).cmdReg = 0 := rfl
@[simp] theorem State.raise_cp (e : ErrCode) : (s.raise e).cp = s.cp := rfl
@[simp] theorem State.raise_draws (e : ErrCode) : (s.raise e).draws = s.draws := rfl
@[simp] theorem State.raise_busyReads (e : ErrCode) : (s.raise e).busyReads = s.busyReads := rfl
@[simp] theorem State.raise_hostData (e : ErrCode) : (s.raise e).hostData = s.hostData := rfl
@[simp] theorem State.raise_events (e : ErrCode) : (s.raise e).events = s.events := rfl

/-! ### acknowledge -/

@[simp] theorem State.acknowledge_nbits : (s.acknowledge).nbits = s.nbits := rfl
@[simp] theorem State.acknowledge_x : (s.acknowledge).x = s.x := rfl
@[simp] theorem State.acknowledge_n : (s.acknowledge).n = s.n := rfl
@[simp] theorem State.acknowledge_modv : (s.acknowledge).modv = s.modv := rfl
@[simp] theorem State.acknowledge_nb : (s.acknowledge).nb = s.nb := rfl
@[simp] theorem State.acknowledge_k : (s.acknowledge).k = s.k := rfl
@[simp] theorem State.acknowledge_np : (s.acknowledge).np = s.np := rfl
@[simp] theorem State.acknowledge_rr : (s.acknowledge).rr = s.rr := rfl
@[simp] theorem State.acknowledge_p : (s.acknowledge).p = s.p := rfl
@[simp] theorem State.acknowledge_mb : (s.acknowledge).mb = s.mb := rfl
@[simp] theorem State.acknowledge_mlen : (s.acknowledge).mlen = s.mlen := rfl
@[simp] theorem State.acknowledge_ob : (s.acknowledge).ob = s.ob := rfl
@[simp] theorem State.acknowledge_olen : (s.acknowledge).olen = s.olen := rfl
@[simp] theorem State.acknowledge_ie : (s.acknowledge).ie = s.ie := rfl
@[simp] theorem State.acknowledge_busy : (s.acknowledge).busy = s.busy := rfl
@[simp] theorem State.acknowledge_done : (s.acknowledge).done = s.done := rfl
@[simp] theorem State.acknowledge_ovr : (s.acknowledge).ovr = false := rfl
@[simp] theorem State.acknowledge_err : (s.acknowledge).err = none := rfl
@[simp] theorem State.acknowledge_ecmd : (s.acknowledge).ecmd = 0 := rfl
@[simp] theorem State.acknowledge_cmdReg : (s.acknowledge).cmdReg = s.cmdReg := rfl
@[simp] theorem State.acknowledge_cp : (s.acknowledge).cp = s.cp := rfl
@[simp] theorem State.acknowledge_draws : (s.acknowledge).draws = s.draws := rfl
@[simp] theorem State.acknowledge_busyReads : (s.acknowledge).busyReads = s.busyReads := rfl
@[simp] theorem State.acknowledge_hostData : (s.acknowledge).hostData = s.hostData := rfl
@[simp] theorem State.acknowledge_events : (s.acknowledge).events = s.events := rfl

/-! ### latch -/

@[simp] theorem State.latch_nbits (w : Word) : (s.latch w).nbits = s.nbits := rfl
@[simp] theorem State.latch_x (w : Word) : (s.latch w).x = s.x := rfl
@[simp] theorem State.latch_n (w : Word) : (s.latch w).n = s.n := rfl
@[simp] theorem State.latch_modv (w : Word) : (s.latch w).modv = s.modv := rfl
@[simp] theorem State.latch_nb (w : Word) : (s.latch w).nb = s.nb := rfl
@[simp] theorem State.latch_k (w : Word) : (s.latch w).k = s.k := rfl
@[simp] theorem State.latch_np (w : Word) : (s.latch w).np = s.np := rfl
@[simp] theorem State.latch_rr (w : Word) : (s.latch w).rr = s.rr := rfl
@[simp] theorem State.latch_p (w : Word) : (s.latch w).p = s.p := rfl
@[simp] theorem State.latch_mb (w : Word) : (s.latch w).mb = s.mb := rfl
@[simp] theorem State.latch_mlen (w : Word) : (s.latch w).mlen = s.mlen := rfl
@[simp] theorem State.latch_ob (w : Word) : (s.latch w).ob = s.ob := rfl
@[simp] theorem State.latch_olen (w : Word) : (s.latch w).olen = s.olen := rfl
@[simp] theorem State.latch_ie (w : Word) : (s.latch w).ie = s.ie := rfl
@[simp] theorem State.latch_busy (w : Word) : (s.latch w).busy = true := rfl
@[simp] theorem State.latch_done (w : Word) : (s.latch w).done = false := rfl
@[simp] theorem State.latch_ovr (w : Word) : (s.latch w).ovr = s.ovr := rfl
@[simp] theorem State.latch_err (w : Word) : (s.latch w).err = s.err := rfl
@[simp] theorem State.latch_ecmd (w : Word) : (s.latch w).ecmd = s.ecmd := rfl
@[simp] theorem State.latch_cmdReg (w : Word) : (s.latch w).cmdReg = w := rfl
@[simp] theorem State.latch_cp (w : Word) : (s.latch w).cp = s.cp := rfl
@[simp] theorem State.latch_draws (w : Word) : (s.latch w).draws = s.draws := rfl
@[simp] theorem State.latch_busyReads (w : Word) : (s.latch w).busyReads = s.busyReads := rfl
@[simp] theorem State.latch_hostData (w : Word) : (s.latch w).hostData = s.hostData := rfl
@[simp] theorem State.latch_events (w : Word) : (s.latch w).events = s.events := rfl

/-! ### refuseWrite -/

@[simp] theorem State.refuseWrite_nbits : (s.refuseWrite).nbits = s.nbits := rfl
@[simp] theorem State.refuseWrite_x : (s.refuseWrite).x = s.x := rfl
@[simp] theorem State.refuseWrite_n : (s.refuseWrite).n = s.n := rfl
@[simp] theorem State.refuseWrite_modv : (s.refuseWrite).modv = s.modv := rfl
@[simp] theorem State.refuseWrite_nb : (s.refuseWrite).nb = s.nb := rfl
@[simp] theorem State.refuseWrite_k : (s.refuseWrite).k = s.k := rfl
@[simp] theorem State.refuseWrite_np : (s.refuseWrite).np = s.np := rfl
@[simp] theorem State.refuseWrite_rr : (s.refuseWrite).rr = s.rr := rfl
@[simp] theorem State.refuseWrite_p : (s.refuseWrite).p = s.p := rfl
@[simp] theorem State.refuseWrite_mb : (s.refuseWrite).mb = s.mb := rfl
@[simp] theorem State.refuseWrite_mlen : (s.refuseWrite).mlen = s.mlen := rfl
@[simp] theorem State.refuseWrite_ob : (s.refuseWrite).ob = s.ob := rfl
@[simp] theorem State.refuseWrite_olen : (s.refuseWrite).olen = s.olen := rfl
@[simp] theorem State.refuseWrite_ie : (s.refuseWrite).ie = s.ie := rfl
@[simp] theorem State.refuseWrite_busy : (s.refuseWrite).busy = s.busy := rfl
@[simp] theorem State.refuseWrite_done : (s.refuseWrite).done = s.done := rfl
@[simp] theorem State.refuseWrite_ovr : (s.refuseWrite).ovr = true := rfl
@[simp] theorem State.refuseWrite_err : (s.refuseWrite).err = s.err := rfl
@[simp] theorem State.refuseWrite_ecmd : (s.refuseWrite).ecmd = s.ecmd := rfl
@[simp] theorem State.refuseWrite_cmdReg : (s.refuseWrite).cmdReg = s.cmdReg := rfl
@[simp] theorem State.refuseWrite_cp : (s.refuseWrite).cp = s.cp := rfl
@[simp] theorem State.refuseWrite_draws : (s.refuseWrite).draws = s.draws := rfl
@[simp] theorem State.refuseWrite_busyReads : (s.refuseWrite).busyReads = s.busyReads := rfl
@[simp] theorem State.refuseWrite_hostData : (s.refuseWrite).hostData = s.hostData := rfl
@[simp] theorem State.refuseWrite_events : (s.refuseWrite).events = s.events := rfl

/-! ### resetBlock -/

@[simp] theorem State.resetBlock_nbits : (s.resetBlock).nbits = s.nbits := rfl
@[simp] theorem State.resetBlock_x : (s.resetBlock).x = Vector.replicate 8 0 := rfl
@[simp] theorem State.resetBlock_n : (s.resetBlock).n = 0 := rfl
@[simp] theorem State.resetBlock_modv : (s.resetBlock).modv = false := rfl
@[simp] theorem State.resetBlock_nb : (s.resetBlock).nb = 0 := rfl
@[simp] theorem State.resetBlock_k : (s.resetBlock).k = 0 := rfl
@[simp] theorem State.resetBlock_np : (s.resetBlock).np = 0 := rfl
@[simp] theorem State.resetBlock_rr : (s.resetBlock).rr = 0 := rfl
@[simp] theorem State.resetBlock_p : (s.resetBlock).p = false := rfl
@[simp] theorem State.resetBlock_mb : (s.resetBlock).mb = [] := rfl
@[simp] theorem State.resetBlock_mlen : (s.resetBlock).mlen = 0 := rfl
@[simp] theorem State.resetBlock_ob : (s.resetBlock).ob = [] := rfl
@[simp] theorem State.resetBlock_olen : (s.resetBlock).olen = 0 := rfl
@[simp] theorem State.resetBlock_ie : (s.resetBlock).ie = false := rfl
@[simp] theorem State.resetBlock_busy : (s.resetBlock).busy = false := rfl
@[simp] theorem State.resetBlock_done : (s.resetBlock).done = false := rfl
@[simp] theorem State.resetBlock_ovr : (s.resetBlock).ovr = false := rfl
@[simp] theorem State.resetBlock_err : (s.resetBlock).err = none := rfl
@[simp] theorem State.resetBlock_ecmd : (s.resetBlock).ecmd = 0 := rfl
@[simp] theorem State.resetBlock_cmdReg : (s.resetBlock).cmdReg = 0 := rfl
@[simp] theorem State.resetBlock_cp : (s.resetBlock).cp = s.cp := rfl
@[simp] theorem State.resetBlock_draws : (s.resetBlock).draws = s.draws := rfl
@[simp] theorem State.resetBlock_busyReads : (s.resetBlock).busyReads = s.busyReads := rfl
@[simp] theorem State.resetBlock_hostData : (s.resetBlock).hostData = s.hostData := rfl
@[simp] theorem State.resetBlock_events : (s.resetBlock).events = s.events := rfl

/-! ### Reading a register after a write -/

@[simp] theorem State.getX_setX_self (i : Reg) (v : Nat) : (s.setX i v).getX i = v := by
  simp [State.getX, State.setX]

theorem State.getX_setX_other (i j : Reg) (v : Nat) (h : j ≠ i) : (s.setX i v).getX j = s.getX j := by
  have h' : (i : Nat) ≠ j := fun e => h (Fin.ext e.symm)
  simp [State.getX, State.setX, h']

theorem State.getX_setX (i j : Reg) (v : Nat) : (s.setX i v).getX j = if j = i then v else s.getX j := by
  by_cases h : j = i
  · simp [h]
  · simp [h, s.getX_setX_other i j v h]

/-- A register read depends on the register file alone. -/
theorem State.getX_congr (s t : State) (h : t.x = s.x) (i : Reg) : t.getX i = s.getX i := by
  simp [State.getX, h]

@[simp] theorem State.loadModulus_getX (v : Nat) (i : Reg) : (s.loadModulus v).getX i = s.getX i := rfl
@[simp] theorem State.setVerdict_getX (b : Bool) (i : Reg) : (s.setVerdict b).getX i = s.getX i := rfl
@[simp] theorem State.setOutput_getX (l : List Byte) (i : Reg) : (s.setOutput l).getX i = s.getX i := rfl
@[simp] theorem State.complete_getX (i : Reg) : (s.complete).getX i = s.getX i := rfl
@[simp] theorem State.raise_getX (e : ErrCode) (i : Reg) : (s.raise e).getX i = s.getX i := rfl
@[simp] theorem State.acknowledge_getX (i : Reg) : (s.acknowledge).getX i = s.getX i := rfl
@[simp] theorem State.latch_getX (w : Word) (i : Reg) : (s.latch w).getX i = s.getX i := rfl
@[simp] theorem State.refuseWrite_getX (i : Reg) : (s.refuseWrite).getX i = s.getX i := rfl

@[simp] theorem State.resetBlock_getX (i : Reg) : s.resetBlock.getX i = 0 := by
  simp [State.getX]

/-- Clearing a register twice, or writing it before, leaves no trace of the first value. -/
theorem State.setX_setX (i : Reg) (v w : Nat) : (s.setX i v).setX i w = s.setX i w := by
  simp [State.setX]

end Sys2Proof.Machine
end

