-- ==== Sys2Proof/Laws/Window.lean ====
section
/-! SUPPORT. The window: words of big values, and one lemma per access primitive saying everything it can do. -/

namespace Sys2Proof.Machine

/-! ### Words of a big value -/

/-- A word and what stands below it are less than the place above. -/
theorem word_and_low_lt (place low w : Nat) (hl : low < place) (hw : w < 2 ^ 32) : w * place + low < place * 2 ^ 32 := by
  have h : (w + 1) * place ≤ 2 ^ 32 * place := Nat.mul_le_mul_right place hw
  rw [Nat.mul_comm (2 ^ 32) place, Nat.add_mul, Nat.one_mul] at h
  omega

/-- A value below A·C whose low part is replaced by one below C stays below A·C. -/
theorem high_and_low_lt (high low A C : Nat) (hh : high < A) (hl : low < C) : high * C + low < A * C := by
  have h : (high + 1) * C ≤ A * C := Nat.mul_le_mul_right C hh
  rw [Nat.add_mul, Nat.one_mul] at h
  omega

theorem bitField_word (v j : Nat) : bitField v (32 * j + 31) (32 * j) = v / 2 ^ (32 * j) % 2 ^ 32 := by
  have e : 32 * j + 31 - 32 * j + 1 = 32 := by omega
  rw [bitField, e]

theorem toNat_bigWord (v j : Nat) : (bigWord v j).toNat = v / 2 ^ (32 * j) % 2 ^ 32 := by
  rw [bigWord, bitField_word, BitVec.toNat_ofNat, Nat.mod_mod]

/-- A value as what stands above a 32-bit place, the word in it, and what stands below. -/
theorem split_at_word (v place : Nat) :
    v = v / (place * 2 ^ 32) * (place * 2 ^ 32) + v / place % 2 ^ 32 * place + v % place := by
  have h1 := Nat.div_add_mod v place
  have h2 := Nat.div_add_mod (v / place) (2 ^ 32)
  rw [Nat.div_div_eq_div_mul] at h2
  calc v = place * (v / place) + v % place := h1.symm
    _ = place * (2 ^ 32 * (v / (place * 2 ^ 32)) + v / place % 2 ^ 32) + v % place := by rw [h2]
    _ = _ := by ring

theorem two_pow_word_succ (j : Nat) : 2 ^ (32 * (j + 1)) = 2 ^ (32 * j) * 2 ^ 32 := by rw [← pow_add]; rfl

theorem replace_middle (v hi mid low new : Nat) (h : v = hi + mid + low) : v - mid + new = hi + new + low := by omega

/-- A written value: the words above, the new word, the words below. -/
theorem setBigWord_eq (v j : Nat) (w : Word) :
    setBigWord v j w = v / 2 ^ (32 * (j + 1)) * 2 ^ (32 * (j + 1)) + w.toNat * 2 ^ (32 * j) + v % 2 ^ (32 * j) := by
  rw [setBigWord, bitField_word, two_pow_word_succ]
  exact replace_middle _ _ _ _ _ (split_at_word v (2 ^ (32 * j)))

/-- Words below j depend on the value modulo 2^(32j) alone. -/
theorem word_of_low (v i j : Nat) (h : i < j) : v / 2 ^ (32 * i) % 2 ^ 32 = v % 2 ^ (32 * j) / 2 ^ (32 * i) % 2 ^ 32 := by
  have e : 2 ^ (32 * j) = 2 ^ (32 * i) * 2 ^ (32 * (j - i)) := by rw [← pow_add]; congr 1; omega
  have d : 2 ^ 32 ∣ 2 ^ (32 * (j - i)) := Nat.pow_dvd_pow 2 (by omega)
  rw [e, Nat.mod_mul_right_div_self, Nat.mod_mod_of_dvd _ d]

/-- Words above j depend on the value divided by 2^(32(j+1)) alone. -/
theorem word_of_high (v i j : Nat) (h : j < i) :
    v / 2 ^ (32 * i) = v / 2 ^ (32 * (j + 1)) / 2 ^ (32 * (i - (j + 1))) := by
  rw [Nat.div_div_eq_div_mul, ← pow_add]
  congr 2
  omega

theorem bigWord_setBigWord_self (v j : Nat) (w : Word) : bigWord (setBigWord v j w) j = w := by
  apply BitVec.eq_of_toNat_eq
  have e : 2 ^ (32 * (j + 1)) = 2 ^ (32 * j) * 2 ^ 32 := by rw [← pow_add]; rfl
  have hlo : v % 2 ^ (32 * j) < 2 ^ (32 * j) := Nat.mod_lt _ (Nat.two_pow_pos _)
  have hw := w.isLt
  have e2 : ∀ hi lo B : Nat, hi * (B * 2 ^ 32) + w.toNat * B + lo = lo + B * (w.toNat + 2 ^ 32 * hi) := by
    intro hi lo B; ring
  rw [toNat_bigWord, setBigWord_eq, e, e2, Nat.add_mul_div_left _ _ (Nat.two_pow_pos _), Nat.div_eq_of_lt hlo,
    Nat.zero_add, Nat.add_mul_mod_self_left, Nat.mod_eq_of_lt hw]

theorem bigWord_setBigWord_other (v i j : Nat) (w : Word) (h : i ≠ j) :
    bigWord (setBigWord v j w) i = bigWord v i := by
  apply BitVec.eq_of_toNat_eq
  rw [toNat_bigWord, toNat_bigWord, setBigWord_eq]
  have hlo : v % 2 ^ (32 * j) < 2 ^ (32 * j) := Nat.mod_lt _ (Nat.two_pow_pos _)
  have hw := w.isLt
  have e : 2 ^ (32 * (j + 1)) = 2 ^ (32 * j) * 2 ^ 32 := by rw [← pow_add]; rfl
  rcases Nat.lt_or_gt_of_ne h with h | h
  · rw [word_of_low _ i j h, word_of_low v i j h]
    have e2 : ∀ hi lo B : Nat, hi * (B * 2 ^ 32) + w.toNat * B + lo = lo + B * (w.toNat + 2 ^ 32 * hi) := by
      intro hi lo B; ring
    rw [e, e2, Nat.add_mul_mod_self_left, Nat.mod_mod]
  · rw [word_of_high _ i j h, word_of_high v i j h]
    have hsmall : w.toNat * 2 ^ (32 * j) + v % 2 ^ (32 * j) < 2 ^ (32 * (j + 1)) := by
      rw [e]
      exact word_and_low_lt _ _ _ hlo hw
    rw [Nat.add_assoc, Nat.mul_comm, Nat.mul_add_div (Nat.two_pow_pos _), Nat.div_eq_of_lt hsmall, Nat.add_zero]

/-- A value of NBITS bits stays one when one of its NW words is written. -/
theorem setBigWord_lt (v j nw : Nat) (w : Word) (hv : v < 2 ^ (32 * nw)) (hj : j < nw) :
    setBigWord v j w < 2 ^ (32 * nw) := by
  have hlo : v % 2 ^ (32 * j) < 2 ^ (32 * j) := Nat.mod_lt _ (Nat.two_pow_pos _)
  have hw := w.isLt
  have e : 2 ^ (32 * (j + 1)) = 2 ^ (32 * j) * 2 ^ 32 := by rw [← pow_add]; rfl
  have e2 : 2 ^ (32 * nw) = 2 ^ (32 * (nw - (j + 1))) * 2 ^ (32 * (j + 1)) := by
    have e3 : 32 * (nw - (j + 1)) + 32 * (j + 1) = 32 * nw := by omega
    rw [← pow_add, e3]
  have hhi : v / 2 ^ (32 * (j + 1)) < 2 ^ (32 * (nw - (j + 1))) := by
    rw [Nat.div_lt_iff_lt_mul (Nat.two_pow_pos _), ← e2]
    exact hv
  rw [setBigWord_eq, e2]
  have hsmall : w.toNat * 2 ^ (32 * j) + v % 2 ^ (32 * j) < 2 ^ (32 * (j + 1)) := by
    rw [e]
    exact word_and_low_lt _ _ _ hlo hw
  rw [Nat.add_assoc]
  exact high_and_low_lt _ _ _ _ hhi hsmall

/-! ### The map -/

/-- The index of a word of N, X, MB or OB; every other target has none. -/
def Target.wordIndex : Target → Option Nat
  | .nWord j | .xWord _ j | .mbWord j | .obWord j => some j
  | .ctrl | .status | .cmd | .ecmd | .cfg | .mlen | .olen | .reserved => none

theorem strideWord_index_lt (nw off : Nat) (item : Nat → Target) (hitem : ∀ j, (item j).wordIndex = some j) (k : Nat)
    (h : (strideWord nw off item).wordIndex = some k) : k < nw := by
  unfold strideWord at h
  by_cases hj : off % 0x400 / 4 < nw
  · rw [if_pos hj, hitem] at h
    exact (Option.some.inj h) ▸ hj
  · rw [if_neg hj] at h
    cases h

/-- The words of N, X, MB and OB that an offset names exist: their index is below NW (20_memory R61). -/
theorem target_index_lt (nw off k : Nat) (h : (target nw off).wordIndex = some k) : k < nw := by
  have hN := strideWord_index_lt nw off .nWord (fun _ => rfl) k
  have hX := strideWord_index_lt nw off (.xWord (Fin.ofNat 8 ((off - 0x2000) / 0x400))) (fun _ => rfl) k
  have hM := strideWord_index_lt nw off .mbWord (fun _ => rfl) k
  have hO := strideWord_index_lt nw off .obWord (fun _ => rfl) k
  unfold target at h
  simp only [apply_ite Target.wordIndex] at h
  by_cases h1 : off = 0x0000; · rw [if_pos h1] at h; cases h
  rw [if_neg h1] at h
  by_cases h2 : off = 0x0004; · rw [if_pos h2] at h; cases h
  rw [if_neg h2] at h
  by_cases h3 : off = 0x0008; · rw [if_pos h3] at h; cases h
  rw [if_neg h3] at h
  by_cases h4 : off = 0x000C; · rw [if_pos h4] at h; cases h
  rw [if_neg h4] at h
  by_cases h5 : off = 0x0010; · rw [if_pos h5] at h; cases h
  rw [if_neg h5] at h
  by_cases h6 : off = 0x0014; · rw [if_pos h6] at h; cases h
  rw [if_neg h6] at h
  by_cases h7 : off = 0x0018; · rw [if_pos h7] at h; cases h
  rw [if_neg h7] at h
  by_cases h8 : off < 0x1000; · rw [if_pos h8] at h; cases h
  rw [if_neg h8] at h
  by_cases h9 : off < 0x1400; · rw [if_pos h9] at h; exact hN h
  rw [if_neg h9] at h
  by_cases h10 : off < 0x2000; · rw [if_pos h10] at h; cases h
  rw [if_neg h10] at h
  by_cases h11 : off < 0x4000; · rw [if_pos h11] at h; exact hX h
  rw [if_neg h11] at h
  by_cases h12 : off < 0x4400; · rw [if_pos h12] at h; exact hM h
  rw [if_neg h12] at h
  by_cases h13 : off < 0x4800; · rw [if_pos h13] at h; exact hO h
  rw [if_neg h13] at h; cases h

/-- Word j of X[i] stands at 0x2000 + 0x400·i + 4·j (20_memory R61). -/
theorem target_xWord (nw : Nat) (i : Reg) (j : Nat) (hj : j < nw) (hnw : nw ≤ 256) :
    target nw (0x2000 + 0x400 * i + 4 * j) = .xWord i j := by
  have hi := i.isLt
  have e1 : (0x2000 + 0x400 * i.val + 4 * j) % 0x400 / 4 = j := by omega
  have e2 : (0x2000 + 0x400 * i.val + 4 * j - 0x2000) / 0x400 = i := by omega
  unfold target strideWord
  repeat rw [if_neg (by omega)]
  rw [if_pos (by omega), e1, e2, if_pos hj]
  congr 1
  exact Fin.ext (Nat.mod_eq_of_lt hi)

/-- Word j of MB stands at 0x4000 + 4·j (20_memory R61). -/
theorem target_mbWord (nw j : Nat) (hj : j < nw) (hnw : nw ≤ 256) : target nw (0x4000 + 4 * j) = .mbWord j := by
  have e1 : (0x4000 + 4 * j) % 0x400 / 4 = j := by omega
  unfold target strideWord
  repeat rw [if_neg (by omega)]
  rw [if_pos (by omega), e1, if_pos hj]

theorem ite_ne {α : Type} {p : Prop} [Decidable p] {a b c : α} (ha : p → a ≠ c) (hb : ¬p → b ≠ c) :
    (if p then a else b) ≠ c := by
  split
  · exact ha ‹_›
  · exact hb ‹_›

/-- CMD stands at 0x0008 and nowhere else (20_memory R61). -/
theorem target_eq_cmd_iff (nw off : Nat) : target nw off = .cmd ↔ off = 0x0008 := by
  refine ⟨fun h => ?_, fun h => by rw [h]; rfl⟩
  by_contra h8
  refine absurd h ?_
  unfold target strideWord
  repeat' refine ite_ne (fun _ => ?_) fun _ => ?_
  all_goals first | contradiction | exact nofun

/-! ### The access primitives -/

/-- Everything a write to CMD can do (10_state R30). -/
theorem State.writeCmd_cases (s : State) (w : Word) :
    (s.busy = false ∧ s.err = none ∧ s.writeCmd w = { s.latch w with cp := s.cp + 1 })
      ∨ (¬(s.busy = false ∧ s.err = none) ∧ s.writeCmd w = s.refuseWrite) := by
  unfold State.writeCmd
  split
  · rename_i h; exact .inl ⟨h.1, h.2, rfl⟩
  · rename_i h; exact .inr ⟨h, rfl⟩

/-- Everything a write to CTRL can do (10_state R28). -/
theorem State.writeCtrl_cases (s : State) (w : Word) :
    (w.getLsbD 31 = true ∧ s.writeCtrl w = s.resetBlock)
      ∨ (w.getLsbD 31 = false ∧ s.writeCtrl w =
          { s with
            ie := w.getLsbD 0
            err := if w.getLsbD 1 then none else s.err
            ovr := if w.getLsbD 1 then false else s.ovr
            ecmd := if w.getLsbD 1 then 0 else s.ecmd
            done := if w.getLsbD 2 then false else s.done }) := by
  unfold State.writeCtrl State.acknowledge
  cases h31 : w.getLsbD 31 <;> cases h1 : w.getLsbD 1 <;> cases h2 : w.getLsbD 2 <;> simp

/-- Everything a write to a data offset can do (20_memory R63, R69). -/
theorem State.writeData_cases (s written : State) :
    (s.busy = false ∧ s.writeData written = written) ∨ (s.busy = true ∧ s.writeData written = s.refuseWrite) := by
  unfold State.writeData
  cases s.busy <;> simp

/-- Everything a read can do: the port's data, and for an unspecified read the free value's counter (20_memory R62, R69). -/
theorem State.readTarget_cases (s : State) (t : Target) :
    (¬(s.busy = true ∧ t.isData = true) ∧ s.readTarget t = { s with hostData := s.wordAt t })
      ∨ (s.busy = true ∧ t.isData = true ∧ s.readTarget t =
          { s with hostData := Config.busyReadWord s.busyReads, busyReads := s.busyReads + 1 }) := by
  unfold State.readTarget
  by_cases h : s.busy = true ∧ t.isData = true
  · exact .inr ⟨h.1, h.2, by simp [h.1, h.2]⟩
  · exact .inl ⟨h, by rw [if_neg (by simpa using h)]⟩

/-- Everything the port's own check can do (20_memory R67). -/
theorem onPort_cases (off : Nat) (s : State) :
    (0x8000 ≤ off ∧ onPort off s = .fault (.outsideWindow off))
      ∨ (off < 0x8000 ∧ off % 4 ≠ 0 ∧ onPort off s = .refused (.misalignedAccess off))
      ∨ (off < 0x8000 ∧ off % 4 = 0 ∧ onPort off s = .next s) := by
  unfold onPort
  by_cases h1 : 0x8000 ≤ off
  · exact .inl ⟨h1, by rw [if_pos h1]⟩
  · by_cases h2 : off % 4 = 0
    · exact .inr (.inr ⟨by omega, h2, by rw [if_neg h1, if_neg (by simpa using h2)]⟩)
    · exact .inr (.inl ⟨by omega, h2, by rw [if_neg h1, if_pos h2]⟩)

end Sys2Proof.Machine
end

