-- ==== Sys2Proof/Laws/Step.lean ====
section
/-! SUPPORT. One lemma per shared operation of the engine and the step, saying everything it can do. -/

namespace Sys2Proof.Machine

/-- A checked command either takes the fault its checks name or completes with its effect. -/
theorem commit_cases (s effect : State) (fault : Option ErrCode) :
    (∃ e, fault = some e ∧ commit s fault effect = s.raise e) ∨ (fault = none ∧ commit s fault effect = effect.complete) := by
  cases fault with
  | none => exact .inr ⟨rfl, rfl⟩
  | some e => exact .inl ⟨e, rfl, rfl⟩

/-- What 41_modexp R140 checks. -/
theorem rangeFault_cases (s : State) (ops : List Nat) :
    (s.modv = false ∧ rangeFault s ops = some .noModulus)
      ∨ (s.modv = true ∧ (∃ v ∈ ops, s.n ≤ v) ∧ rangeFault s ops = some .operandRange)
      ∨ (s.modv = true ∧ (∀ v ∈ ops, v < s.n) ∧ rangeFault s ops = none) := by
  unfold rangeFault
  cases hm : s.modv with
  | false => simp
  | true =>
    by_cases h : ∃ v ∈ ops, s.n ≤ v
    · exact .inr (.inl ⟨rfl, h, by simpa using h⟩)
    · refine .inr (.inr ⟨rfl, fun v hv => ?_, ?_⟩)
      · by_contra hlt
        exact h ⟨v, hv, by omega⟩
      · simpa using h

/-- Everything MODINV's function can answer (42_miller_rabin R163). -/
theorem modInverse_cases (v m : Nat) :
    (m < 2 ∧ modInverse v m = .error .badModulus)
      ∨ (2 ≤ m ∧ Nat.gcd v m ≠ 1 ∧ modInverse v m = .error .notCoprime)
      ∨ (2 ≤ m ∧ Nat.gcd v m = 1 ∧ ∃ t, modInverse v m = .ok t ∧ 1 ≤ t ∧ t < m ∧ v * t % m = 1) := by
  unfold modInverse
  by_cases hm : m < 2
  · exact .inl ⟨hm, by rw [if_pos hm]⟩
  · rw [if_neg hm]
    obtain ⟨h1, h2⟩ := euclidInverse_spec (v % m + 1) (v % m) m (by omega) (by omega)
    have hg : Nat.gcd (v % m) m = Nat.gcd v m := by
      rw [Nat.gcd_comm v m, Nat.gcd_rec m v]
    rw [hg] at h1 h2
    by_cases h : Nat.gcd v m = 1
    · obtain ⟨t, he, ht1, ht2, ht3⟩ := h1 h
      exact .inr (.inr ⟨by omega, h, t, by rw [he], ht1, ht2, by rw [← ht3, Nat.mod_mul_mod]⟩)
    · exact .inr (.inl ⟨by omega, h, by rw [h2 h]⟩)

/-- Everything `EngineComplete` can do (40_setup_move R120). -/
theorem engineComplete_cases (s : State) :
    (∃ r, decode s.cmdReg = .error r ∧ engineComplete s = .next (s.raise .illegalCmd))
      ∨ (∃ i, decode s.cmdReg = .ok i ∧ engineComplete s = exec i s) := by
  unfold engineComplete
  cases decode s.cmdReg with
  | error r => exact .inl ⟨r, rfl, rfl⟩
  | ok i => exact .inr ⟨i, rfl, rfl⟩

/-- Everything a step that answers a next state can have been (10_state R20). -/
theorem step_cases (s t : State) (h : step s = .next t) :
    (s.busy = false ∧ s.events = [] ∧ t = s)
      ∨ (s.busy = true ∧ s.events = [] ∧ engineComplete s = .next t)
      ∨ ∃ e rest, s.events = e :: rest ∧
          ((e = .engine ∧ s.busy = false ∧ t = { s with events := rest })
            ∨ (e = .engine ∧ s.busy = true ∧ engineComplete { s with events := rest } = .next t)
            ∨ (e = .hwReset ∧ t = ({ s with events := rest } : State).resetBlock)
            ∨ (∃ off w, e = .write off w ∧ off < 0x8000 ∧ off % 4 = 0 ∧
                t = ({ s with events := rest } : State).writeTarget (target s.nw off) w)
            ∨ (∃ off, e = .read off ∧ off < 0x8000 ∧ off % 4 = 0 ∧
                t = ({ s with events := rest } : State).readTarget (target s.nw off))) := by
  unfold step at h
  cases he : s.events with
  | nil =>
    rw [he] at h
    simp only [engineSlot] at h
    cases hb : s.busy with
    | false => rw [hb] at h; simp at h; exact .inl ⟨rfl, rfl, h.symm⟩
    | true => rw [hb] at h; simp at h; exact .inr (.inl ⟨rfl, rfl, h⟩)
  | cons e rest =>
    rw [he] at h
    refine .inr (.inr ⟨e, rest, rfl, ?_⟩)
    cases e with
    | engine =>
      simp only [runEvent, engineSlot] at h
      cases hb : s.busy with
      | false => rw [hb] at h; simp at h; exact .inl ⟨rfl, rfl, h.symm⟩
      | true => rw [hb] at h; simp at h; exact .inr (.inl ⟨rfl, rfl, h⟩)
    | hwReset =>
      simp only [runEvent, Host.Outcome.next.injEq] at h
      exact .inr (.inr (.inl ⟨rfl, h.symm⟩))
    | write off w =>
      simp only [runEvent, hostWrite] at h
      rcases onPort_cases off (State.writeTarget { s with events := rest } (target (State.nw { s with events := rest }) off) w)
        with ⟨-, h1⟩ | ⟨-, -, h1⟩ | ⟨ha, hb, h1⟩ <;> rw [h1] at h
      · cases h
      · cases h
      · simp only [Host.Outcome.next.injEq] at h
        exact .inr (.inr (.inr (.inl ⟨off, w, rfl, ha, hb, h.symm⟩)))
    | read off =>
      simp only [runEvent, hostRead] at h
      rcases onPort_cases off (State.readTarget { s with events := rest } (target (State.nw { s with events := rest }) off))
        with ⟨-, h1⟩ | ⟨-, -, h1⟩ | ⟨ha, hb, h1⟩ <;> rw [h1] at h
      · cases h
      · cases h
      · simp only [Host.Outcome.next.injEq] at h
        exact .inr (.inr (.inr (.inr ⟨off, rfl, ha, hb, h.symm⟩)))

end Sys2Proof.Machine
end

