-- ==== Sys2Proof/Laws/Safety.lean ====
section
/-! SUPPORT. Small lemmas about the frames, the invariant and the tester's mathematics of Safety.lean. -/

namespace Sys2Proof.Machine

/-- The completion of a command is a completion. -/
theorem completedFrom_complete (s : State) : completedFrom s s.complete :=
  ⟨rfl, rfl, rfl, rfl, rfl, rfl, rfl, rfl, rfl, rfl, rfl, rfl⟩

/-- A command that writes one big register and completes leaves everything else alone. -/
theorem onlyRegister_setX (s : State) (rd : Reg) (v : Nat) : onlyRegister rd s (s.setX rd v).complete :=
  ⟨fun i hi => by simp [State.getX_setX_other s rd i v hi], ⟨rfl, rfl, rfl, rfl, rfl, rfl⟩, rfl, ⟨rfl, fun _ => rfl⟩,
    ⟨rfl, fun _ => rfl⟩, rfl, completedFrom_complete s⟩

/-- The words of a big register cover its bits (00_scope R6). -/
theorem State.Inv.nw_bits {s : State} (hi : s.Inv) : 32 * s.nw = s.nbits := by
  have := hi.width
  unfold State.nw
  omega

/-- A write of a big register with a value that fits keeps the invariant. -/
theorem State.Inv.setX {s : State} (hi : s.Inv) (i : Reg) (v : Nat) (hv : v < 2 ^ s.nbits) : (s.setX i v).Inv :=
  ⟨hi.1, fun k => by
    rw [State.getX_setX]
    split
    · exact hv
    · exact hi.2 k, hi.3, hi.4, hi.5, hi.6, hi.7, hi.8, hi.9, hi.10, hi.11⟩

/-- The invariant says nothing about the events to come. -/
theorem State.Inv.withEvents {s : State} (hi : s.Inv) (l : List Event) : ({ s with events := l } : State).Inv :=
  ⟨hi.1, hi.2, hi.3, hi.4, hi.5, hi.6, hi.7, hi.8, hi.9, hi.10, hi.11⟩

/-- The evaluable round decides `roundPasses` (42_miller_rabin R161, R162). -/
theorem mrRound_iff_roundPasses (n a : Nat) (hn : 3 ≤ n) (hodd : n % 2 = 1) : mrRound n a = true ↔ roundPasses n a := by
  obtain ⟨h1, h2, -⟩ := decomp_spec n hn hodd
  rw [mrRound_spec n a _ _ hn hodd h1 h2]
  constructor
  · intro h
    exact ⟨_, _, h1, h2, by simpa using h⟩
  · rintro ⟨d, s, e1, e2, h⟩
    obtain ⟨rfl, rfl⟩ := decomp_unique _ _ _ _ e2 h2 (e1.symm.trans h1)
    simpa using h

end Sys2Proof.Machine
end

