-- ==== Sys2Proof/Tests/Slice0.lean ====
section
/-! SUPPORT. The model's own tests. Expected values come from spec/95_test_vectors.md (V numbers) or from a rule named beside
them. The last part shows, for every statement with hypotheses, a state and operands that meet them. -/

namespace Sys2Proof.Tests

open Sys2Proof Sys2Proof.Machine

set_option Elab.async false

/-! ### Helpers -/

/-- The next state of an outcome, if it is one. -/
def got (o : Host.Outcome State Fault Refusal) : Option State :=
  match o with
  | .next t => some t
  | .fault _ => none
  | .refused _ => none

theorem next_of_got (o : Host.Outcome State Fault Refusal) (p : State → Bool) (h : (got o).any p = true) :
    ∃ t, o = .next t ∧ p t = true := by
  cases o with
  | next t => exact ⟨t, rfl, h⟩
  | fault _ => cases h
  | refused _ => cases h

/-- The state after reset of an instance with NBITS = 64. -/
def blank : State := { State.reset with nbits := 64 }

/-- NBITS = 64 with X0, X1 and the modulus loaded. -/
def loaded (n a b : Nat) : State := ((blank.setX 0 a).setX 1 b).loadModulus n

/-- `loaded` with a pending command word. -/
def pending (w : Word) (n a b : Nat) : State := (loaded n a b).latch w

/-- A state about to run the given events. -/
def facing (s : State) (es : List Event) : State := { s with events := es }

/-! ### WellFormed refuses -/

theorem test_wellFormed_accepts : (Instr.ldi 7 1048575).wellFormed = true ∧ (Instr.isprime 7 4095).wellFormed = true
    ∧ (Instr.mgf1 4095).wellFormed = true := by decide

theorem test_wellFormed_refuses_ldi : (Instr.ldi 0 1048576).wellFormed = false := by decide

theorem test_wellFormed_refuses_isprime : (Instr.isprime 0 4096).wellFormed = false := by decide

theorem test_wellFormed_refuses_mgf1 : (Instr.mgf1 4096).wellFormed = false := by decide

/-! ### Decoding (V16, V17, V18) -/

theorem test_decode_setup : decode 0x00000000 = .ok .nop ∧ decode 0x01000000 = .ok (.setmod 0)
    ∧ decode 0x02530000 = .ok (.mov 5 3) ∧ decode 0x03200000 = .ok (.clr 2) ∧ decode 0x04000000 = .ok .wipe
    ∧ decode 0x05110001 = .ok (.ldi 1 65537) ∧ decode 0x05000000 = .ok (.ldi 0 0) := by decide +kernel

theorem test_decode_modular : decode 0x10201000 = .ok (.montmul 2 0 1) ∧ decode 0x11201000 = .ok (.modmul 2 0 1)
    ∧ decode 0x12100000 = .ok (.modsqr 1 0) ∧ decode 0x13201000 = .ok (.modexp 2 0 1)
    ∧ decode 0x13777000 = .ok (.modexp 7 7 7) ∧ decode 0x13765000 = .ok (.modexp 7 6 5) := by decide +kernel

theorem test_decode_tester : decode 0x20201000 = .ok (.modinv 2 0 1) ∧ decode 0x21010000 = .ok (.mrwit 1)
    ∧ decode 0x22000000 = .ok (.isprime 0 0) ∧ decode 0x22030028 = .ok (.isprime 3 40)
    ∧ decode 0x22070FFF = .ok (.isprime 7 4095) := by decide +kernel

theorem test_decode_masking : decode 0x30000000 = .ok (.mgf1 0) ∧ decode 0x30000100 = .ok (.mgf1 256)
    ∧ decode 0x31000000 = .ok (.oaepenc 0) ∧ decode 0x31700000 = .ok (.oaepenc 7)
    ∧ decode 0x32000000 = .ok (.oaepdec 0) ∧ decode 0x32040000 = .ok (.oaepdec 4) := by decide +kernel

theorem test_decode_refuses_reserved_opcodes :
    ([0x06000000, 0xFF000000, 0x14000000, 0x23000000, 0x33000000] : List Word).all (fun w => decide (decode w = .error .reservedOpcode)) = true := by
  decide +kernel

theorem test_decode_refuses_unused_fields :
    ([0x00000001, 0x00100000, 0x04000100, 0x01100000, 0x02530001, 0x02531000, 0x12101000, 0x13201001, 0x21110000,
      0x22100000, 0x30010028, 0x31010000, 0x32100000] : List Word).all (fun w => decide (decode w = .error .unusedFieldNonzero)) = true := by decide +kernel

theorem test_decode_refuses_reserved_registers :
    ([0x01080000, 0x05810001, 0x12900000, 0x1320F000, 0x13865000] : List Word).all (fun w => decide (decode w = .error .reservedRegister)) = true := by
  decide +kernel

theorem test_decodeTableWord : decodeTableWord 32 0x02530000 = some (.mov 5 3) ∧ decodeTableWord 32 0x06000000 = none := by
  decide +kernel

theorem test_encode : encode (.modexp 7 6 5) = 0x13765000 ∧ encode (.ldi 7 1048575) = 0x057FFFFF
    ∧ encode (.isprime 3 40) = 0x22030028 := by decide +kernel

/-! ### Set-up, move, erase -/

-- R121: NOP changes nothing but the completion
theorem test_nop : (got (step (blank.withFetchWord 32 0x00000000))).map (·.statusWord) = some 2 := by decide +kernel

-- V25
theorem test_setmod : (got (exec (.setmod 0) (blank.setX 0 3233))).map (fun t => (t.n, t.nb, t.k, t.np, t.rr))
    = some (3233, 12, 2, 0x669F289F, 1232) := by decide +kernel

theorem test_setmod_keeps_the_modulus_on_a_fault :
    (got (exec (.setmod 0) (pending 0x01000000 23 24 0))).map (fun t => (t.n, t.statusWord, t.ecmd))
    = some (23, 0x0000030A, 0x01000000) := by decide +kernel

-- V26
theorem test_mov : (got (exec (.mov 5 3) ((blank.setX 3 21).setX 5 99))).map (fun t => (t.getX 5, t.getX 3))
    = some (21, 21) := by decide +kernel

theorem test_clr : (got (exec (.clr 2) (blank.setX 2 (2 ^ 64 - 1)))).map (·.getX 2) = some 0 := by decide +kernel

theorem test_ldi : (got (exec (.ldi 1 65537) (blank.setX 1 (2 ^ 64 - 1)))).map (·.getX 1) = some 65537 := by decide +kernel

-- V27
theorem test_wipe : (got (exec .wipe { loaded 23 1 2 with
      mb := Memory.ofBytes [0x61, 0x62, 0x63], mlen := 3, p := true, ie := true, ovr := true })).map
      (fun t => (t.getX 0, t.n, t.mb.readByte 0, t.statusWord, t.irq)) = some (0, 0, 0, 0x00000012, true) := by decide +kernel

/-! ### Modular arithmetic -/

-- V30, one word and two words, and the dependence on NBITS
theorem test_montmul : (got (exec (.montmul 2 0 1) (loaded 23 5 8))).map (·.getX 2) = some 22
    ∧ (got (exec (.montmul 2 0 1) ((({ State.reset with nbits := 2048 }.setX 0 5).setX 1 8).loadModulus 23))).map
      (·.getX 2) = some 10 := by decide +kernel

theorem test_montmul_two_words :
    (got (exec (.montmul 3 0 1) (loaded 2305843009213693951 0x0123456789ABCDEF 0x0FEDCBA987654321))).map (·.getX 3)
    = some 24362227744260238 := by decide +kernel

-- V31, the source is also the destination; V35
theorem test_modmul : (got (exec (.modmul 1 1 1) (loaded 23 0 5))).map (·.getX 1) = some 2
    ∧ (got (exec (.modmul 2 0 1) (loaded 23 15 6))).map (·.getX 2) = some 21 := by decide +kernel

theorem test_modmul_second_operand_out_of_range :
    (got (exec (.modmul 2 0 1) (loaded 23 5 23))).map (fun t => (t.err, t.getX 2)) = some (some .operandRange, 0) := by
  decide +kernel

-- V32
theorem test_modsqr : (got (exec (.modsqr 1 0) (loaded 561 263 0))).map (·.getX 1) = some 166 := by decide +kernel

-- V33
theorem test_modexp : (got (exec (.modexp 2 0 1) (loaded 23 7 18446744073709551615))).map (·.getX 2) = some 14
    ∧ (got (exec (.modexp 2 0 1) (loaded 23 0 0))).map (·.getX 2) = some 1 := by decide +kernel

theorem test_modexp_base_out_of_range :
    (got (exec (.modexp 2 0 1) (loaded 23 23 2))).map (fun t => (t.err, t.getX 2)) = some (some .operandRange, 0) := by
  decide +kernel

-- V34
theorem test_ladder : (loaded 23 5 6).ladder 5 6 = 8 ∧ ladderLoop (loaded 23 0 0).montMul 6 3 (6, 7) = (2, 10) := by
  decide +kernel

/-! ### Tester -/

-- V50, V51
theorem test_modinv : (got (exec (.modinv 2 0 1) ((blank.setX 0 30).setX 1 23))).map (·.getX 2) = some 10
    ∧ (got (exec (.modinv 2 0 1) ((blank.setX 0 65537).setX 1 3120))).map (·.getX 2) = some 2753 := by decide +kernel

theorem test_modinv_faults : (got (exec (.modinv 2 0 1) ((blank.setX 0 6).setX 1 1))).map (·.err) = some (some .badModulus)
    ∧ (got (exec (.modinv 2 0 1) ((blank.setX 0 6).setX 1 9))).map (·.err) = some (some .notCoprime) := by decide +kernel

-- V40, V41
theorem test_mrwit : (got (exec (.mrwit 0) (loaded 221 174 0))).map (·.p) = some true
    ∧ (got (exec (.mrwit 0) (loaded 221 137 0))).map (·.p) = some false
    ∧ (got (exec (.mrwit 0) (loaded 561 2 0))).map (·.p) = some false := by decide +kernel

theorem test_mrwit_range : (got (exec (.mrwit 0) (loaded 23 22 0))).map (·.err) = some (some .operandRange)
    ∧ (got (exec (.mrwit 0) (loaded 23 21 0))).map (·.p) = some true := by decide +kernel

-- V43 to V46
theorem test_isprime : (got (exec (.isprime 0 0) (blank.setX 0 3215031751))).map (fun t => (t.p, t.n))
      = some (false, 3215031751)
    ∧ (got (exec (.isprime 0 0) (blank.setX 0 37))).map (·.statusWord) = some 0x0000000E := by decide +kernel

-- V47: no draw above the bound with rounds = 0, and the even exit
theorem test_isprime_above_the_bound :
    (got (exec (.isprime 0 0) (blank.setX 0 3825123056546413051))).map (·.statusWord) = some 0x0000000E
    ∧ (got (exec (.isprime 0 0) (blank.setX 0 3825123056546413050))).map (·.statusWord) = some 0x00000002 := by
  decide +kernel

/-! ### Masking: V60, V62, V63, V67 with SHA-256, written from its standard for these tests alone -/

/-- The first 32 bits after the point of the k-th root of p, for a root below 2^5: each bit kept that leaves the k-th power of
the root, scaled by 2^32, within p. -/
def rootFraction (k p : Nat) : Nat :=
  (List.range 37).foldl (fun r t => if (r + 2 ^ (36 - t)) ^ k ≤ p * 2 ^ (32 * k) then r + 2 ^ (36 - t) else r) 0 % 2 ^ 32

/-- The primes below 312, the first 64 of them, by trial division. -/
def firstPrimes : List Nat :=
  (List.range 310).filterMap fun t => if (List.range 16).all (fun d => (t + 2) % (d + 2) ≠ 0 ∨ t = d) then some (t + 2) else none

/-- The round constants: from the cube roots of the first 64 primes. -/
def sha256Constants : List Nat := firstPrimes.map (rootFraction 3)

/-- Rotation of a 32-bit number to the right. -/
def ror32 (x n : Nat) : Nat := x / 2 ^ n + x % 2 ^ n * 2 ^ (32 - n)

/-- One round on the eight working numbers, with the message schedule's window of sixteen. -/
def sha256Round (s : List Nat × List Nat) (k : Nat) : List Nat × List Nat :=
  match s with
  | ([a, b, c, d, e, f, g, h], w) =>
    let w1 := w.getD 1 0
    let w14 := w.getD 14 0
    let sched := (w.getD 0 0 + (ror32 w1 7 ^^^ ror32 w1 18 ^^^ w1 / 8) + w.getD 9 0
      + (ror32 w14 17 ^^^ ror32 w14 19 ^^^ w14 / 1024)) % 2 ^ 32
    let t1 := h + (ror32 e 6 ^^^ ror32 e 11 ^^^ ror32 e 25) + ((e &&& f) ^^^ ((2 ^ 32 - 1 - e) &&& g)) + k + w.getD 0 0
    let t2 := (ror32 a 2 ^^^ ror32 a 13 ^^^ ror32 a 22) + ((a &&& b) ^^^ (a &&& c) ^^^ (b &&& c))
    ([(t1 + t2) % 2 ^ 32, a, b, c, (d + t1) % 2 ^ 32, e, f, g], w.drop 1 ++ [sched])
  | other => other

def sha256Blocks : (blocks : Nat) → List Byte → List Nat → List Nat
  | 0, _, v => v
  | n + 1, m, v =>
    let w := (List.range 16).map fun t => os2ip ((m.drop (4 * t)).take 4)
    let r := (sha256Constants.foldl sha256Round (v, w)).1
    sha256Blocks n (m.drop 64) (List.zipWith (fun x y => (x + y) % 2 ^ 32) v r)

def sha256 (m : List Byte) : List Byte :=
  let padded := m ++ [0x80] ++ List.replicate ((119 - m.length % 64) % 64) 0 ++ i2osp (8 * m.length) 8
  (sha256Blocks (padded.length / 64) padded ((firstPrimes.take 8).map (rootFraction 2))).flatMap
    fun x => i2osp x 4

-- V62, V60
theorem test_lhash : os2ip (sha256 []) = 0xE3B0C44298FC1C149AFBF4C8996FB92427AE41E4649B934CA495991B7852B855 := by
  decide +kernel

theorem test_mgf1 : os2ip (mgf1 sha256 [0x61, 0x62, 0x63] 40)
    = 0xCF2DB1AC9867DEBDF8CE91F99F141E5544BF26CA36B3FD4F8E4035EEC42CAB0D46C386EBCCEF82BA := by decide +kernel

-- V63: the top and the bottom of X0; V67: the padding is not checked
theorem test_oaep_encode :
    let em := oaepEncode sha256 [0x61, 0x62, 0x63] 128 ((List.range 32).map fun i => BitVec.ofNat 8 (0x20 + i))
    em.length = 128 ∧ bigWord (os2ip em) 0 = 0xDA42F615 ∧ bigWord (os2ip em) 31 = 0x00BFE4DF := by decide +kernel

theorem test_oaep_decode_ignores_the_padding :
    oaepDecode sha256 (maskBlock sha256 (sha256 [] ++ [7, 0, 0xFF] ++ List.replicate 57 0 ++ [1, 0x68, 0x69]) 128
      (List.replicate 32 0x20)) 128 = .ok [0x68, 0x69] := by decide +kernel

-- V61, V65, V66: the checks, which do not depend on the hash
theorem test_mgf1_length : (got (exec (.mgf1 9) { blank with mlen := 3 })).map (·.err) = some (some .length)
    ∧ (got (exec (.mgf1 0) { blank with mlen := 3 })).map (fun t => (t.err, t.olen)) = some (none, 0) := by decide +kernel

theorem test_oaepenc_faults : (got (exec (.oaepenc 0) (loaded 23 0 0))).map (fun t => (t.err, t.draws))
      = some (some .msgTooLong, 0)
    ∧ (got (exec (.oaepenc 0) { loaded 23 0 0 with mlen := 9 })).map (·.err) = some (some .length) := by decide +kernel

theorem test_oaepdec_format : (got (exec (.oaepdec 0) (loaded 23 0 0))).map (·.err) = some (some .oaepFormat) := by
  decide +kernel

/-! ### Window, faults, reset -/

-- V70
theorem test_window_layout :
    (got (step (facing (blank.setX 0 5) [.write 0x2004 0x01234567]))).map (·.getX 0) = some 0x0123456700000005
    ∧ (got (step (facing blank [.write 0x4004 0x64636261]))).map (·.mb)
      = some [(4, 0x61), (5, 0x62), (6, 0x63), (7, 0x64)]
    ∧ (got (step (facing blank [.read 0x0010]))).map (·.hostData) = some 0x08200040 := by decide +kernel

-- V71 steps 2 and 5
theorem test_fault_entry : (got (step (facing (pending 0x06000000 23 5 6) [.engine]))).map
      (fun t => (t.statusWord, t.ecmd, t.cmdReg)) = some (0x0000010A, 0x06000000, 0) := by decide +kernel

theorem test_fault_return : (got (step (facing ((pending 0x06000000 23 5 6).raise .illegalCmd) [.write 0x0000 2]))).map
      (fun t => (t.statusWord, t.ecmd)) = some (0x0000000A, 0) := by decide +kernel

-- V72 steps 2, 6 and 8
theorem test_overrun : (got (step (facing (pending 0x01000000 23 23 0) [.write 0x2000 7]))).map
      (fun t => (t.statusWord, t.getX 0)) = some (0x00000019, 23) := by decide +kernel

theorem test_ctrl : (got (step (facing { blank with done := true, ie := true } [.write 0x0000 5]))).map
      (fun t => (t.statusWord, t.ie, t.irq)) = some (0, true, false) := by decide +kernel

-- V73
theorem test_soft_reset : (got (step (facing { pending 0x01000000 23 23 5 with cp := 7 } [.write 0x0000 0x80000001])))
      = some { blank with cp := 7 } := by decide +kernel

-- V74
theorem test_reset_through_the_window : ∀ off ∈ [0x0000, 0x0004, 0x0008, 0x000C, 0x0014, 0x0018, 0x001C, 0x1000, 0x1400,
      0x2000, 0x3CFC, 0x4000, 0x44FC, 0x4800, 0x7FFC],
    (got (step (facing State.reset [.read off]))).map (·.hostData) = some 0 := by decide +kernel

-- R291: a fault short of the end of the list leaves the run unfinished, the completed last command ends it
theorem test_run_over : ¬ State.runOver { (pending 0x06000000 23 5 6).raise .illegalCmd with cp := 1 } [0x06000000, 0]
    ∧ ¬ State.runOver { pending 0 23 5 6 with cp := 1 } [0]
    ∧ State.endedWell { (pending 0 23 5 6).complete with cp := 1 } [0] := by decide +kernel

/-! ### The software around the block -/

/-- The answer of a software procedure, if it succeeded. -/
def made {ε α : Type} (r : Except ε α) : Option α :=
  match r with
  | .ok a => some a
  | .error _ => none

/-- The error of a software procedure, if it failed. -/
def failed {ε α : Type} (r : Except ε α) : Option ε :=
  match r with
  | .ok _ => none
  | .error e => some e

-- R166 and V42, V43: the tester on small candidates
theorem test_isPrimeTest : ([2, 3, 5, 37, 9973].all (isPrimeTest fun _ => [])) = true
    ∧ ([0, 1, 4, 9, 561, 9999].any (isPrimeTest fun _ => [])) = false := by decide +kernel

-- R223 and R205: the rejections; V51: d = 2753 for the primes 61 and 53
theorem test_rsa_generate : failed (rsaGenerate (isPrimeTest fun _ => []) [] [] 2048 (some 4) (some 9)) = some .notPrime
    ∧ failed (rsaGenerate (isPrimeTest fun _ => []) [] [] 12 (some 61) (some 61)) = some .nonDistinctPrimes
    ∧ failed (rsaGenerate (isPrimeTest fun _ => []) [] [] 12 (some 61)) = some .parameterCoexistence
    ∧ failed (rsaGenerate (isPrimeTest fun _ => []) [] [] 2047) = some .keyTooShort
    ∧ made (rsaGenerate (isPrimeTest fun _ => []) [] [] 12 (some 61) (some 53)) = some (⟨65537, 3233⟩, ⟨2753, 3233⟩) := by
  decide +kernel

-- R206: the generated primes; R204: a Generation Timeout is fatal, the retries are not
theorem test_rsa_auto : failed (rsaGenerate (fun _ => false) [] [([0], [0])]) = some .generationTimeout
    ∧ failed (rsaGenerate (fun _ => true) [] [([0], [0])]) = some .keyGenerationFailed := by decide +kernel

-- R223 and R208 with the toy group of V1: p = 23, g = 5, x = 6, h = 8
theorem test_elgamal_generate :
    made (elGamalGenerate (isPrimeTest fun _ => []) [] [] 5 (some 23) (some 5) (some 6)) = some (⟨23, 5, 8⟩, ⟨6, 23⟩)
    ∧ failed (elGamalGenerate (isPrimeTest fun _ => []) [] [] 5 (some 23) (some 5)) = some .parameterCoexistence
    ∧ failed (elGamalGenerate (isPrimeTest fun _ => []) [] [] 5 (some 23) (some 5) (some 1)) = some .keyOutOfRange
    ∧ failed (elGamalGenerate (isPrimeTest fun _ => []) [] [] 5 (some 23) (some 5) (some 22)) = some .keyOutOfRange := by
  decide +kernel

-- C4: the leading zero byte of a plaintext is lost; C5: the ciphertext of 0 is refused
theorem test_elgamal_zeros : elGamalEncrypt ⟨23, 5, 8⟩ [0, 15] 1 = .ok (10, 21)
    ∧ made (elGamalDecrypt (some ⟨6, 23⟩) 10 21) = some [15]
    ∧ elGamalEncrypt ⟨23, 5, 8⟩ [] 1 = .ok (10, 0)
    ∧ failed (elGamalDecrypt (some ⟨6, 23⟩) 10 0) = some .invalidCiphertext := by decide +kernel

-- 48_host_procedures R214, R215 with the numbers of V1: the toy group, the draw 1 being the ephemeral 3
theorem test_elgamal : elGamalEncrypt ⟨23, 5, 8⟩ [15] 1 = .ok (10, 21)
    ∧ elGamalDecryptInt (some ⟨6, 23⟩) 10 21 = .ok 15 := by decide +kernel

/-! ### Witnesses: a state and operands that meet the hypotheses of each statement -/

/-- A state with empty buffers meets the invariant when its decidable part holds. -/
theorem inv_of (s : State) (hm : s.mb = []) (ho : s.ob = [])
    (h : legalWidth s.nbits ∧ (∀ i : Reg, s.getX i < 2 ^ s.nbits) ∧ s.modulusOk ∧ s.olen.toNat ≤ s.bufMax
      ∧ (s.busy = true → s.err = none) ∧ (s.busy = true → s.done = false) ∧ (s.err = none → s.ecmd = 0)
      ∧ (s.busy = false → s.cmdReg = 0)) : s.Inv where
  width := h.1
  bigRegs := h.2.1
  modulus := h.2.2.1
  msgBuffer := by rw [hm]; exact ⟨Memory.wf_nil, by simp⟩
  outBuffer := by rw [ho]; exact ⟨Memory.wf_nil, by simp⟩
  outLen := h.2.2.2.1
  outTail := fun i _ => by rw [ho]; rfl
  busyNoErr := h.2.2.2.2.1
  busyNotDone := h.2.2.2.2.2.1
  errRecord := h.2.2.2.2.2.2.1
  idleLatch := h.2.2.2.2.2.2.2

theorem inv_blank : blank.Inv := inv_of _ rfl rfl (by decide +kernel)

/-- Word 1 exists for NBITS = 64. -/
theorem one_lt_nw : 1 < blank.nw := by decide +kernel

theorem inv_loaded : (loaded 23 22 22).Inv := inv_of _ rfl rfl (by decide +kernel)

theorem test_witness_DecodeOfEncodeIsTheCommand : (Instr.ldi 7 1048575).wellFormed = true
    ∧ (Instr.isprime 7 4095).wellFormed = true ∧ (Instr.mgf1 4095).wellFormed = true := by decide

theorem test_witness_EncodeOfDecodeIsTheWord : decode 0x13777000 = .ok (.modexp 7 7 7) := by decide +kernel

theorem test_witness_CommandsAreTheRowsOfTheOpcodeMap : decode 0x057FFFFF = .ok (.ldi 7 1048575)
    ∧ ((0x05000000, 0xFF800000) ∈ opcodeMap ∧ (0x057FFFFF : Word) &&& 0xFF800000 = 0x05000000)
    ∧ ((0x00000000, 0xFFFFFFFF) ∈ opcodeMap ∧ (0x00000000 : Word) &&& 0xFFFFFFFF = 0x00000000) := by decide +kernel

theorem test_witness_IllegalWordFaultsAndChangesNothingElse :
    let s := facing (pending 0x01080000 23 5 6) [.engine]
    s.busy = true ∧ s.events = .engine :: [] ∧ ∀ row ∈ opcodeMap, s.cmdReg &&& row.2 ≠ row.1 := by
  have h : opcodeMap.all (fun row => decide ((0x01080000 : Word) &&& row.2 ≠ row.1)) = true := by decide +kernel
  exact ⟨rfl, rfl, fun row hr => of_decide_eq_true (List.all_eq_true.1 h row hr)⟩

theorem test_witness_StepRunsTheDecodedCommand : ∀ es ∈ [[Event.engine], []],
    let s := facing (pending 0x11201000 23 5 6) es
    s.busy = true ∧ decode s.cmdReg = .ok (.modmul 2 0 1) ∧ s.events = es := by decide +kernel

theorem test_witness_EngineActsExactlyWhenBusy :
    (facing blank [.engine]).events = .engine :: [] ∧ (facing blank [.engine]).busy = false
    ∧ (facing (pending 0 23 5 6) [.engine]).events = .engine :: [] ∧ (facing (pending 0 23 5 6) [.engine]).busy = true := by
  decide +kernel

theorem test_witness_OnlyTheNamedCommandsWriteEachRegister : ∃ t, exec (.mov 5 3) blank = .next t
    ∧ Instr.mov 5 3 ≠ .wipe ∧ destination (.mov 5 3) ≠ some 3 ∧ (∀ ra, Instr.mov 5 3 ≠ .setmod ra)
    ∧ (∀ ra k, Instr.mov 5 3 ≠ .isprime ra k) ∧ (∀ ra, Instr.mov 5 3 ≠ .mrwit ra) ∧ (∀ k, Instr.mov 5 3 ≠ .mgf1 k)
    ∧ (∀ ra, Instr.mov 5 3 ≠ .oaepdec ra) := ⟨_, rfl, by simp [destination]⟩

theorem test_witness_InterruptFollowsEveryCompletion : exec .nop blank = .next blank.complete := rfl

theorem test_witness_SetmodLoadsTheModulus : 3 ≤ (loaded 23 3 0).getX 0 ∧ (loaded 23 3 0).getX 0 % 2 = 1 := by
  decide +kernel

theorem test_witness_SetmodRefusesABadModulus : (loaded 23 1 24).getX 0 < 3 ∧ (loaded 23 1 24).getX 1 % 2 = 0 := by
  decide +kernel

theorem test_witness_MovClrLdiWriteOneRegister : 1048575 < 2 ^ 20 := by decide

theorem test_witness_NoModulusFaults : blank.modv = false
    ∧ Instr.oaepdec 1 ∈ [Instr.montmul 0 1 2, .modmul 0 1 2, .modsqr 0 1, .modexp 0 1 2, .mrwit 1, .oaepenc 0, .oaepdec 1] := by
  decide +kernel

theorem test_witness_OperandAtOrAboveTheModulusFaults :
    (loaded 23 23 0).modv = true ∧ (loaded 23 23 0).n ≤ (loaded 23 23 0).getX 0
    ∧ (loaded 23 22 23).modv = true ∧ (loaded 23 22 23).n ≤ (loaded 23 22 23).getX 1 := by decide +kernel

theorem test_witness_ModmulAndModsqrWriteTheProduct :
    let s := loaded 23 22 22
    s.modv = true ∧ s.getX 0 < s.n ∧ s.getX 1 < s.n ∧ 3 ≤ s.n ∧ s.getX 0 = s.n - 1 := by decide +kernel

theorem test_witness_ModexpWritesThePower :
    let s := loaded 3 2 0
    s.modv = true ∧ s.getX 0 < s.n ∧ 3 ≤ s.n ∧ s.getX 1 = 0 := by decide +kernel

-- V30: RINV = 4
theorem test_witness_MontgomeryMultiplierMeetsItsLaw :
    let s := loaded 23 22 22
    s.Inv ∧ s.modv = true ∧ 22 < s.n ∧ 22 < s.n ∧ 4 * 2 ^ s.nbits % s.n = 1 := ⟨inv_loaded, by decide +kernel⟩

theorem test_witness_MontmulWritesTheMontgomeryProduct :
    let s := loaded 23 22 22
    s.Inv ∧ s.modv = true ∧ s.getX 0 < s.n ∧ s.getX 1 < s.n := ⟨inv_loaded, by decide +kernel⟩

theorem test_witness_LadderComputesThePower :
    let s := loaded 23 22 22
    s.Inv ∧ s.modv = true ∧ 22 < s.n ∧ 2 ^ 64 - 1 < 2 ^ s.nbits := ⟨inv_loaded, by decide +kernel⟩

theorem test_witness_ModinvWritesTheInverse :
    let s := loaded 23 3 2
    2 ≤ s.getX 1 ∧ Nat.gcd (s.getX 0) (s.getX 1) = 1 := by decide +kernel

theorem test_witness_ModinvFaultsWithoutAnInverse : (loaded 23 3 1).getX 1 < 2
    ∧ 2 ≤ (loaded 23 2 2).getX 1 ∧ Nat.gcd ((loaded 23 2 2).getX 0) ((loaded 23 2 2).getX 1) ≠ 1 := by decide +kernel

theorem test_witness_EuclidEndsWithinItsBound :
    (2 ≤ 2 ∧ 1 < 2 ∧ 2 < 2 ^ blank.nbits ∧ Nat.gcd 1 2 = 1)
    ∧ (2 ≤ 2 ^ 64 - 1 ∧ 2 ^ 64 - 4 < 2 ^ 64 - 1 ∧ 2 ^ 64 - 1 < 2 ^ blank.nbits ∧ Nat.gcd (2 ^ 64 - 4) (2 ^ 64 - 1) ≠ 1) := by
  decide +kernel

theorem test_witness_MrwitSetsTheVerdictOfTheRound :
    let s := loaded 23 2 21
    s.modv = true ∧ s.n % 2 = 1 ∧ 2 ≤ s.getX 0 ∧ s.getX 0 + 2 ≤ s.n ∧ 2 ≤ s.getX 1 ∧ s.getX 1 + 2 ≤ s.n := by decide +kernel

theorem test_witness_MrwitRefusesAWitnessOutOfRange :
    let s := loaded 23 1 22
    s.modv = true ∧ s.getX 0 < 2 ∧ s.n < s.getX 1 + 2 ∧ (loaded 3 2 0).modv = true ∧ (loaded 3 2 0).n = 3 := by decide +kernel

theorem test_witness_RoundDatapathGivesTheVerdict :
    let s := loaded 23 22 22
    s.Inv ∧ s.modv = true ∧ 22 < s.n := ⟨inv_loaded, by decide +kernel⟩

-- V40: 9 fails with witness 2, at both ends of the range
theorem test_witness_FailedVerdictProvesComposite :
    (9 % 2 = 1 ∧ 5 ≤ 9 ∧ 2 ≤ 2 ∧ 2 ≤ 9 - 2 ∧ ¬ roundPasses 9 2) ∧ (2 ≤ 7 ∧ 7 ≤ 9 - 2 ∧ ¬ roundPasses 9 7)
    ∧ (∃ t, exec (.mrwit 0) (loaded 9 2 9) = .next t ∧ (decide (t.err = none) && decide (t.p = false)) = true)
    ∧ ∃ t, exec (.isprime 1 0) (loaded 9 2 9) = .next t ∧ decide (t.p = false) = true :=
  ⟨⟨rfl, by decide, by decide, by decide, fun h => absurd ((mrRound_iff_roundPasses 9 2 (by decide) rfl).2 h) (by decide +kernel)⟩,
    ⟨by decide, by decide, fun h => absurd ((mrRound_iff_roundPasses 9 7 (by decide) rfl).2 h) (by decide +kernel)⟩,
    next_of_got _ _ (by decide +kernel), next_of_got _ _ (by decide +kernel)⟩

theorem test_witness_IsprimeDecidesTheTrivialCandidates : (loaded 23 1 2).getX 0 ≤ 1
    ∧ 2 ≤ (loaded 23 1 2).getX 1 ∧ (loaded 23 1 2).getX 1 ≤ 3 ∧ 2 ≤ (loaded 23 3 4).getX 0 ∧ (loaded 23 3 4).getX 0 ≤ 3
    ∧ 3 < (loaded 23 3 4).getX 1 ∧ (loaded 23 3 4).getX 1 % 2 = 0 := by decide +kernel

theorem test_witness_IsprimeBelowTheBoundUsesTheFixedWitnesses : ∀ n ∈ [5, 3825123056546413049],
    5 ≤ (loaded 23 n 0).getX 0 ∧ (loaded 23 n 0).getX 0 % 2 = 1 ∧ (loaded 23 n 0).getX 0 < 3825123056546413051 := by
  decide +kernel

theorem test_witness_IsprimeAboveTheBoundUsesDrawnWitnesses :
    let s := loaded 23 3825123056546413051 0
    s.getX 0 % 2 = 1 ∧ 3825123056546413051 ≤ s.getX 0 := by decide +kernel

theorem test_witness_Mgf1FillsTheOutputBuffer :
    let s := { blank with mlen := 8 }
    legalWidth s.nbits ∧ s.mlen.toNat ≤ s.bufMax ∧ 8 ≤ s.bufMax := by decide +kernel

theorem test_witness_Mgf1RefusesALengthBeyondTheBuffer :
    let s := { blank with mlen := 9 }
    s.bufMax < s.mlen.toNat ∧ blank.bufMax < 9 := by decide +kernel

theorem test_witness_MaskLoopComputesTheMask : (∀ x : List Byte, ((fun _ => List.replicate 32 0) x : List Byte).length = 32)
    ∧ 32 ≤ 33 := ⟨fun _ => rfl, by decide⟩

/-- NBITS = 1024 under a modulus of 521 bits, so K = 66 and only the empty message fits (V65). -/
def oaepState : State := ({ State.reset with nbits := 1024 }).loadModulus (2 ^ 520 + 1)

theorem inv_oaepState : oaepState.Inv := inv_of _ rfl rfl (by decide +kernel)

/-- `oaepState` with the integer of a masked data block of 33 bytes in X0. -/
def encodedState (db : List Byte) : State :=
  oaepState.setX 0 (os2ip (maskBlock Config.H db 66 (List.replicate 32 0)))

theorem length_masked (db : List Byte) (h : db.length = 33) :
    (maskBlock Config.H db 66 (List.replicate 32 0)).length = 66 :=
  length_maskBlock Config.H length_H db 66 _ (by decide) h (by simp)

theorem encodedState_k (db : List Byte) : (encodedState db).k = 66 := by
  show oaepState.k = 66
  decide +kernel

theorem encodedState_modv (db : List Byte) : (encodedState db).modv = true := by
  show oaepState.modv = true
  decide +kernel

theorem encodedState_fits (db : List Byte) (h : db.length = 33) : (encodedState db).getX 0 < 256 ^ (encodedState db).k := by
  have hk := encodedState_k db
  have := os2ip_lt (maskBlock Config.H db 66 (List.replicate 32 0))
  rw [length_masked db h] at this
  rw [hk]
  simpa [encodedState] using this

theorem encodedState_recovers (db : List Byte) (h : db.length = 33) :
    db = recoverDB Config.H (i2osp ((encodedState db).getX 0) (encodedState db).k) (encodedState db).k := by
  have hk := encodedState_k db
  have hi := i2osp_os2ip (maskBlock Config.H db 66 (List.replicate 32 0))
  rw [length_masked db h] at hi
  rw [hk]
  simp only [encodedState, State.getX_setX_self]
  rw [hi, recoverDB_maskBlock Config.H length_H db 66 _ h (by simp)]

theorem inv_encodedState (db : List Byte) (h : db.length = 33) : (encodedState db).Inv := by
  refine inv_oaepState.setX 0 _ ?_
  have := os2ip_lt (maskBlock Config.H db 66 (List.replicate 32 0))
  rw [length_masked db h] at this
  exact lt_trans this (by decide +kernel)

theorem test_witness_OaepencWritesTheEncodedMessage :
    oaepState.Inv ∧ oaepState.modv = true ∧ oaepState.mlen.toNat ≤ oaepState.bufMax
    ∧ oaepState.mlen.toNat + 66 ≤ oaepState.k := ⟨inv_oaepState, by decide +kernel⟩

theorem test_witness_OaepencRefusesAnUnfitMessage :
    let s := { oaepState with mlen := 129 }
    let u := { oaepState with mlen := 1 }
    s.modv = true ∧ s.bufMax < s.mlen.toNat ∧ u.modv = true ∧ u.mlen.toNat ≤ u.bufMax ∧ u.k < u.mlen.toNat + 66 := by
  decide +kernel

theorem test_witness_OaepdecWritesTheRecoveredMessage :
    let db := Config.H [] ++ [1]
    let s := encodedState db
    s.Inv ∧ s.modv = true ∧ 66 ≤ s.k ∧ s.getX 0 < 256 ^ s.k ∧ db = recoverDB Config.H (i2osp (s.getX 0) s.k) s.k
    ∧ db.take 32 = Config.H [] ∧ 32 ≤ 32 ∧ 32 < s.k - 33 ∧ db.getD 32 0 = 1 ∧ ∀ j, 32 ≤ j → j < 32 → db.getD j 0 ≠ 1 := by
  have hl : (Config.H [] ++ [1]).length = 33 := by simp
  have hk := encodedState_k (Config.H [] ++ [1])
  refine ⟨inv_encodedState _ hl, encodedState_modv _, hk.ge, encodedState_fits _ hl, encodedState_recovers _ hl, ?_,
    by decide, by rw [hk]; decide, ?_, ?_⟩
  · rw [List.take_left' (length_H [])]
  · rw [List.getD_append_right _ _ _ _ (by simp)]; simp
  · intro j h1 h2; omega

theorem test_witness_OaepdecFaultsInOrder :
    ((loaded 23 0 0).modv = true ∧ (loaded 23 0 0).k < 66)
    ∧ ((oaepState.setX 0 (256 ^ 66)).modv = true ∧ 256 ^ (oaepState.setX 0 (256 ^ 66)).k ≤ (oaepState.setX 0 (256 ^ 66)).getX 0)
    ∧ (let db := (Config.H []).map (· ^^^ 1) ++ [1]
       let s := encodedState db
       s.modv = true ∧ db = recoverDB Config.H (i2osp (s.getX 0) s.k) s.k ∧ 66 ≤ s.k ∧ s.getX 0 < 256 ^ s.k
       ∧ db.take 32 ≠ Config.H [])
    ∧ (let db := Config.H [] ++ [0]
       let s := encodedState db
       s.modv = true ∧ db = recoverDB Config.H (i2osp (s.getX 0) s.k) s.k ∧ 66 ≤ s.k ∧ s.getX 0 < 256 ^ s.k
       ∧ db.take 32 = Config.H [] ∧ ∀ j, 32 ≤ j → j < s.k - 33 → db.getD j 0 ≠ 1) := by
  have hk := encodedState_k
  have hl1 : ((Config.H []).map (· ^^^ 1) ++ [1]).length = 33 := by simp
  have hl2 : (Config.H [] ++ [0]).length = 33 := by simp
  refine ⟨by decide +kernel, by decide +kernel,
    ⟨encodedState_modv _, encodedState_recovers _ hl1, (hk _).ge, encodedState_fits _ hl1, fun h => ?_⟩,
    ⟨encodedState_modv _, encodedState_recovers _ hl2, (hk _).ge, encodedState_fits _ hl2, List.take_left' (length_H []), fun j h1 h2 => ?_⟩⟩
  · have ht : ((Config.H []).map (· ^^^ 1) ++ [1]).take 32 = (Config.H []).map (· ^^^ 1) := List.take_left' (by simp)
    rw [ht] at h
    cases hH : Config.H [] with
    | nil => have := length_H []; rw [hH] at this; cases this
    | cons b rest =>
      rw [hH, List.map_cons, List.cons.injEq] at h
      have hb : ∀ b : Byte, b ^^^ 1 ≠ b := by decide +kernel
      exact hb b h.1
  · rw [hk] at h2
    have : j = 32 := by omega
    subst this
    rw [List.getD_append_right _ _ _ _ (by simp)]
    simp

theorem test_witness_OaepRoundTripGivesTheMessageBack :
    oaepState.Inv ∧ oaepState.modv = true ∧ oaepState.mlen.toNat ≤ oaepState.bufMax
    ∧ oaepState.mlen.toNat + 66 ≤ oaepState.k
    ∧ ∃ t : State, ∃ u : State, exec (.oaepenc 0) oaepState = .next t ∧ u.Inv ∧ u.modv = true ∧ u.n = oaepState.n ∧ u.getX 0 = t.getX 0 := by
  have hk : oaepState.modv = true ∧ oaepState.mlen.toNat ≤ oaepState.bufMax ∧ oaepState.mlen.toNat + 66 ≤ oaepState.k := by
    decide +kernel
  have hf : oaepencFault oaepState = none := by decide +kernel
  refine ⟨inv_oaepState, hk.1, hk.2.1, hk.2.2, _,
    oaepState.setX 0 (os2ip (oaepEncode Config.H oaepState.message oaepState.k (rngBytes32 oaepState.draws))),
    by simp only [exec, execOaepenc, hf, commit]; rfl, ?_, by rw [State.setX_modv]; exact hk.1, by rw [State.setX_n],
    by rw [State.complete_getX, State.getX_setX_self, State.getX_setX_self]⟩
  refine inv_oaepState.setX 0 _ ?_
  have hl := length_oaepEncode Config.H length_H oaepState.message oaepState.k (rngBytes32 oaepState.draws)
    (by simpa [State.message] using hk.2.2) (by simp [rngBytes32])
  have := os2ip_lt (oaepEncode Config.H oaepState.message oaepState.k (rngBytes32 oaepState.draws))
  rw [hl] at this
  exact lt_trans this (by decide +kernel)

theorem test_witness_HostWritesOneWordOfARegister :
    let s := facing (loaded 23 22 22) [.write (0x2000 + 0x400 * (7 : Reg) + 4 * 1) 5]
    s.Inv ∧ s.busy = false ∧ 1 < s.nw ∧ s.events = .write (0x2000 + 0x400 * (7 : Reg) + 4 * 1) 5 :: [] :=
  ⟨inv_loaded.withEvents _, by decide +kernel⟩

theorem test_witness_HostWritesTheMessageBuffer :
    (let s := facing blank [.write (0x4000 + 4 * 1) 5]
     s.Inv ∧ s.busy = false ∧ 1 < s.nw ∧ s.events = .write (0x4000 + 4 * 1) 5 :: [])
    ∧ (let s := facing blank [.write 0x0014 5]
       s.Inv ∧ s.busy = false ∧ s.events = .write 0x0014 5 :: []) :=
  ⟨⟨inv_blank.withEvents _, by decide +kernel⟩, ⟨inv_blank.withEvents _, by decide +kernel⟩⟩

theorem test_witness_HostReadsTheDataWords :
    ∀ off ∈ [0x1000 + 4 * 1, 0x2000 + 0x400 * (7 : Reg) + 4 * 1, 0x4000 + 4 * 1, 0x4400 + 4 * 1],
    let s := facing blank [.read off]
    s.Inv ∧ s.busy = false ∧ 1 < s.nw ∧ s.events = .read off :: [] :=
  fun _ _ => ⟨inv_blank.withEvents _, rfl, one_lt_nw, rfl⟩

theorem test_witness_StatusWordShowsTheFlags : (facing blank [.read 0x0004]).events = .read 0x0004 :: [] := rfl

theorem test_witness_ControlRegistersRead : ∀ off ∈ [0x0000, 0x0008, 0x000C, 0x0010, 0x0014, 0x0018],
    let s := facing blank [.read off]
    legalWidth s.nbits ∧ s.busy = false ∧ s.events = .read off :: [] := by decide +kernel

theorem test_witness_ReadsChangeNoState :
    let s := facing blank [.read 0x7FFC]
    s.events = .read 0x7FFC :: [] ∧ 0x7FFC % 4 = 0 ∧ 0x7FFC ≤ 0x7FFC ∧ s.busy = false := by decide +kernel

theorem test_witness_ReservedOffsetsReadZeroAndIgnoreWrites :
    ∀ off ∈ [0x001C, 0x0FFC, 0x1400, 0x1FFC, 0x4800, 0x7FFC, 0x1008, 0x3FFC],
    off % 4 = 0 ∧ off ≤ 0x7FFC
    ∧ ((0x001C ≤ off ∧ off ≤ 0x0FFF) ∨ (0x1400 ≤ off ∧ off ≤ 0x1FFF) ∨ 0x4800 ≤ off
      ∨ (0x1000 ≤ off ∧ 4 * blank.nw ≤ off % 0x400))
    ∧ (facing blank [.write off 1]).events = .write off 1 :: [] ∧ (facing blank [.read off]).events = .read off :: [] := by
  decide +kernel

theorem test_witness_ReadOnlyOffsetsIgnoreWrites :
    ∀ off ∈ [0x0004, 0x000C, 0x0010, 0x0018, 0x1000 + 4 * 1, 0x4400 + 4 * 1],
    let s := facing blank [.write off 1]
    s.Inv ∧ 1 < s.nw ∧ s.events = .write off 1 :: [] :=
  fun _ _ => ⟨inv_blank.withEvents _, one_lt_nw, rfl⟩

theorem inv_pending : (pending 0x11201000 23 5 6).Inv := inv_of _ rfl rfl (by decide +kernel)

theorem test_witness_BusyEngineRefusesWrites :
    ∀ off ∈ [0x0008, 0x0014, 0x2000 + 0x400 * (7 : Reg).val + 4 * 1, 0x4000 + 4 * 1],
    let s := facing (pending 0x11201000 23 5 6) [.write off 1]
    s.Inv ∧ s.busy = true ∧ 1 < s.nw ∧ s.events = .write off 1 :: [] :=
  fun _ _ => ⟨inv_pending.withEvents _, rfl, one_lt_nw, rfl⟩

/-- A state with a fault pending. -/
def faulted (es : List Event) : State := facing ((pending 0x06000000 23 5 6).raise .illegalCmd) es

theorem test_witness_CmdWriteIsAcceptedOrRefused : ∀ w ∈ [Event.write 0x0008 5],
    ((facing blank [w]).events = w :: [] ∧ (facing blank [w]).busy = false ∧ (facing blank [w]).err = none)
    ∧ ((facing (pending 0 23 5 6) [w]).events = w :: [] ∧ (facing (pending 0 23 5 6) [w]).busy = true)
    ∧ ((faulted [w]).events = w :: [] ∧ (faulted [w]).err ≠ none)
    ∧ (got (step (facing blank [w]))).isSome = true := by decide +kernel

theorem test_witness_CtrlWriteSetsAndAcknowledges :
    (facing blank [.write 0x0000 0x7FFFFFFF]).events = .write 0x0000 0x7FFFFFFF :: []
    ∧ (0x7FFFFFFF : Word).getLsbD 31 = false := by decide +kernel

theorem test_witness_AcknowledgementEndsAPendingFault :
    let es : List Event := [.write 0x0008 0, .write 0x0000 2, .write 0x0008 1]
    (faulted es).Inv ∧ (faulted es).err ≠ none ∧ (2 : Word).getLsbD 31 = false ∧ (2 : Word).getLsbD 1 = true
    ∧ (faulted es).events = .write 0x0008 0 :: .write 0x0000 2 :: .write 0x0008 1 :: [] :=
  ⟨inv_of _ rfl rfl (by decide +kernel), by decide +kernel⟩

theorem test_witness_PortCannotCarryOtherAccesses : ∀ off ∈ [0x0001, 0x7FFD, 0x8000],
    (off % 4 ≠ 0 ∨ 0x7FFC < off)
    ∧ (facing blank [.write off 5]).events = .write off 5 :: [] ∧ (facing blank [.read off]).events = .read off :: [] := by
  decide +kernel

/-- 3 and the Mersenne prime 2^521 − 1: an RSA modulus of 523 bits, so K = 66. -/
theorem prime_521 : (2 ^ 521 - 1).Prime := lucas_lehmer_sufficiency 521 (by norm_num) (by norm_num)

def rsaD : Nat := (euclidInverse (rsaExponent + 1) rsaExponent (2 * (2 ^ 521 - 2))).getD 0

/-- A tester that accepts 11, 13 and 23 alone. -/
def onlyThree (c : Nat) : Bool := c == 11 || c == 13 || c == 23

theorem onlyThree_prime (c : Nat) (h : onlyThree c = true) : c.Prime := by
  simp only [onlyThree, Bool.or_eq_true, beq_iff_eq] at h
  rcases h with (rfl | rfl) | rfl <;> norm_num

theorem test_witness_RsaGenerationAndDecryptionKeepTheirContract :
    (∀ x : List Byte, ((fun _ => List.replicate 32 0) x : List Byte).length = 32)
    ∧ (RsaPublicKey.mk 65537 (3 * (2 ^ 521 - 1))).ok 3 (2 ^ 521 - 1)
    ∧ (RsaPrivateKey.mk rsaD (3 * (2 ^ 521 - 1))).ok 3 (2 ^ 521 - 1)
    ∧ (List.replicate 32 0 : List Byte).length = 32
    ∧ ([] : List Byte).length + 66 ≤ byteLen (bitlen (3 * (2 ^ 521 - 1)))
    ∧ (onlyThree 4 = false ∧ onlyThree 11 = true)
    ∧ ((∀ c, onlyThree c = true → c.Prime) ∧ (made (rsaGenerate onlyThree [] [] 8 (some 11) (some 13))).isSome = true)
    ∧ (made (rsaGenerate (fun _ => true) [] [([2 ^ 1024 - 1], [2 ^ 1024 - 3])] 2048 none none)).isSome = true
    ∧ (Nat.Prime 11 ∧ Nat.Prime 13 ∧ 11 ≠ 13 ∧ bitlen 11 = 4 ∧ bitlen 13 = 4 ∧ Nat.gcd 65537 ((11 - 1) * (13 - 1)) = 1
      ∧ ∀ n : Nat, ∀ a ∈ (fun _ => [] : Nat → List Nat) n, 2 ≤ a ∧ a ≤ n - 2) :=
  ⟨fun _ => rfl, ⟨Nat.prime_three, prime_521, by decide +kernel⟩, by decide +kernel, rfl, by decide +kernel, by decide,
    ⟨onlyThree_prime, by decide +kernel⟩, by decide +kernel,
    ⟨by norm_num, by norm_num, by decide, by decide +kernel, by decide +kernel, by decide +kernel, by simp⟩⟩

-- the draws 0 and 19 are the ends 2 and 21 of the ephemeral's range
theorem test_witness_ElGamalGenerationAndDecryptionKeepTheirContract :
    (elGamalOk ⟨23, 5, 8⟩ ⟨6, 23⟩ ∧ 5 % 23 ≠ 0 ∧ 0 < os2ip [1] ∧ os2ip [22] < 23 ∧ 0 < os2ip [22]
      ∧ ephemeral 23 0 = 2 ∧ ephemeral 23 19 = 21)
    ∧ (elGamalOk ⟨23, 23, 0⟩ ⟨6, 23⟩ ∧ 23 % 23 = 0 ∧ os2ip [] = 0)
    ∧ (((some 23).isSome || (none : Option Nat).isSome || (none : Option Nat).isSome) = true
      ∧ ((some 23).isSome && (none : Option Nat).isSome && (none : Option Nat).isSome) = false)
    ∧ (onlyThree 4 = false ∧ onlyThree 11 = true ∧ onlyThree ((11 - 1) / 2) = false ∧ onlyThree 23 = true
      ∧ onlyThree ((23 - 1) / 2) = true ∧ isGenerator 23 1 = false ∧ isGenerator 23 5 = true ∧ 1 ≤ 1 ∧ 23 - 1 ≤ 22)
    ∧ (∀ c, onlyThree c = true → c.Prime)
    ∧ (made (elGamalGenerate onlyThree [] [] 5 (some 23) (some 5) (some 2))).isSome = true
    ∧ (made (elGamalGenerate onlyThree [] [⟨[[3]], [3], 4⟩] 5 none none none)).isSome = true :=
  ⟨⟨⟨by norm_num, by norm_num, by decide +kernel⟩, by decide +kernel⟩,
    ⟨⟨by norm_num, by norm_num, by decide +kernel⟩, by decide +kernel⟩, by decide, by decide +kernel, onlyThree_prime,
    by decide +kernel, by decide +kernel⟩

theorem test_witness_ResetLeavesEveryPieceOfStateZero : (0x80000000 : Word).getLsbD 31 = true
    ∧ (facing (pending 0 23 5 6) [.hwReset]).events = .hwReset :: []
    ∧ (facing (pending 0 23 5 6) [.write 0x0000 0x80000000]).events = .write 0x0000 0x80000000 :: [] := by decide +kernel

theorem test_witness_BothResetsGiveTheResetState : (0xFFFFFFFF : Word).getLsbD 31 = true
    ∧ (facing (faulted []) [.hwReset]).events = .hwReset :: []
    ∧ (facing (faulted []) [.write 0x0000 0xFFFFFFFF]).events = .write 0x0000 0xFFFFFFFF :: [] := by decide +kernel

theorem test_witness_EveryStepKeepsTheInvariant : blank.Inv ∧ step blank = .next blank := ⟨inv_blank, rfl⟩

end Sys2Proof.Tests
end

section
/-! PROOFS. The state (spec/10_state.md): the interrupt at the end of a command (R36), and reset (R38). -/

namespace Sys2Proof.Machine

/-! ### How a command ends

Every command ends in one step, completed or by taking a fault (40_setup_move R120, 60_exceptions R244). -/

/-- `t` is an end of a command that began at `s`: a completion without a fault, or a taken fault. -/
def commandEnd (s t : State) : Prop := completedFrom s t ∨ ∃ e, t = s.raise e

theorem commandEnd_raise (s : State) (e : ErrCode) : commandEnd s (s.raise e) := .inr ⟨e, rfl⟩

theorem commandEnd_complete (s : State) : commandEnd s s.complete := .inl (completedFrom_complete s)

theorem commandEnd_setX_complete (s : State) (rd : Reg) (v : Nat) : commandEnd s (s.setX rd v).complete :=
  .inl (completedFrom_complete (s.setX rd v))

theorem commandEnd_setVerdict_complete (s : State) (b : Bool) : commandEnd s (s.setVerdict b).complete :=
  .inl (completedFrom_complete (s.setVerdict b))

theorem commandEnd_setOutput_complete (s : State) (bytes : List Byte) : commandEnd s (s.setOutput bytes).complete :=
  .inl (completedFrom_complete (s.setOutput bytes))

/-- A checked command ends when its effect, completed, is an end. -/
theorem commandEnd_commit (s effect : State) (fault : Option ErrCode) (h : commandEnd s effect.complete) :
    commandEnd s (commit s fault effect) := by
  obtain ⟨e, -, hc⟩ | ⟨-, hc⟩ := commit_cases s effect fault <;> rw [hc]
  · exact commandEnd_raise s e
  · exact h

theorem execModinv_commandEnd (rd ra rb : Reg) (s : State) : ∃ t, execModinv rd ra rb s = .next t ∧ commandEnd s t := by
  unfold execModinv
  cases modInverse (s.getX ra) (s.getX rb) with
  | error e => exact ⟨_, rfl, commandEnd_raise s e⟩
  | ok v => exact ⟨_, rfl, commandEnd_setX_complete s rd v⟩

theorem execIsprime_commandEnd (ra : Reg) (rounds : Nat) (s : State) :
    ∃ t, execIsprime ra rounds s = .next t ∧ commandEnd s t := by
  simp only [execIsprime]
  split_ifs
  · exact ⟨_, rfl, commandEnd_setVerdict_complete s false⟩
  · exact ⟨_, rfl, commandEnd_setVerdict_complete s true⟩
  · exact ⟨_, rfl, commandEnd_setVerdict_complete s false⟩
  · exact ⟨_, rfl, .inl ⟨rfl, rfl, rfl, rfl, rfl, rfl, rfl, rfl, rfl, rfl, rfl, rfl⟩⟩

theorem execOaepdec_commandEnd (ra : Reg) (s : State) : ∃ t, execOaepdec ra s = .next t ∧ commandEnd s t := by
  simp only [execOaepdec]
  split_ifs
  · exact ⟨_, rfl, commandEnd_raise s .noModulus⟩
  · exact ⟨_, rfl, commandEnd_raise s .oaepFormat⟩
  · cases oaepDecode Config.H (i2osp (s.getX ra) s.k) s.k with
    | error f =>
      cases f with
      | labelMismatch => exact ⟨_, rfl, commandEnd_raise s .labelMismatch⟩
      | separatorNotFound => exact ⟨_, rfl, commandEnd_raise s .sepNotFound⟩
    | ok msg => exact ⟨_, rfl, commandEnd_setOutput_complete s msg⟩

/-- Every command, at every state, answers a next state in which it has ended. -/
theorem exec_commandEnd (i : Instr) (s : State) : ∃ t, exec i s = .next t ∧ commandEnd s t := by
  cases i with
  | nop => exact ⟨_, rfl, commandEnd_complete s⟩
  | setmod ra =>
    exact ⟨_, rfl, commandEnd_commit s _ _ (.inl (completedFrom_complete (s.loadModulus (s.getX ra))))⟩
  | mov rd ra => exact ⟨_, rfl, commandEnd_setX_complete s rd _⟩
  | clr rd => exact ⟨_, rfl, commandEnd_setX_complete s rd _⟩
  | wipe => exact ⟨_, rfl, .inl ⟨rfl, rfl, rfl, rfl, rfl, rfl, rfl, rfl, rfl, rfl, rfl, rfl⟩⟩
  | ldi rd imm20 => exact ⟨_, rfl, commandEnd_setX_complete s rd _⟩
  | montmul rd ra rb => exact ⟨_, rfl, commandEnd_commit s _ _ (commandEnd_setX_complete s rd _)⟩
  | modmul rd ra rb => exact ⟨_, rfl, commandEnd_commit s _ _ (commandEnd_setX_complete s rd _)⟩
  | modsqr rd ra => exact ⟨_, rfl, commandEnd_commit s _ _ (commandEnd_setX_complete s rd _)⟩
  | modexp rd ra rb => exact ⟨_, rfl, commandEnd_commit s _ _ (commandEnd_setX_complete s rd _)⟩
  | modinv rd ra rb => exact execModinv_commandEnd rd ra rb s
  | mrwit ra => exact ⟨_, rfl, commandEnd_commit s _ _ (commandEnd_setVerdict_complete s _)⟩
  | isprime ra imm12 => exact execIsprime_commandEnd ra imm12 s
  | mgf1 imm12 => exact ⟨_, rfl, commandEnd_commit s _ _ (commandEnd_setOutput_complete s _)⟩
  | oaepenc rd =>
    exact ⟨_, rfl, commandEnd_commit s _ _
      (.inl (completedFrom_complete (({ s with draws := s.draws + 1 } : State).setX rd _)))⟩
  | oaepdec ra => exact execOaepdec_commandEnd ra s

/-- At the end of a command DONE is set and CTRL.IE is as it was, so the interrupt level is IE (10_state R36). -/
theorem commandEnd.irq_eq {s t : State} (h : commandEnd s t) : t.irq = s.ie := by
  obtain ⟨-, hdone, -, -, -, -, hie, -⟩ | ⟨e, rfl⟩ := h
  · simp [State.irq, hdone, hie]
  · simp [State.irq]

/-! ### Reset -/

/-- The reset of the block leaves every piece of its state 0 (10_state R38). -/
theorem blockZero_resetBlock (s : State) : blockZero s.resetBlock :=
  ⟨s.resetBlock_getX, rfl, rfl, rfl, rfl, rfl, rfl, rfl, fun _ => rfl, fun _ => rfl, rfl, rfl, rfl, rfl, rfl, rfl, rfl,
    rfl, rfl, rfl⟩

/-- The state after reset is a state that the reset of the block leaves as it is. -/
theorem resetBlock_reset : State.reset.resetBlock = State.reset := rfl

/-- A write to CTRL with bit 31 set resets the block; the other bits are ignored (10_state R28). -/
theorem writeCtrl_srst (s : State) (w : Word) (hw : w.getLsbD 31 = true) : s.writeCtrl w = s.resetBlock :=
  if_pos hw

/-- CTRL stands at 0x0000, so a host write there is carried as a write to CTRL (20_memory R61). -/
theorem hostWrite_ctrl (s : State) (w : Word) : hostWrite 0x0000 w s = .next (s.writeCtrl w) := rfl

/-- A hardware reset and a soft reset are steps that reset the block, whatever it was doing (70_reset_and_hazards R280,
R281). -/
theorem step_eq_resetBlock (s : State) (w : Word) (rest : List Event) (hw : w.getLsbD 31 = true)
    (he : s.events = .hwReset :: rest ∨ s.events = .write 0x0000 w :: rest) :
    step s = .next ({ s with events := rest } : State).resetBlock := by
  obtain he | he := he <;> simp only [step, he, runEvent]
  rw [hostWrite_ctrl, writeCtrl_srst _ w hw]

end Sys2Proof.Machine

open Sys2Proof Sys2Proof.Machine

/-- Settles O10: the level is the conjunction by definition, and every command ends with DONE set and IE kept. -/
theorem interruptFollowsEveryCompletion : Obligations.InterruptFollowsEveryCompletion := by
  intro i s t
  refine ⟨rfl, fun h => ?_⟩
  obtain ⟨t', ht', hend⟩ := exec_commandEnd i s
  obtain rfl : t' = t := by simpa [ht'] using h
  exact hend.irq_eq

/-- Settles O57: reset from power-up, by hardware and by CTRL.SRST are one operation, which zeroes the block. -/
theorem resetLeavesEveryPieceOfStateZero : Obligations.ResetLeavesEveryPieceOfStateZero := by
  refine ⟨resetBlock_reset ▸ blockZero_resetBlock State.reset, rfl, fun s w rest hw he => ?_⟩
  exact ⟨_, step_eq_resetBlock s w rest hw he, blockZero_resetBlock _, rfl, rfl⟩

end

section
/-! PROOFS. The host window (spec/20_memory.md): reserved offsets (R68) and the offsets the port cannot carry (R67). -/

namespace Sys2Proof.Machine

/-! ### What a host access does in a step -/

/-- The port carries exactly the aligned offsets of the window, and adds nothing to what the access does (20_memory R67). -/
theorem onPort_eq_next_iff (off : Nat) (s t : State) :
    onPort off s = .next t ↔ (off % 4 = 0 ∧ off ≤ 0x7FFC) ∧ s = t := by
  obtain ⟨hout, h⟩ | ⟨-, hmis, h⟩ | ⟨hin, hal, h⟩ := onPort_cases off s <;> rw [h]
  · simp only [reduceCtorEq, false_iff]
    omega
  · simp [hmis]
  · have hport : off % 4 = 0 ∧ off ≤ 0x7FFC := by omega
    simp [hport]

/-- The step that consumes a host write offers the port a write of the offset's target (20_memory R63). -/
theorem step_write {s : State} {off : Nat} {w : Word} {rest : List Event} (he : s.events = .write off w :: rest) :
    step s = onPort off (({ s with events := rest } : State).writeTarget (target s.nw off) w) := by
  simp only [step, he, runEvent, hostWrite, State.nw]

/-- The step that consumes a host read offers the port a read of the offset's target (20_memory R62). -/
theorem step_read {s : State} {off : Nat} {rest : List Event} (he : s.events = .read off :: rest) :
    step s = onPort off (({ s with events := rest } : State).readTarget (target s.nw off)) := by
  simp only [step, he, runEvent, hostRead, State.nw]

/-! ### Reserved offsets -/

/-- A read of a reserved offset gives 0, also while the engine is busy: it is no data offset (20_memory R62). -/
@[simp] theorem State.readTarget_reserved (s : State) : s.readTarget .reserved = { s with hostData := 0 } := by
  obtain ⟨-, h⟩ | ⟨-, hdata, -⟩ := s.readTarget_cases .reserved
  · exact h
  · cases hdata

@[simp] theorem State.writeTarget_reserved (s : State) (w : Word) : s.writeTarget .reserved w = s := rfl

/-- The tail of a stride, at or beyond 4·NW, names nothing (20_memory R61). -/
theorem strideWord_tail (nw off : Nat) (item : Nat → Target) (h : 4 * nw ≤ off % 0x400) :
    strideWord nw off item = .reserved :=
  if_neg (by omega)

/-- The reserved offsets of the map are its gaps, which no test of an item covers, and the tails of its strides, which every
test from the first stride on finds reserved (20_memory R61). -/
theorem target_reserved (nw off : Nat)
    (h : (0x001C ≤ off ∧ off ≤ 0x0FFF) ∨ (0x1400 ≤ off ∧ off ≤ 0x1FFF) ∨ 0x4800 ≤ off
      ∨ (0x1000 ≤ off ∧ 4 * nw ≤ off % 0x400)) : target nw off = .reserved := by
  unfold target
  obtain hgap | hgap | hend | ⟨hstart, htail⟩ := h
  · repeat rw [if_neg (by omega)]
    rw [if_pos (by omega)]
  · repeat rw [if_neg (by omega)]
    rw [if_pos (by omega)]
  · repeat rw [if_neg (by omega)]
  · repeat rw [if_neg (by omega)]
    simp only [strideWord_tail nw off _ htail, ite_self]

end Sys2Proof.Machine

open Sys2Proof Sys2Proof.Machine

/-- Settles O48: the map sends each such offset to the reserved target, which a write leaves alone and a read finds 0. -/
theorem reservedOffsetsReadZeroAndIgnoreWrites : Obligations.ReservedOffsetsReadZeroAndIgnoreWrites := by
  intro s off w rest hal hin hres
  have htarget : target s.nw off = .reserved := target_reserved s.nw off hres
  constructor <;> intro he
  · rw [step_write he, htarget, State.writeTarget_reserved]
    exact (onPort_eq_next_iff off _ _).2 ⟨⟨hal, hin⟩, rfl⟩
  · rw [step_read he, htarget, State.readTarget_reserved]
    exact (onPort_eq_next_iff off _ _).2 ⟨⟨hal, hin⟩, rfl⟩

/-- Settles O54: a step that consumes an access answers a next state only at an offset that the port carries. -/
theorem portCannotCarryOtherAccesses : Obligations.PortCannotCarryOtherAccesses := by
  intro s off w rest hoff he t hstep
  have hport : off % 4 = 0 ∧ off ≤ 0x7FFC := by
    obtain he | he := he
    · rw [step_write he] at hstep
      exact ((onPort_eq_next_iff off _ t).1 hstep).1
    · rw [step_read he] at hstep
      exact ((onPort_eq_next_iff off _ t).1 hstep).1
  omega

end

section
/-! PROOFS. The encoding (spec/30_encoding.md): the words that decode (R95, R98) and the words that do not (R96). -/

namespace Sys2Proof

/-! ### A word and its fields -/

/-- A word is the word of format R with its own fields (30_encoding R91). -/
theorem formatR_eq_of_fields {w : Word} {op rd ra rb imm12 : Nat} (hop : bitField w.toNat 31 24 = op)
    (hrd : bitField w.toNat 23 20 = rd) (hra : bitField w.toNat 19 16 = ra) (hrb : bitField w.toNat 15 12 = rb)
    (himm : bitField w.toNat 11 0 = imm12) : formatR op rd ra rb imm12 = w := by
  apply BitVec.eq_of_toNat_eq
  have hw := w.isLt
  simp only [bitField] at hop hrd hra hrb himm
  simp only [formatR, BitVec.toNat_ofNat]
  omega

/-- A word is the word of format I with its own fields (30_encoding R92). -/
theorem formatI_eq_of_fields {w : Word} {op rd imm20 : Nat} (hop : bitField w.toNat 31 24 = op)
    (hrd : bitField w.toNat 23 20 = rd) (himm : bitField w.toNat 19 0 = imm20) : formatI op rd imm20 = w := by
  apply BitVec.eq_of_toNat_eq
  have hw := w.isLt
  simp only [bitField] at hop hrd himm
  simp only [formatI, BitVec.toNat_ofNat]
  omega

/-! ### When the decoder accepts -/

theorem usedReg_eq_ok_iff (field : Nat) (r : Reg) : usedReg field = .ok r ↔ field = r.val := by
  unfold usedReg
  split
  · simp [Fin.ext_iff]
  · have := r.isLt
    simp only [reduceCtorEq, false_iff]
    omega

theorem unusedField_eq_ok_iff (field : Nat) (u : Unit) : unusedField field = .ok u ↔ field = 0 := by
  unfold unusedField
  split <;> simp [*]

/-- A check followed by more of the decoder accepts exactly when both do. -/
theorem bind_eq_ok_iff {α β : Type} (x : Except Reject α) (f : α → Except Reject β) (b : β) :
    x >>= f = .ok b ↔ ∃ a, x = .ok a ∧ f a = .ok b := by
  cases x with
  | error e => simp [bind, Except.bind]
  | ok a => simp [bind, Except.bind]

theorem pure_eq_ok_iff {α : Type} (a b : α) : (pure a : Except Reject α) = .ok b ↔ a = b := by
  simp [pure, Except.pure]

/-- A word that decodes is the encoding of the well-formed command it decodes to: in each row the decoder's checks say what
every field of the word is (30_encoding R93, R94, R96, R98). The cases are the rows in their order; the reserved opcodes
decode to nothing. -/
theorem wellFormed_and_encode_of_decode {w : Word} {i : Instr} (h : decode w = .ok i) :
    i.wellFormed = true ∧ encode i = w := by
  simp only [decode] at h
  split at h <;> rename_i hop <;>
    simp only [bind_eq_ok_iff, usedReg_eq_ok_iff, unusedField_eq_ok_iff, pure_eq_ok_iff, exists_const, reduceCtorEq] at h
  · obtain ⟨hrd, hra, hrb, himm, rfl⟩ := h
    exact ⟨rfl, formatR_eq_of_fields hop hrd hra hrb himm⟩
  · obtain ⟨hrd, ra, hra, hrb, himm, rfl⟩ := h
    exact ⟨rfl, formatR_eq_of_fields hop hrd hra hrb himm⟩
  · obtain ⟨rd, hrd, ra, hra, hrb, himm, rfl⟩ := h
    exact ⟨rfl, formatR_eq_of_fields hop hrd hra hrb himm⟩
  · obtain ⟨rd, hrd, hra, hrb, himm, rfl⟩ := h
    exact ⟨rfl, formatR_eq_of_fields hop hrd hra hrb himm⟩
  · obtain ⟨hrd, hra, hrb, himm, rfl⟩ := h
    exact ⟨rfl, formatR_eq_of_fields hop hrd hra hrb himm⟩
  · obtain ⟨rd, hrd, rfl⟩ := h
    exact ⟨decide_eq_true (Machine.bitField_lt _ 19 0), formatI_eq_of_fields hop hrd rfl⟩
  · obtain ⟨rd, hrd, ra, hra, rb, hrb, himm, rfl⟩ := h
    exact ⟨rfl, formatR_eq_of_fields hop hrd hra hrb himm⟩
  · obtain ⟨rd, hrd, ra, hra, rb, hrb, himm, rfl⟩ := h
    exact ⟨rfl, formatR_eq_of_fields hop hrd hra hrb himm⟩
  · obtain ⟨rd, hrd, ra, hra, hrb, himm, rfl⟩ := h
    exact ⟨rfl, formatR_eq_of_fields hop hrd hra hrb himm⟩
  · obtain ⟨rd, hrd, ra, hra, rb, hrb, himm, rfl⟩ := h
    exact ⟨rfl, formatR_eq_of_fields hop hrd hra hrb himm⟩
  · obtain ⟨rd, hrd, ra, hra, rb, hrb, himm, rfl⟩ := h
    exact ⟨rfl, formatR_eq_of_fields hop hrd hra hrb himm⟩
  · obtain ⟨hrd, ra, hra, hrb, himm, rfl⟩ := h
    exact ⟨rfl, formatR_eq_of_fields hop hrd hra hrb himm⟩
  · obtain ⟨hrd, ra, hra, hrb, rfl⟩ := h
    exact ⟨decide_eq_true (Machine.bitField_lt _ 11 0), formatR_eq_of_fields hop hrd hra hrb rfl⟩
  · obtain ⟨hrd, hra, hrb, rfl⟩ := h
    exact ⟨decide_eq_true (Machine.bitField_lt _ 11 0), formatR_eq_of_fields hop hrd hra hrb rfl⟩
  · obtain ⟨rd, hrd, hra, hrb, himm, rfl⟩ := h
    exact ⟨rfl, formatR_eq_of_fields hop hrd hra hrb himm⟩
  · obtain ⟨hrd, ra, hra, hrb, himm, rfl⟩ := h
    exact ⟨rfl, formatR_eq_of_fields hop hrd hra hrb himm⟩

/-- Every command's word lies in the command's row of the opcode map (30_encoding R95). -/
theorem encode_in_row (i : Instr) : Laws.EncodeInRow.Statement i := by
  cases i with
  | nop => exact Laws.EncodeInRow.nop
  | setmod ra => exact Laws.EncodeInRow.setmod ra
  | mov rd ra => exact Laws.EncodeInRow.mov rd ra
  | clr rd => exact Laws.EncodeInRow.clr rd
  | wipe => exact Laws.EncodeInRow.wipe
  | ldi rd imm20 => exact Laws.EncodeInRow.ldi rd imm20
  | montmul rd ra rb => exact Laws.EncodeInRow.montmul rd ra rb
  | modmul rd ra rb => exact Laws.EncodeInRow.modmul rd ra rb
  | modsqr rd ra => exact Laws.EncodeInRow.modsqr rd ra
  | modexp rd ra rb => exact Laws.EncodeInRow.modexp rd ra rb
  | modinv rd ra rb => exact Laws.EncodeInRow.modinv rd ra rb
  | mrwit ra => exact Laws.EncodeInRow.mrwit ra
  | isprime ra imm12 => exact Laws.EncodeInRow.isprime ra imm12
  | mgf1 imm12 => exact Laws.EncodeInRow.mgf1 imm12
  | oaepenc rd => exact Laws.EncodeInRow.oaepenc rd
  | oaepdec ra => exact Laws.EncodeInRow.oaepdec ra

/-- A word that decodes matches the row of its command (30_encoding R95, R98). -/
theorem row_of_decode {w : Word} {i : Instr} (h : decode w = .ok i) :
    w &&& i.maskWord = i.matchWord ∧ (i.matchWord, i.maskWord) ∈ opcodeMap := by
  obtain ⟨hwf, rfl⟩ := wellFormed_and_encode_of_decode h
  exact encode_in_row i hwf

end Sys2Proof

namespace Sys2Proof.Machine

/-! ### The engine's slot -/

/-- A busy engine in its slot ends the pending command (10_state R20). -/
theorem step_engine_of_busy {s : State} {rest : List Event} (hbusy : s.busy = true) (he : s.events = .engine :: rest) :
    step s = engineComplete { s with events := rest } := by
  simp only [step, he, runEvent, engineSlot, hbusy, if_true]

/-- A word that matches no row ends as a fault (30_encoding R96, 40_setup_move R120). -/
theorem engineComplete_of_no_row (s : State) (hno : ∀ row ∈ opcodeMap, s.cmdReg &&& row.2 ≠ row.1) :
    engineComplete s = .next (s.raise .illegalCmd) := by
  obtain ⟨-, -, hfault⟩ | ⟨i, hdec, -⟩ := engineComplete_cases s
  · exact hfault
  · obtain ⟨hmatch, hrow⟩ := row_of_decode hdec
    exact absurd hmatch (hno _ hrow)

end Sys2Proof.Machine

open Sys2Proof Sys2Proof.Machine

/-- Settles O5: a word that decodes matches the row of its command, so a word that matches none is rejected, and the fault
writes what `State.raise` writes. -/
theorem illegalWordFaultsAndChangesNothingElse : Obligations.IllegalWordFaultsAndChangesNothingElse := by
  intro s rest hbusy he hno
  rw [step_engine_of_busy hbusy he, engineComplete_of_no_row { s with events := rest } hno]
  rfl

end

section
/-! PROOFS. Set-up, move, erase (spec/40_setup_move.md): NOP (R121) and WIPE (R125). -/

namespace Sys2Proof

/-- The word of all zeros is NOP: every field that NOP does not use is 0 (40_setup_move R121). -/
theorem decode_nopWord : decode 0x00000000 = .ok .nop := rfl

/-- The opcode 0x04 with every other field 0 is WIPE (40_setup_move R125). -/
theorem decode_wipeWord : decode 0x04000000 = .ok .wipe := rfl

end Sys2Proof

namespace Sys2Proof.Machine

/-- NOP does what every completion does (40_setup_move R120, R121). -/
theorem exec_nop (s : State) : exec .nop s = .next s.complete := rfl

/-! ### WIPE -/

/-- The state with every data value as reset leaves it (40_setup_move R125, 10_state R38). -/
def State.eraseData (s : State) : State :=
  { s with
    x := State.reset.x, n := State.reset.n, modv := State.reset.modv, nb := State.reset.nb, k := State.reset.k
    np := State.reset.np, rr := State.reset.rr, p := State.reset.p
    mb := State.reset.mb, mlen := State.reset.mlen, ob := State.reset.ob, olen := State.reset.olen }

/-- WIPE erases the data and completes (40_setup_move R120, R125). -/
theorem exec_wipe (s : State) : exec .wipe s = .next s.eraseData.complete := rfl

/-- Every big register is 0 after an erasure, because it is after reset (10_state R38). -/
@[simp] theorem State.getX_eraseData (s : State) (i : Reg) : s.eraseData.getX i = 0 :=
  State.reset.resetBlock_getX i

/-- A completion after an erasure is the completion of a command begun before it: nothing but data is erased
(40_setup_move R125). -/
theorem completedFrom_eraseData_complete (s : State) : completedFrom s s.eraseData.complete :=
  completedFrom_complete s.eraseData

end Sys2Proof.Machine

open Sys2Proof Sys2Proof.Machine

/-- Settles O11: the word of all zeros decodes to NOP, and NOP is the completion alone. -/
theorem nopOnlyCompletes : Obligations.NopOnlyCompletes :=
  ⟨decode_nopWord, exec_nop⟩

/-- Settles O16: WIPE puts every data value at its value after reset, which is 0, and completes. -/
theorem wipeErasesEveryDataValue : Obligations.WipeErasesEveryDataValue := by
  refine ⟨decode_wipeWord, fun s => ⟨s.eraseData.complete, exec_wipe s, s.getX_eraseData, ?modulus⟩⟩
  refine ⟨rfl, rfl, rfl, rfl, rfl, rfl, ?verdict_and_buffers⟩
  exact ⟨rfl, fun _ => rfl, fun _ => rfl, rfl, rfl, rfl, completedFrom_eraseData_complete s⟩

end

section
/-! PROOFS. The OAEP codec's commands (spec/43_oaep_mgf1.md): the faults of OAEPDEC in their order (R186, R188), and OAEPDEC
of what OAEPENC wrote (R187). -/

namespace Sys2Proof.Machine

/-! ### The decoder's two failures -/

theorem oaepDecode_of_prefix_ne {h : List Byte → List Byte} {em : List Byte} {k : Nat}
    (hprefix : (recoverDB h em k).take 32 ≠ h []) : oaepDecode h em k = .error .labelMismatch :=
  if_pos hprefix

/-- The scan begins at index 32 of the data block and ends with it (43_oaep_mgf1 R185). -/
theorem oaepDecode_of_no_separator {h : List Byte → List Byte} {em : List Byte} {k : Nat}
    (hprefix : (recoverDB h em k).take 32 = h [])
    (hscan : ∀ j, 32 ≤ j → j < (recoverDB h em k).length → (recoverDB h em k).getD j 0 ≠ 1) :
    oaepDecode h em k = .error .separatorNotFound := by
  have hnone : afterSeparator ((recoverDB h em k).drop 32) = none := by
    refine (afterSeparator_eq_none _).2 fun i hi => ?_
    rw [List.length_drop] at hi
    simpa [List.getD_eq_getElem?_getD] using hscan (32 + i) (by omega) (by omega)
  unfold oaepDecode
  simp only [hprefix, hnone, ne_eq, not_true_eq_false, if_false]

/-! ### OAEPDEC, before and after the decoding -/

theorem exec_oaepdec_of_unfit {s : State} {ra : Reg} (hmod : s.modv = true) (hunfit : s.k < 66 ∨ 256 ^ s.k ≤ s.getX ra) :
    exec (.oaepdec ra) s = .next (s.raise .oaepFormat) := by
  simp only [exec, execOaepdec, hmod, hunfit, Bool.true_eq_false, if_true, if_false]

/-- How OAEPDEC ends on an answer of the decoder (43_oaep_mgf1 R186). -/
def State.afterDecode (s : State) : Except DecodeFail (List Byte) → State
  | .error .labelMismatch => s.raise .labelMismatch
  | .error .separatorNotFound => s.raise .sepNotFound
  | .ok msg => (s.setOutput msg).complete

/-- OAEPDEC of an integer that fits in K bytes ends as the decoder answers for its serialisation (43_oaep_mgf1 R186). -/
theorem exec_oaepdec_of_fit {s : State} {ra : Reg} (hmod : s.modv = true) (hk : 66 ≤ s.k) (hv : s.getX ra < 256 ^ s.k) :
    exec (.oaepdec ra) s = .next (s.afterDecode (oaepDecode Config.H (i2osp (s.getX ra) s.k) s.k)) := by
  have hfit : ¬(s.k < 66 ∨ 256 ^ s.k ≤ s.getX ra) := by omega
  simp only [exec, execOaepdec, hmod, hfit, Bool.true_eq_false, if_false]
  cases oaepDecode Config.H (i2osp (s.getX ra) s.k) s.k with
  | error f =>
    cases f with
    | labelMismatch => rfl
    | separatorNotFound => rfl
  | ok msg => rfl

/-! ### The round trip -/

@[simp] theorem length_rngBytes32 (d : Nat) : (rngBytes32 d).length = 32 := by simp [rngBytes32]

@[simp] theorem State.length_message (s : State) : s.message.length = s.mlen.toNat := s.mb.length_bytes _

/-- Byte i of the message is byte i of MB (20_memory R75). -/
theorem State.getD_message {s : State} {i : Nat} (hi : i < s.mlen.toNat) : s.message.getD i 0 = s.mb.readByte i := by
  simp [State.message, Memory.bytes, hi]

/-- K is the byte length of a loaded modulus, so the modulus determines it (10_state R24). -/
theorem State.Inv.k_eq {s : State} (hi : s.Inv) (hmod : s.modv = true) : s.k = byteLen (bitlen s.n) := by
  obtain ⟨-, -, -, hnb, hk, -, -⟩ := hi.modulus.1 hmod
  rw [hk, hnb]

/-- OAEPENC of a message that passes its checks writes the encoded message and consumes one draw (43_oaep_mgf1 R184). -/
theorem exec_oaepenc_of_fit {s : State} (rd : Reg) (hmod : s.modv = true) (hlen : s.mlen.toNat ≤ s.bufMax)
    (hk : s.mlen.toNat + 66 ≤ s.k) :
    exec (.oaepenc rd) s = .next (({ s with draws := s.draws + 1 } : State).setX rd
      (os2ip (oaepEncode Config.H s.message s.k (rngBytes32 s.draws)))).complete := by
  have hchecks : oaepencFault s = none := by
    simp only [oaepencFault, hmod, hlen.not_gt, hk.not_gt, Bool.true_eq_false, if_false]
  simp only [exec, execOaepenc, hchecks, commit]

/-- OAEPDEC of the integer of an encoded message outputs the message, whatever the seed was: the serialisation to K bytes
gives the encoded message back, and the decoder inverts the encoder (43_oaep_mgf1 R187). -/
theorem exec_oaepdec_of_encoded {u : State} {ra : Reg} {msg seed : List Byte} (hmod : u.modv = true)
    (hk : msg.length + 66 ≤ u.k) (hseed : seed.length = 32) (hX : u.getX ra = os2ip (oaepEncode Config.H msg u.k seed)) :
    exec (.oaepdec ra) u = .next (u.setOutput msg).complete := by
  have hlen : (oaepEncode Config.H msg u.k seed).length = u.k := length_oaepEncode Config.H length_H msg u.k seed hk hseed
  have hbytes : i2osp (u.getX ra) u.k = oaepEncode Config.H msg u.k seed := by
    have hinv := i2osp_os2ip (oaepEncode Config.H msg u.k seed)
    rwa [hlen, ← hX] at hinv
  have hv : u.getX ra < 256 ^ u.k := by
    have hlt := os2ip_lt (oaepEncode Config.H msg u.k seed)
    rwa [hlen, ← hX] at hlt
  rw [exec_oaepdec_of_fit hmod (by omega) hv, hbytes, oaepDecode_oaepEncode Config.H length_H msg u.k seed hk hseed,
    State.afterDecode]

end Sys2Proof.Machine

open Sys2Proof Sys2Proof.Machine

/-- Settles O40: the format check comes before the decoding, and the decoder compares the prefix before it scans. -/
theorem oaepdecFaultsInOrder : Obligations.OaepdecFaultsInOrder := by
  intro ra s db hmod hdb
  subst hdb
  refine ⟨exec_oaepdec_of_unfit hmod, fun hk hv hprefix => ?label, fun hk hv hprefix hscan => ?separator⟩
  case label => rw [exec_oaepdec_of_fit hmod hk hv, oaepDecode_of_prefix_ne hprefix, State.afterDecode]
  case separator =>
    have hlen := length_recoverDB Config.H length_H (i2osp (s.getX ra) s.k) s.k (length_i2osp _ _)
    rw [exec_oaepdec_of_fit hmod hk hv,
      oaepDecode_of_no_separator hprefix fun j hj hjk => hscan j hj (hlen ▸ hjk), State.afterDecode]

/-- Settles O41: the same modulus has the same K, so OAEPDEC serialises the integer to the encoded message that OAEPENC made,
and decodes that to the message. -/
theorem oaepRoundTripGivesTheMessageBack : Obligations.OaepRoundTripGivesTheMessageBack := by
  intro rd s hs hmod hlen hk
  refine ⟨_, exec_oaepenc_of_fit rd hmod hlen hk, fun ra u hu humod hn hX => ?_⟩
  have hku : u.k = s.k := by rw [hu.k_eq humod, hs.k_eq hmod, hn]
  rw [State.complete_getX, State.getX_setX_self, ← hku] at hX
  have hdec := exec_oaepdec_of_encoded humod (by simpa [hku] using hk) (length_rngBytes32 s.draws) hX
  refine ⟨_, hdec, rfl, ?olen, fun i hi => ?bytes⟩
  case olen => simp
  case bytes =>
    calc (u.setOutput s.message).complete.ob.readByte i
      _ = s.message.getD i 0 := Memory.readByte_ofBytes s.message i
      _ = s.mb.readByte i := State.getD_message hi

end

section
/-! PROOFS. Faults (spec/60_exceptions.md): the return from a pending fault and the command after it (R246). -/

namespace Sys2Proof.Machine

/-! ### Writes to CMD and CTRL as steps -/

/-- CMD stands at 0x0008, and the port carries a write there (20_memory R61, R67). -/
theorem step_write_cmd {s : State} {w : Word} {rest : List Event} (he : s.events = .write 0x0008 w :: rest) :
    step s = .next (({ s with events := rest } : State).writeCmd w) :=
  step_write he

/-- CTRL stands at 0x0000, and the port carries a write there (20_memory R61, R67). -/
theorem step_write_ctrl {s : State} {w : Word} {rest : List Event} (he : s.events = .write 0x0000 w :: rest) :
    step s = .next (({ s with events := rest } : State).writeCtrl w) :=
  step_write he

/-- A pending fault refuses every command word (10_state R30). -/
theorem step_write_cmd_of_fault {s : State} {w : Word} {rest : List Event}
    (he : s.events = .write 0x0008 w :: rest) (hfault : s.err ≠ none) :
    step s = .next ({ s with events := rest } : State).refuseWrite := by
  obtain ⟨-, hnone, -⟩ | ⟨-, hrefused⟩ := ({ s with events := rest } : State).writeCmd_cases w
  · exact absurd hnone hfault
  · rw [step_write_cmd he, hrefused]

/-- An idle engine with no fault pending accepts every command word (10_state R30). -/
theorem step_write_cmd_of_ready {s : State} {w : Word} {rest : List Event}
    (he : s.events = .write 0x0008 w :: rest) (hidle : s.busy = false) (hnone : s.err = none) :
    step s = .next { s.latch w with cp := s.cp + 1, events := rest } := by
  obtain ⟨-, -, haccepted⟩ | ⟨hnot, -⟩ := ({ s with events := rest } : State).writeCmd_cases w
  · rw [step_write_cmd he, haccepted]
    rfl
  · exact absurd ⟨hidle, hnone⟩ hnot

/-- EACK acknowledges whatever fault is pending; DONE falls only with DACK (10_state R28, 60_exceptions R246). -/
theorem step_write_ctrl_eack {s : State} {c : Word} {rest : List Event} (he : s.events = .write 0x0000 c :: rest)
    (hsrst : c.getLsbD 31 = false) (heack : c.getLsbD 1 = true) :
    step s = .next { s.acknowledge with
      ie := c.getLsbD 0, done := if c.getLsbD 2 then false else s.done, events := rest } := by
  obtain ⟨hreset, -⟩ | ⟨-, hctrl⟩ := ({ s with events := rest } : State).writeCtrl_cases c
  · exact absurd (hsrst.symm.trans hreset) Bool.false_ne_true
  · rw [step_write_ctrl he, hctrl]
    simp [heack, State.acknowledge]

/-- The engine is idle while a fault is pending (10_state R29). -/
theorem State.Inv.idle_of_fault {s : State} (hs : s.Inv) (hfault : s.err ≠ none) : s.busy = false :=
  Bool.eq_false_iff.2 fun hbusy => hfault (hs.busyNoErr hbusy)

end Sys2Proof.Machine

open Sys2Proof Sys2Proof.Machine

/-- Settles O53: the pending fault refuses the first word; the engine is idle while it is pending, so the acknowledgement
leaves the block ready for any word. -/
theorem acknowledgementEndsAPendingFault : Obligations.AcknowledgementEndsAPendingFault := by
  intro s w w' c rest hs hfault hsrst heack he
  have hidle : s.busy = false := hs.idle_of_fault hfault
  exact ⟨_, _, _, step_write_cmd_of_fault he hfault, step_write_ctrl_eack rfl hsrst heack,
    step_write_cmd_of_ready rfl hidle rfl, rfl, rfl, rfl⟩

end

section
/-! PROOFS. The encoding (spec/30_encoding.md): decoding and encoding are inverse to each other (R98), and the opcode map is
the set of commands (R95). -/

namespace Sys2Proof

/-! ### The fields of an encoded word -/

/-- The fields of a word of format R are the ones it was made from (30_encoding R91). -/
theorem fields_formatR {op rd ra rb imm12 : Nat} (hop : op < 256) (hrd : rd < 16) (hra : ra < 16) (hrb : rb < 16)
    (himm : imm12 < 2 ^ 12) :
    bitField (formatR op rd ra rb imm12).toNat 31 24 = op ∧ bitField (formatR op rd ra rb imm12).toNat 23 20 = rd
      ∧ bitField (formatR op rd ra rb imm12).toNat 19 16 = ra ∧ bitField (formatR op rd ra rb imm12).toNat 15 12 = rb
      ∧ bitField (formatR op rd ra rb imm12).toNat 11 0 = imm12 := by
  simp only [bitField, formatR, BitVec.toNat_ofNat]
  omega

/-- The fields of a word of format I are the ones it was made from (30_encoding R92). -/
theorem fields_formatI {op rd imm20 : Nat} (hop : op < 256) (hrd : rd < 16) (himm : imm20 < 2 ^ 20) :
    bitField (formatI op rd imm20).toNat 31 24 = op ∧ bitField (formatI op rd imm20).toNat 23 20 = rd
      ∧ bitField (formatI op rd imm20).toNat 19 0 = imm20 := by
  simp only [bitField, formatI, BitVec.toNat_ofNat]
  omega

@[simp] theorem usedReg_val (r : Reg) : usedReg r.val = .ok r := (usedReg_eq_ok_iff r.val r).2 rfl

@[simp] theorem unusedField_zero : unusedField 0 = .ok () := rfl

@[simp] theorem ok_bind {α β : Type} (a : α) (f : α → Except Reject β) : (Except.ok a : Except Reject α) >>= f = f a := rfl

/-- The decoder reads the command back from the fields of its word (30_encoding R98): with the fields known, the row is
chosen by the opcode and every check of the row passes. -/
theorem decode_encode (i : Instr) (hwf : i.wellFormed = true) : decode (encode i) = .ok i := by
  cases i with
  | ldi rd imm20 =>
    have himm : imm20 < 2 ^ 20 := of_decide_eq_true hwf
    simp (disch := omega) [encode, decode, fields_formatI, pure, Except.pure]
  | isprime ra imm12 =>
    have himm : imm12 < 2 ^ 12 := of_decide_eq_true hwf
    simp (disch := omega) [encode, decode, fields_formatR, pure, Except.pure]
  | mgf1 imm12 =>
    have himm : imm12 < 2 ^ 12 := of_decide_eq_true hwf
    simp (disch := omega) [encode, decode, fields_formatR, pure, Except.pure]
  | _ => simp (disch := omega) [encode, decode, fields_formatR, pure, Except.pure]

/-! ### The rows of the opcode map -/

/-- A field of a conjunction of words is the conjunction of the fields. -/
theorem bitField_and (v m hi lo : Nat) : bitField (v &&& m) hi lo = bitField v hi lo &&& bitField m hi lo := by
  simp only [bitField, ← Nat.shiftRight_eq_div_pow, Nat.shiftRight_and_distrib, Nat.and_mod_two_pow]

section
variable {w mask value : Word} (hrow : w &&& mask = value)
include hrow

theorem bitField_of_row (hi lo : Nat) :
    bitField w.toNat hi lo &&& bitField mask.toNat hi lo = bitField value.toNat hi lo := by
  rw [← bitField_and, ← BitVec.toNat_and, hrow]

/-- Where a row's mask is all ones, the field is the row's value. -/
theorem fixedField_of_row (hi lo : Nat) (hmask : bitField mask.toNat hi lo = 2 ^ (hi - lo + 1) - 1) :
    bitField w.toNat hi lo = bitField value.toNat hi lo := by
  rw [← bitField_of_row hrow hi lo, hmask, Nat.and_two_pow_sub_one_eq_mod]
  exact (Nat.mod_eq_of_lt (Machine.bitField_lt _ hi lo)).symm

/-- Where a row's mask has the top bit of a register field alone and its value has not, the field names a register
(30_encoding R93). -/
theorem regField_of_row (lo : Nat) (hmask : bitField mask.toNat (lo + 3) lo = 8)
    (hvalue : bitField value.toNat (lo + 3) lo = 0) : bitField w.toNat (lo + 3) lo < 8 := by
  have hand := bitField_of_row hrow (lo + 3) lo
  have hlt := Machine.bitField_lt w.toNat (lo + 3) lo
  rw [hmask, hvalue] at hand
  rw [Nat.add_sub_cancel_left] at hlt
  have below : ∀ field < 16, field &&& 8 = 0 → field < 8 := by decide
  exact below _ hlt hand

end

/-- A word that matches a row is the word of a well-formed command of that row: the row's ones fix the opcode and the unused
fields, its eights keep the register fields below 8 (30_encoding R95). The cases are the rows in their order. -/
theorem encode_of_row {w : Word} {row : Word × Word} (hmem : row ∈ opcodeMap) (h : w &&& row.2 = row.1) :
    ∃ i : Instr, i.wellFormed = true ∧ encode i = w ∧ i.matchWord = row.1 ∧ i.maskWord = row.2 := by
  simp only [opcodeMap, List.mem_cons, List.not_mem_nil, or_false] at hmem
  obtain rfl | rfl | rfl | rfl | rfl | rfl | rfl | rfl | rfl | rfl | rfl | rfl | rfl | rfl | rfl | rfl := hmem <;>
    have fixed := fixedField_of_row h <;> have reg := regField_of_row h
  · exact ⟨.nop, rfl,
      formatR_eq_of_fields (fixed 31 24 rfl) (fixed 23 20 rfl) (fixed 19 16 rfl) (fixed 15 12 rfl) (fixed 11 0 rfl), rfl, rfl⟩
  · exact ⟨.setmod ⟨_, reg 16 rfl rfl⟩, rfl,
      formatR_eq_of_fields (fixed 31 24 rfl) (fixed 23 20 rfl) rfl (fixed 15 12 rfl) (fixed 11 0 rfl), rfl, rfl⟩
  · exact ⟨.mov ⟨_, reg 20 rfl rfl⟩ ⟨_, reg 16 rfl rfl⟩, rfl,
      formatR_eq_of_fields (fixed 31 24 rfl) rfl rfl (fixed 15 12 rfl) (fixed 11 0 rfl), rfl, rfl⟩
  · exact ⟨.clr ⟨_, reg 20 rfl rfl⟩, rfl,
      formatR_eq_of_fields (fixed 31 24 rfl) rfl (fixed 19 16 rfl) (fixed 15 12 rfl) (fixed 11 0 rfl), rfl, rfl⟩
  · exact ⟨.wipe, rfl,
      formatR_eq_of_fields (fixed 31 24 rfl) (fixed 23 20 rfl) (fixed 19 16 rfl) (fixed 15 12 rfl) (fixed 11 0 rfl), rfl, rfl⟩
  · exact ⟨.ldi ⟨_, reg 20 rfl rfl⟩ _, decide_eq_true (Machine.bitField_lt _ 19 0),
      formatI_eq_of_fields (fixed 31 24 rfl) rfl rfl, rfl, rfl⟩
  · exact ⟨.montmul ⟨_, reg 20 rfl rfl⟩ ⟨_, reg 16 rfl rfl⟩ ⟨_, reg 12 rfl rfl⟩, rfl,
      formatR_eq_of_fields (fixed 31 24 rfl) rfl rfl rfl (fixed 11 0 rfl), rfl, rfl⟩
  · exact ⟨.modmul ⟨_, reg 20 rfl rfl⟩ ⟨_, reg 16 rfl rfl⟩ ⟨_, reg 12 rfl rfl⟩, rfl,
      formatR_eq_of_fields (fixed 31 24 rfl) rfl rfl rfl (fixed 11 0 rfl), rfl, rfl⟩
  · exact ⟨.modsqr ⟨_, reg 20 rfl rfl⟩ ⟨_, reg 16 rfl rfl⟩, rfl,
      formatR_eq_of_fields (fixed 31 24 rfl) rfl rfl (fixed 15 12 rfl) (fixed 11 0 rfl), rfl, rfl⟩
  · exact ⟨.modexp ⟨_, reg 20 rfl rfl⟩ ⟨_, reg 16 rfl rfl⟩ ⟨_, reg 12 rfl rfl⟩, rfl,
      formatR_eq_of_fields (fixed 31 24 rfl) rfl rfl rfl (fixed 11 0 rfl), rfl, rfl⟩
  · exact ⟨.modinv ⟨_, reg 20 rfl rfl⟩ ⟨_, reg 16 rfl rfl⟩ ⟨_, reg 12 rfl rfl⟩, rfl,
      formatR_eq_of_fields (fixed 31 24 rfl) rfl rfl rfl (fixed 11 0 rfl), rfl, rfl⟩
  · exact ⟨.mrwit ⟨_, reg 16 rfl rfl⟩, rfl,
      formatR_eq_of_fields (fixed 31 24 rfl) (fixed 23 20 rfl) rfl (fixed 15 12 rfl) (fixed 11 0 rfl), rfl, rfl⟩
  · exact ⟨.isprime ⟨_, reg 16 rfl rfl⟩ _, decide_eq_true (Machine.bitField_lt _ 11 0),
      formatR_eq_of_fields (fixed 31 24 rfl) (fixed 23 20 rfl) rfl (fixed 15 12 rfl) rfl, rfl, rfl⟩
  · exact ⟨.mgf1 _, decide_eq_true (Machine.bitField_lt _ 11 0),
      formatR_eq_of_fields (fixed 31 24 rfl) (fixed 23 20 rfl) (fixed 19 16 rfl) (fixed 15 12 rfl) rfl, rfl, rfl⟩
  · exact ⟨.oaepenc ⟨_, reg 20 rfl rfl⟩, rfl,
      formatR_eq_of_fields (fixed 31 24 rfl) rfl (fixed 19 16 rfl) (fixed 15 12 rfl) (fixed 11 0 rfl), rfl, rfl⟩
  · exact ⟨.oaepdec ⟨_, reg 16 rfl rfl⟩, rfl,
      formatR_eq_of_fields (fixed 31 24 rfl) (fixed 23 20 rfl) rfl (fixed 15 12 rfl) (fixed 11 0 rfl), rfl, rfl⟩

end Sys2Proof

open Sys2Proof Sys2Proof.Machine

/-- Settles O1: the fields of the encoded word are the command's, and the decoder rebuilds the command from them. -/
theorem decodeOfEncodeIsTheCommand : Obligations.DecodeOfEncodeIsTheCommand := decode_encode

/-- Settles O2: the decoder's checks leave no bit of the word free. -/
theorem encodeOfDecodeIsTheWord : Obligations.EncodeOfDecodeIsTheWord := fun _ _ => wellFormed_and_encode_of_decode

/-- Settles O3: a word that decodes lies in its command's row, and a word in a row is the encoding of a command of that row,
which decodes. -/
theorem commandsAreTheRowsOfTheOpcodeMap : Obligations.CommandsAreTheRowsOfTheOpcodeMap := by
  refine fun w => ⟨fun i => row_of_decode, fun row hmem h => ?_⟩
  obtain ⟨i, hwf, rfl, hmatch, hmask⟩ := encode_of_row hmem h
  exact ⟨i, decode_encode i hwf, hmatch, hmask⟩

/-- Settles O4: each word of the table is the encoding of the command it names. -/
theorem wordsOfTheSpecDecode : Obligations.WordsOfTheSpecDecode :=
  ⟨decode_encode .nop rfl, decode_encode (.setmod 7) rfl, decode_encode (.mov 5 3) rfl, decode_encode (.ldi 7 1048575) rfl,
    decode_encode (.montmul 2 0 1) rfl, decode_encode (.modexp 2 0 1) rfl, decode_encode (.modinv 2 0 1) rfl,
    decode_encode (.isprime 7 4095) rfl, decode_encode (.mgf1 40) rfl, decode_encode (.oaepenc 7) rfl,
    decode_encode (.oaepdec 4) rfl⟩

end

section
/-! PROOFS. The engine (spec/10_state.md R20, spec/40_setup_move.md R120) and the set-up and move commands
(spec/40_setup_move.md R122 to R126). -/

namespace Sys2Proof.Machine

/-! ### The engine's slot -/

/-- With no event left a busy engine ends the pending command (10_state R20). -/
theorem step_of_no_event {s : State} (hbusy : s.busy = true) (he : s.events = []) : step s = engineComplete s := by
  simp only [step, he, engineSlot, hbusy, if_true]

/-- An idle engine's slot passes without effect (10_state R20). -/
theorem step_engine_of_idle {s : State} {rest : List Event} (hidle : s.busy = false) (he : s.events = .engine :: rest) :
    step s = .next { s with events := rest } := by
  simp only [step, he, runEvent, engineSlot, hidle, Bool.false_eq_true, if_false]

theorem engineComplete_of_decode {s : State} {i : Instr} (hdec : decode s.cmdReg = .ok i) :
    engineComplete s = exec i s := by
  simp only [engineComplete, hdec]

/-- An end of a command leaves the engine idle with DONE set, and the events to come as they were. -/
theorem commandEnd.idle {s t : State} (h : commandEnd s t) : t.busy = false ∧ t.done = true ∧ t.events = s.events := by
  obtain ⟨hbusy, hdone, -, -, -, -, -, -, -, -, -, hevents⟩ | ⟨e, rfl⟩ := h
  · exact ⟨hbusy, hdone, hevents⟩
  · exact ⟨rfl, rfl, rfl⟩

/-- `EngineComplete` always ends its command: an illegal word by a fault, any other as its command does
(40_setup_move R120, 70_reset_and_hazards R290). -/
theorem engineComplete_commandEnd (s : State) : ∃ t, engineComplete s = .next t ∧ commandEnd s t := by
  obtain ⟨-, -, h⟩ | ⟨i, -, h⟩ := engineComplete_cases s
  · exact ⟨_, h, commandEnd_raise s .illegalCmd⟩
  · rw [h]
    exact exec_commandEnd i s

/-! ### SETMOD -/

theorem exec_setmod_of_valid {s : State} {ra : Reg} (h3 : 3 ≤ s.getX ra) (hodd : s.getX ra % 2 = 1) :
    exec (.setmod ra) s = .next (s.loadModulus (s.getX ra)).complete := by
  have hvalid : ¬(s.getX ra < 3 ∨ s.getX ra % 2 = 0) := by omega
  simp only [exec, execSetmod, if_neg hvalid, commit]

theorem exec_setmod_of_bad {s : State} {ra : Reg} (hbad : s.getX ra < 3 ∨ s.getX ra % 2 = 0) :
    exec (.setmod ra) s = .next (s.raise .badModulus) := by
  simp only [exec, execSetmod, if_pos hbad, commit]

/-- A loaded odd modulus has the derived values that R122 names (40_setup_move R122). -/
theorem holdsModulus_loadModulus (s : State) {v : Nat} (hodd : v % 2 = 1) : holdsModulus (s.loadModulus v) v := by
  obtain ⟨hk, hk'⟩ := byteLen_bounds (bitlen v)
  exact ⟨rfl, rfl, two_pow_bitlen_le v (by omega), lt_two_pow_bitlen v, hk, hk', negInv32_spec v hodd, rfl⟩

/-! ### A command that writes one register -/

/-- A command that writes X[rd] and completes has written its value there and nothing else. -/
theorem writes_of_exec_eq {i : Instr} {s : State} {rd : Reg} {v : Nat}
    (h : exec i s = .next (s.setX rd v).complete) : ∃ t, exec i s = .next t ∧ t.getX rd = v ∧ onlyRegister rd s t :=
  ⟨_, h, s.getX_setX_self rd v, onlyRegister_setX s rd v⟩

end Sys2Proof.Machine

open Sys2Proof Sys2Proof.Machine

/-- Settles O6: the step is the engine's slot, and the slot runs the decoded command. -/
theorem stepRunsTheDecodedCommand : Obligations.StepRunsTheDecodedCommand := by
  refine fun s i rest hbusy hdec => ⟨fun he => ?_, fun he => ?_⟩
  · exact (step_engine_of_busy hbusy he).trans (engineComplete_of_decode hdec)
  · exact (step_of_no_event hbusy he).trans (engineComplete_of_decode hdec)

/-- Settles O7: an idle slot passes; a busy one ends the pending command, legal or not. -/
theorem engineActsExactlyWhenBusy : Obligations.EngineActsExactlyWhenBusy := by
  refine fun s rest he => ⟨fun hidle => step_engine_of_idle hidle he, fun hbusy => ?_⟩
  obtain ⟨t, ht, hend⟩ := engineComplete_commandEnd { s with events := rest }
  exact ⟨t, (step_engine_of_busy hbusy he).trans ht, hend.idle⟩

/-- Settles O8: a command's end is a completion or a taken fault. -/
theorem everyCommandCompletesOrOnlyRecordsAFault : Obligations.EveryCommandCompletesOrOnlyRecordsAFault := by
  refine ⟨fun s e => rfl, fun i s => ?_⟩
  obtain ⟨t, ht, hcompleted | ⟨e, rfl⟩⟩ := exec_commandEnd i s
  · exact .inl ⟨t, ht, hcompleted⟩
  · exact .inr ⟨e, ht⟩

/-- Settles O12: SETMOD of a valid value loads it and completes. -/
theorem setmodLoadsTheModulus : Obligations.SetmodLoadsTheModulus := by
  intro ra s h3 hodd
  refine ⟨_, exec_setmod_of_valid h3 hodd, holdsModulus_loadModulus s hodd, fun _ => rfl, rfl, ?frame⟩
  exact ⟨⟨rfl, fun _ => rfl⟩, ⟨rfl, fun _ => rfl⟩, rfl, completedFrom_complete (s.loadModulus (s.getX ra))⟩

/-- Settles O13: the check comes before the load. -/
theorem setmodRefusesABadModulus : Obligations.SetmodRefusesABadModulus := fun _ _ => exec_setmod_of_bad

/-- Settles O14: the three commands write their value to X[rd] and complete. -/
theorem movClrLdiWriteOneRegister : Obligations.MovClrLdiWriteOneRegister :=
  fun _ _ _ _ => ⟨writes_of_exec_eq rfl, writes_of_exec_eq rfl, fun _ => writes_of_exec_eq rfl⟩

/-- Settles O15: the second write of a register hides the first. -/
theorem clrForgetsTheOldValue : Obligations.ClrForgetsTheOldValue := by
  intro rd s v
  simp only [exec, execClr, State.setX_setX]

end

section
/-! PROOFS. Modular arithmetic (spec/41_modexp.md): the checks of the operands (R140), the Montgomery multiplier (R141 to
R143), products (R144, R145) and powers (R146, R147). -/

namespace Sys2Proof.Machine

/-! ### The checks of the operands -/

theorem commit_rangeFault_of_no_modulus {s : State} (hmod : s.modv = false) (ops : List Nat) (effect : State) :
    commit s (rangeFault s ops) effect = s.raise .noModulus := by
  simp only [rangeFault, hmod, if_true, commit]

theorem commit_rangeFault_of_le {s : State} (hmod : s.modv = true) {ops : List Nat} (h : ∃ v ∈ ops, s.n ≤ v)
    (effect : State) : commit s (rangeFault s ops) effect = s.raise .operandRange := by
  obtain ⟨hno, -⟩ | ⟨-, -, hfault⟩ | ⟨-, hlt, -⟩ := rangeFault_cases s ops
  · exact absurd (hmod.symm.trans hno) Bool.true_eq_false.mp
  · rw [hfault, commit]
  · obtain ⟨v, hv, hle⟩ := h
    exact absurd (hlt v hv) hle.not_gt

theorem commit_rangeFault_of_lt {s : State} (hmod : s.modv = true) {ops : List Nat} (h : ∀ v ∈ ops, v < s.n)
    (effect : State) : commit s (rangeFault s ops) effect = effect.complete := by
  obtain ⟨hno, -⟩ | ⟨-, ⟨v, hv, hle⟩, -⟩ | ⟨-, -, hnone⟩ := rangeFault_cases s ops
  · exact absurd (hmod.symm.trans hno) Bool.true_eq_false.mp
  · exact absurd (h v hv) hle.not_gt
  · rw [hnone, commit]

/-- Each command that needs a modulus checks for it first (60_exceptions R243). -/
theorem exec_of_no_modulus {s : State} (hmod : s.modv = false) (rd ra rb : Reg) :
    ∀ i ∈ [Instr.montmul rd ra rb, .modmul rd ra rb, .modsqr rd ra, .modexp rd ra rb, .mrwit ra, .oaepenc rd, .oaepdec ra],
      exec i s = .next (s.raise .noModulus) := by
  simp only [List.forall_mem_cons, List.not_mem_nil, false_imp_iff, implies_true, and_true]
  have hcommit := commit_rangeFault_of_no_modulus hmod
  refine ⟨congrArg _ (hcommit _ _), congrArg _ (hcommit _ _), congrArg _ (hcommit _ _), congrArg _ (hcommit _ _), ?_, ?_, ?_⟩
  · simp only [exec, execMrwit, hmod, if_true, commit]
  · simp only [exec, execOaepenc, oaepencFault, hmod, if_true, commit]
  · simp only [exec, execOaepdec, hmod, if_true]

/-- MODMUL and MONTMUL check both operands, MODSQR its one, MODEXP its base (41_modexp R140). -/
theorem exec_of_operand_range {s : State} (hmod : s.modv = true) (rd ra rb : Reg) :
    ((s.n ≤ s.getX ra ∨ s.n ≤ s.getX rb) →
      exec (.montmul rd ra rb) s = .next (s.raise .operandRange)
      ∧ exec (.modmul rd ra rb) s = .next (s.raise .operandRange))
    ∧ (s.n ≤ s.getX ra →
      exec (.modsqr rd ra) s = .next (s.raise .operandRange)
      ∧ exec (.modexp rd ra rb) s = .next (s.raise .operandRange)) := by
  constructor <;> intro hle
  · have hcommit := commit_rangeFault_of_le hmod (show ∃ v ∈ [s.getX ra, s.getX rb], s.n ≤ v by simpa using hle)
    exact ⟨congrArg _ (hcommit _), congrArg _ (hcommit _)⟩
  · have hcommit := commit_rangeFault_of_le hmod (show ∃ v ∈ [s.getX ra], s.n ≤ v by simpa using hle)
    exact ⟨congrArg _ (hcommit _), congrArg _ (hcommit _)⟩

/-! ### The commands within their checks -/

section
variable {s : State} (hmod : s.modv = true) (rd ra rb : Reg) (ha : s.getX ra < s.n)
include hmod ha

theorem exec_montmul_of_lt (hb : s.getX rb < s.n) :
    exec (.montmul rd ra rb) s = .next (s.setX rd (s.montMul (s.getX ra) (s.getX rb))).complete :=
  congrArg _ (commit_rangeFault_of_lt hmod (by simp [ha, hb]) _)

theorem exec_modmul_of_lt (hb : s.getX rb < s.n) :
    exec (.modmul rd ra rb) s = .next (s.setX rd (s.getX ra * s.getX rb % s.n)).complete :=
  congrArg _ (commit_rangeFault_of_lt hmod (by simp [ha, hb]) _)

theorem exec_modsqr_of_lt : exec (.modsqr rd ra) s = .next (s.setX rd (s.getX ra * s.getX ra % s.n)).complete :=
  congrArg _ (commit_rangeFault_of_lt hmod (by simp [ha]) _)

theorem exec_modexp_of_lt : exec (.modexp rd ra rb) s = .next (s.setX rd (s.getX ra ^ s.getX rb % s.n)).complete := by
  rw [← powMod_eq _ _ _ (by omega)]
  exact congrArg _ (commit_rangeFault_of_lt hmod (by simp [ha]) _)

end

/-- N − 1 is a square root of 1 (41_modexp R145). -/
theorem pred_mul_pred_mod {n : Nat} (h3 : 3 ≤ n) : (n - 1) * (n - 1) % n = 1 := by
  obtain ⟨m, rfl⟩ : ∃ m, n = m + 1 := ⟨n - 1, by omega⟩
  have hsq : (m + 1 - 1) * (m + 1 - 1) = 1 + (m + 1) * (m - 1) := by
    obtain ⟨l, rfl⟩ : ∃ l, m = l + 1 := ⟨m - 1, by omega⟩
    simp only [Nat.add_sub_cancel]
    ring
  rw [hsq, Nat.add_mul_mod_self_left, Nat.mod_eq_of_lt (by omega)]

/-! ### The Montgomery multiplier under a loaded modulus -/

/-- The ladder's pair after the bits of `e` above i: the powers for e div 2^i and its successor, in Montgomery form
(41_modexp R147). -/
def State.ladderPair (s : State) (base k : Nat) : Nat × Nat :=
  (base ^ k * 2 ^ s.nbits % s.n, base ^ (k + 1) * 2 ^ s.nbits % s.n)

section
variable {s : State} (hs : s.Inv) (hmod : s.modv = true)
include hs hmod

/-- A loaded modulus is odd, at least 3 and fits the registers (10_state R24). -/
theorem State.Inv.n_bounds : s.n % 2 = 1 ∧ 3 ≤ s.n ∧ s.n < 2 ^ s.nbits := by
  obtain ⟨hodd, h3, hlt, -⟩ := hs.modulus.1 hmod
  exact ⟨hodd, h3, hlt⟩

/-- The radix 2^NBITS can be cancelled modulo N, which is odd. -/
theorem State.Inv.coprime_radix : Nat.Coprime s.n (2 ^ s.nbits) :=
  Nat.Coprime.pow_right _ (Nat.coprime_two_right.2 (Nat.odd_iff.2 (hs.n_bounds hmod).1))

/-- The product is below N, and times the radix it is a·b modulo N (41_modexp R142). -/
theorem State.Inv.montMul_radix {a b : Nat} (ha : a < 2 ^ s.nbits) (hb : b < s.n) :
    s.montMul a b < s.n ∧ s.montMul a b * 2 ^ s.nbits ≡ a * b [MOD s.n] := by
  obtain ⟨-, -, -, -, -, hnp, -⟩ := hs.modulus.1 hmod
  rw [← hs.nw_bits] at ha ⊢
  exact montMul_spec s.nw s.n s.np.toNat a b hnp hb ha

/-- The product is the one value below N that times the radix is a·b modulo N. -/
theorem State.Inv.montMul_eq {a b c : Nat} (ha : a < 2 ^ s.nbits) (hb : b < s.n) (hc : c < s.n)
    (h : c * 2 ^ s.nbits ≡ a * b [MOD s.n]) : s.montMul a b = c := by
  obtain ⟨hlt, hradix⟩ := hs.montMul_radix hmod ha hb
  exact Nat.ModEq.eq_of_lt_of_lt ((hradix.trans h.symm).cancel_right_of_coprime (hs.coprime_radix hmod)) hlt hc

/-- The radix has an inverse modulo N. -/
theorem State.Inv.exists_rinv : ∃ rinv, rinv * 2 ^ s.nbits % s.n = 1 := by
  obtain ⟨-, h3, -⟩ := hs.n_bounds hmod
  obtain ⟨rinv, -, h⟩ := Nat.exists_mul_mod_eq_one_of_coprime (hs.coprime_radix hmod).symm (by omega)
  exact ⟨rinv, by rwa [Nat.mul_comm]⟩

/-- RR is the square of the radix modulo N (10_state R24). -/
theorem State.Inv.rr_eq : s.rr = 2 ^ s.nbits * 2 ^ s.nbits % s.n := by
  obtain ⟨-, -, -, -, -, -, hrr⟩ := hs.modulus.1 hmod
  rw [hrr, two_mul, pow_add]

theorem State.Inv.rr_lt : s.rr < s.n := by
  obtain ⟨-, h3, -⟩ := hs.n_bounds hmod
  rw [hs.rr_eq hmod]
  exact Nat.mod_lt _ (by omega)

/-- A product with RR enters the Montgomery form (41_modexp R142). -/
theorem State.Inv.montMul_rr {a : Nat} (ha : a < 2 ^ s.nbits) : s.montMul a s.rr = a * 2 ^ s.nbits % s.n := by
  refine hs.montMul_eq hmod ha (hs.rr_lt hmod) (Nat.mod_lt _ (by have := hs.n_bounds hmod; omega)) ?_
  calc a * 2 ^ s.nbits % s.n * 2 ^ s.nbits
    _ ≡ a * (2 ^ s.nbits * 2 ^ s.nbits) [MOD s.n] := by
      rw [← Nat.mul_assoc]
      exact (Nat.mod_modEq _ _).mul_right _
    _ ≡ a * s.rr [MOD s.n] := by
      rw [hs.rr_eq hmod]
      exact ((Nat.mod_modEq _ _).mul_left a).symm

/-- With an inverse of the radix, the product is a·b·RINV modulo N (41_modexp R142). -/
theorem State.Inv.montMul_rinv {a b rinv : Nat} (hrinv : rinv * 2 ^ s.nbits % s.n = 1) (ha : a < 2 ^ s.nbits)
    (hb : b < s.n) : s.montMul a b = a * b * rinv % s.n := by
  obtain ⟨-, h3, -⟩ := hs.n_bounds hmod
  have hone : rinv * 2 ^ s.nbits ≡ 1 [MOD s.n] := hrinv.trans (Nat.mod_eq_of_lt (by omega)).symm
  refine hs.montMul_eq hmod ha hb (Nat.mod_lt _ (by omega)) ?_
  calc a * b * rinv % s.n * 2 ^ s.nbits
    _ ≡ a * b * (rinv * 2 ^ s.nbits) [MOD s.n] := by
      rw [← Nat.mul_assoc]
      exact (Nat.mod_modEq _ _).mul_right _
    _ ≡ a * b [MOD s.n] := by simpa using hone.mul_left (a * b)

/-- The datapath of MODMUL and MODSQR gives the plain product (41_modexp R144). -/
theorem State.Inv.mulDatapath_eq {a b : Nat} (ha : a < 2 ^ s.nbits) (hb : b < s.n) : s.mulDatapath a b = a * b % s.n := by
  obtain ⟨-, -, hn⟩ := hs.n_bounds hmod
  obtain ⟨hlt, hradix⟩ := hs.montMul_radix hmod ha hb
  rw [State.mulDatapath, hs.montMul_rr hmod (hlt.trans hn)]
  exact hradix

/-! ### The ladder -/

/-- A product of two values in Montgomery form is the form of their product. -/
theorem State.Inv.montMul_forms (x y : Nat) :
    s.montMul (x * 2 ^ s.nbits % s.n) (y * 2 ^ s.nbits % s.n) = x * y * 2 ^ s.nbits % s.n := by
  obtain ⟨-, h3, hn⟩ := hs.n_bounds hmod
  have hlt : ∀ v, v % s.n < s.n := fun v => Nat.mod_lt v (by omega)
  refine hs.montMul_eq hmod ((hlt _).trans hn) (hlt _) (hlt _) ?_
  calc x * y * 2 ^ s.nbits % s.n * 2 ^ s.nbits
    _ ≡ x * y * 2 ^ s.nbits * 2 ^ s.nbits [MOD s.n] := (Nat.mod_modEq _ _).mul_right _
    _ = x * 2 ^ s.nbits * (y * 2 ^ s.nbits) := by ring
    _ ≡ x * 2 ^ s.nbits % s.n * (y * 2 ^ s.nbits % s.n) [MOD s.n] := ((Nat.mod_modEq _ _).mul (Nat.mod_modEq _ _)).symm

/-- A product with 1 leaves the Montgomery form (41_modexp R142). -/
theorem State.Inv.montMul_form_one (x : Nat) : s.montMul (x * 2 ^ s.nbits % s.n) 1 = x % s.n := by
  obtain ⟨-, h3, hn⟩ := hs.n_bounds hmod
  have hlt : ∀ v, v % s.n < s.n := fun v => Nat.mod_lt v (by omega)
  refine hs.montMul_eq hmod ((hlt _).trans hn) (by omega) (hlt x) ?_
  rw [Nat.mul_one]
  exact ((Nat.mod_modEq x s.n).mul_right _).trans (Nat.mod_modEq _ _).symm

/-- One exponent bit takes the pair for k to the pair for 2k + bit (41_modexp R147). -/
theorem State.Inv.ladderStep_pair (base k bit : Nat) (hbit : bit < 2) :
    ladderStep s.montMul bit (s.ladderPair base k) = s.ladderPair base (2 * k + bit) := by
  have hforms := hs.montMul_forms hmod
  obtain rfl | rfl : bit = 0 ∨ bit = 1 := by omega
  · rw [ladderStep, if_pos rfl, State.ladderPair, hforms, hforms]
    congr 3 <;> ring
  · rw [ladderStep, if_neg one_ne_zero, State.ladderPair, hforms, hforms]
    congr 3 <;> ring

/-- From the pair for the bits above i the loop reaches the pair for all of `e` (41_modexp R147). -/
theorem State.Inv.ladderLoop_pair (base e i : Nat) :
    ladderLoop s.montMul e i (s.ladderPair base (e / 2 ^ i)) = s.ladderPair base e := by
  induction i with
  | zero => rw [ladderLoop, pow_zero, Nat.div_one]
  | succ i ih =>
    have hbit : bitField e i i = e / 2 ^ i % 2 := by simp [bitField]
    have hbits : 2 * (e / 2 ^ (i + 1)) + e / 2 ^ i % 2 = e / 2 ^ i := by
      rw [pow_succ, ← Nat.div_div_eq_div_mul]
      omega
    rw [ladderLoop, hbit, hs.ladderStep_pair hmod base _ _ (Nat.mod_lt _ two_pos), hbits, ih]

/-- The ladder computes the power (41_modexp R147). -/
theorem State.Inv.ladder_eq {base e : Nat} (hbase : base < s.n) (he : e < 2 ^ s.nbits) :
    s.ladder base e = base ^ e % s.n := by
  obtain ⟨-, h3, hn⟩ := hs.n_bounds hmod
  have hstart : (s.montMul 1 s.rr, s.montMul base s.rr) = s.ladderPair base (e / 2 ^ s.nbits) := by
    rw [hs.montMul_rr hmod (by omega), hs.montMul_rr hmod (hbase.trans hn), Nat.div_eq_of_lt he]
    simp [State.ladderPair]
  rw [State.ladder, hstart, hs.ladderLoop_pair hmod, State.ladderPair, hs.montMul_form_one hmod]

end

end Sys2Proof.Machine

open Sys2Proof Sys2Proof.Machine

/-- Settles O17: the check for a modulus is the first of each. -/
theorem noModulusFaults : Obligations.NoModulusFaults := fun rd ra rb _ hmod => exec_of_no_modulus hmod rd ra rb

/-- Settles O18: with a modulus loaded the check of the operands decides. -/
theorem operandAtOrAboveTheModulusFaults : Obligations.OperandAtOrAboveTheModulusFaults :=
  fun rd ra rb _ hmod => exec_of_operand_range hmod rd ra rb

/-- Settles O19: within the checks both commands write the residue. -/
theorem modmulAndModsqrWriteTheProduct : Obligations.ModmulAndModsqrWriteTheProduct := by
  intro rd ra rb s hmod ha
  refine ⟨fun hb => writes_of_exec_eq (exec_modmul_of_lt hmod rd ra rb ha hb), ?square⟩
  obtain ⟨t, hexec, hX, honly⟩ := writes_of_exec_eq (exec_modsqr_of_lt hmod rd ra ha)
  refine ⟨t, hexec, hX, honly, fun h3 hpred => ?_⟩
  rw [hX, hpred, pred_mul_pred_mod h3]

/-- Settles O20: within the check of the base MODEXP writes the power. -/
theorem modexpWritesThePower : Obligations.ModexpWritesThePower := by
  intro rd ra rb s hmod ha
  obtain ⟨t, hexec, hX, honly⟩ := writes_of_exec_eq (exec_modexp_of_lt hmod rd ra rb ha)
  refine ⟨t, hexec, hX, honly, fun h3 hzero => ?_⟩
  rw [hX, hzero, pow_zero, Nat.mod_eq_of_lt (by omega)]

/-- Settles O21: the radix is cancelled modulo the odd N, so the product is determined by its multiple by the radix. -/
theorem montgomeryMultiplierMeetsItsLaw : Obligations.MontgomeryMultiplierMeetsItsLaw := by
  intro s a b hs hmod ha hb
  obtain ⟨-, h3, hn⟩ := hs.n_bounds hmod
  have ha' : a < 2 ^ s.nbits := ha.trans hn
  refine ⟨hs.exists_rinv hmod, fun rinv hrinv => ⟨(hs.montMul_radix hmod ha' hb).1, ?_⟩⟩
  refine ⟨hs.montMul_rinv hmod hrinv ha' hb, hs.montMul_rr hmod ha', ?_, hs.mulDatapath_eq hmod ha' hb⟩
  rw [hs.montMul_rinv hmod hrinv ha' (by omega), Nat.mul_one]

/-- Settles O22: MONTMUL writes the multiplier's product. -/
theorem montmulWritesTheMontgomeryProduct : Obligations.MontmulWritesTheMontgomeryProduct := by
  intro rd ra rb s hs hmod ha hb
  obtain ⟨hlt, hradix⟩ := hs.montMul_radix hmod (ha.trans (hs.n_bounds hmod).2.2) hb
  obtain ⟨t, hexec, hX, honly⟩ := writes_of_exec_eq (exec_montmul_of_lt hmod rd ra rb ha hb)
  rw [← hX] at hlt hradix
  exact ⟨t, hexec, hlt, hradix, honly⟩

/-- Settles O23: the ladder keeps its pair of powers, bit by bit. -/
theorem ladderComputesThePower : Obligations.LadderComputesThePower := fun _ _ _ hs hmod => hs.ladder_eq hmod

end

section
/-! PROOFS. The modular inverse and the primality tester (spec/42_miller_rabin.md). -/

namespace Sys2Proof.Machine

/-! ### MODINV -/

theorem exec_modinv_of_error {s : State} (rd : Reg) {ra rb : Reg} {e : ErrCode}
    (h : modInverse (s.getX ra) (s.getX rb) = .error e) : exec (.modinv rd ra rb) s = .next (s.raise e) := by
  simp only [exec, execModinv, h]

theorem exec_modinv_of_ok {s : State} (rd : Reg) {ra rb : Reg} {t : Nat}
    (h : modInverse (s.getX ra) (s.getX rb) = .ok t) : exec (.modinv rd ra rb) s = .next (s.setX rd t).complete := by
  simp only [exec, execModinv, h]

/-- An inverse below the modulus is unique (42_miller_rabin R163). -/
theorem inverse_unique {v m t u : Nat} (hg : Nat.gcd v m = 1) (ht : t < m) (hu : u < m) (hvt : v * t % m = 1)
    (hvu : v * u % m = 1) : u = t := by
  have hmul : v * u ≡ v * t [MOD m] := hvu.trans hvt.symm
  exact Nat.ModEq.eq_of_lt_of_lt (hmul.cancel_left_of_coprime (Nat.gcd_comm v m ▸ hg)) hu ht

/-! ### Euclid's loop within its bound

The product of the two remainders at least halves in every iteration, so a loop of `fuel` iterations that starts with a
product below 2^fuel has ended, and more fuel changes nothing (42_miller_rabin R164, 70_reset_and_hazards R290). -/

/-- A remainder is less than half of what was divided. -/
theorem two_mul_mod_le {r0 r1 : Nat} (h1 : r1 ≠ 0) (hlt : r1 < r0) : 2 * (r0 % r1) ≤ r0 := by
  have hmod : r0 % r1 < r1 := Nat.mod_lt _ (by omega)
  have hdiv : r1 * 1 ≤ r1 * (r0 / r1) := Nat.mul_le_mul_left r1 (Nat.div_pos hlt.le (by omega))
  have hsum := Nat.div_add_mod r0 r1
  omega

theorem euclidLoop_add_fuel (fuel extra r0 r1 : Nat) (t0 t1 : Int) (hlt : r1 < r0) (hf : r0 * r1 < 2 ^ fuel) :
    euclidLoop (fuel + extra) r0 r1 t0 t1 = euclidLoop fuel r0 r1 t0 t1 := by
  induction fuel generalizing r0 r1 t0 t1 with
  | zero =>
    have hzero : r1 = 0 := by
      rcases Nat.mul_eq_zero.1 (by omega : r0 * r1 = 0) with h | h <;> omega
    cases extra with
    | zero => rfl
    | succ extra => rw [Nat.zero_add, euclidLoop, euclidLoop, if_pos hzero]
  | succ fuel ih =>
    rw [Nat.succ_add_eq_add_succ, Nat.add_succ, euclidLoop, euclidLoop]
    by_cases h1 : r1 = 0
    · rw [if_pos h1, if_pos h1]
    · have hmod : r0 - r0 / r1 * r1 = r0 % r1 := by
        rw [Nat.mul_comm, Nat.mod_eq_sub_mul_div]
      have hhalf : r1 * (2 * (r0 % r1)) ≤ r1 * r0 := Nat.mul_le_mul_left r1 (two_mul_mod_le h1 hlt)
      simp only [if_neg h1, hmod]
      refine ih _ _ _ _ (Nat.mod_lt _ (by omega)) ?_
      rw [pow_succ, Nat.mul_comm r0 r1] at hf
      rw [Nat.mul_left_comm] at hhalf
      omega

/-- Below 2^NBITS the cut loop answers what an uncut one does. -/
theorem inverseDatapath_eq (s : State) {a m : Nat} (ham : a < m) (hm : m < 2 ^ s.nbits) :
    s.inverseDatapath a m = euclidInverse (2 * s.nbits + 2 + (a + 1)) a m := by
  have hprod : m * a < 2 ^ (2 * s.nbits + 2) :=
    calc m * a
      _ < 2 ^ s.nbits * 2 ^ s.nbits := Nat.mul_lt_mul'' hm (ham.trans hm)
      _ = 2 ^ (2 * s.nbits) := by rw [two_mul, pow_add]
      _ ≤ 2 ^ (2 * s.nbits + 2) := Nat.pow_le_pow_right two_pos (by omega)
  simp only [State.inverseDatapath, euclidInverse, euclidLoop_add_fuel _ (a + 1) m a 0 1 ham hprod]

/-! ### The verdict of a command -/

/-- A command that sets P and completes has set it to its value and changed nothing else. -/
theorem verdict_of_exec_eq {i : Instr} {s : State} {b : Bool} (h : exec i s = .next (s.setVerdict b).complete) :
    ∃ t, exec i s = .next t ∧ t.p = b ∧ onlyVerdict s t :=
  ⟨_, h, rfl, fun _ => rfl, ⟨rfl, rfl, rfl, rfl, rfl, rfl⟩, ⟨rfl, fun _ => rfl⟩, ⟨rfl, fun _ => rfl⟩, rfl,
    completedFrom_complete (s.setVerdict b)⟩

/-! ### MRWIT -/

theorem exec_mrwit_of_bad {s : State} {ra : Reg} (hmod : s.modv = true) (hbad : s.getX ra < 2 ∨ s.n < s.getX ra + 2) :
    exec (.mrwit ra) s = .next (s.raise .operandRange) := by
  simp only [exec, execMrwit, hmod, Bool.true_eq_false, if_false, if_pos hbad, commit]

theorem exec_mrwit_of_witness {s : State} {ra : Reg} (hmod : s.modv = true) (h2 : 2 ≤ s.getX ra)
    (hle : s.getX ra + 2 ≤ s.n) : exec (.mrwit ra) s = .next (s.setVerdict (mrRound s.n (s.getX ra))).complete := by
  have hrange : ¬(s.getX ra < 2 ∨ s.n < s.getX ra + 2) := by omega
  simp only [exec, execMrwit, hmod, Bool.true_eq_false, if_false, if_neg hrange, commit]

/-! ### The datapath of a round -/

section
variable {s : State} (hs : s.Inv) (hmod : s.modv = true)
include hs hmod

/-- The Montgomery squarings are the squarings (42_miller_rabin R162). -/
theorem State.Inv.squareDatapath_eq (steps : Nat) {x : Nat} (hx : x < s.n) :
    s.squareDatapath steps x = squareLoop s.n steps x := by
  obtain ⟨-, -, hn⟩ := hs.n_bounds hmod
  induction steps generalizing x with
  | zero => rfl
  | succ steps ih =>
    have hsq : x * x % s.n < s.n := Nat.mod_lt _ (by omega)
    simp only [State.squareDatapath, squareLoop, hs.mulDatapath_eq hmod (hx.trans hn) hx, ih hsq]

theorem State.Inv.roundDatapath_eq {a : Nat} (ha : a < s.n) : s.roundDatapath a = mrRound s.n a := by
  obtain ⟨hodd, h3, hn⟩ := hs.n_bounds hmod
  obtain ⟨hdecomp, -, -⟩ := decomp_spec s.n h3 hodd
  have hd : (decomp s.n).1 ≤ s.n - 1 := hdecomp ▸ Nat.le_mul_of_pos_right _ (Nat.two_pow_pos _)
  have hpow : s.ladder a (decomp s.n).1 = powMod a (decomp s.n).1 s.n := by
    rw [hs.ladder_eq hmod ha (by omega), powMod_eq _ _ _ (by omega)]
  have hx : powMod a (decomp s.n).1 s.n < s.n := by
    rw [powMod_eq _ _ _ (by omega)]
    exact Nat.mod_lt _ (by omega)
  simp only [State.roundDatapath, mrRound, hpow, hs.squareDatapath_eq hmod _ hx]

end

/-! ### ISPRIME -/

/-- What ISPRIME makes of the state for a candidate that reaches the witnesses (42_miller_rabin R166). -/
def State.tested (s : State) (n rounds : Nat) : State :=
  { (s.loadModulus n).setVerdict ((witnesses n rounds s.draws).all (mrRound n)) with
    draws := s.draws + witnessDraws n rounds }

theorem exec_isprime_of_le_one {s : State} {ra : Reg} (rounds : Nat) (h : s.getX ra ≤ 1) :
    exec (.isprime ra rounds) s = .next (s.setVerdict false).complete := by
  simp only [exec, execIsprime, if_pos h]

theorem exec_isprime_of_two_or_three {s : State} {ra : Reg} (rounds : Nat) (h2 : 2 ≤ s.getX ra) (h3 : s.getX ra ≤ 3) :
    exec (.isprime ra rounds) s = .next (s.setVerdict true).complete := by
  simp only [exec, execIsprime, if_neg (by omega : ¬s.getX ra ≤ 1), if_pos h3]

theorem exec_isprime_of_even {s : State} {ra : Reg} (rounds : Nat) (h3 : 3 < s.getX ra) (heven : s.getX ra % 2 = 0) :
    exec (.isprime ra rounds) s = .next (s.setVerdict false).complete := by
  simp only [exec, execIsprime, if_neg (by omega : ¬s.getX ra ≤ 1), if_neg h3.not_ge, if_pos heven]

theorem exec_isprime_of_odd {s : State} {ra : Reg} (rounds : Nat) (h3 : 3 < s.getX ra) (hodd : s.getX ra % 2 = 1) :
    exec (.isprime ra rounds) s = .next (s.tested (s.getX ra) rounds).complete := by
  simp only [exec, execIsprime, if_neg (by omega : ¬s.getX ra ≤ 1), if_neg h3.not_ge,
    if_neg (by omega : ¬s.getX ra % 2 = 0), State.tested]

/-- ISPRIME touches the modulus, P and the draws alone (42_miller_rabin R166). -/
theorem frame_tested (s : State) (n rounds : Nat) :
    sameRegs s (s.tested n rounds).complete ∧ sameMessage s (s.tested n rounds).complete
      ∧ sameOutput s (s.tested n rounds).complete ∧ completedFrom s (s.tested n rounds).complete :=
  ⟨fun _ => rfl, ⟨rfl, fun _ => rfl⟩, ⟨rfl, fun _ => rfl⟩, completedFrom_complete (s.tested n rounds)⟩

theorem holdsModulus_tested (s : State) {n : Nat} (rounds : Nat) (hodd : n % 2 = 1) :
    holdsModulus (s.tested n rounds).complete n :=
  holdsModulus_loadModulus s hodd

/-- P after the test: every witness passes (42_miller_rabin R166). -/
theorem tested_p_iff (s : State) {n : Nat} (rounds : Nat) (h3 : 3 ≤ n) (hodd : n % 2 = 1) :
    (s.tested n rounds).p = true ↔ ∀ a ∈ witnesses n rounds s.draws, roundPasses n a := by
  simp only [State.tested, State.setVerdict_p, List.all_eq_true, mrRound_iff_roundPasses n _ h3 hodd]

/-! ### Witnesses -/

theorem mem_fixedWitnesses {n a : Nat} : a ∈ fixedWitnesses n ↔ a ∈ Config.detWitnesses ∧ a ≤ n - 2 := by
  simp [fixedWitnesses]

theorem two_le_of_mem_detWitnesses : ∀ a ∈ Config.detWitnesses, 2 ≤ a := by decide

/-- Every witness, fixed or drawn, lies in 2 ... n−2 (42_miller_rabin R167). -/
theorem witnesses_bounds {n rounds d a : Nat} (h4 : 4 ≤ n) (ha : a ∈ witnesses n rounds d) : 2 ≤ a ∧ a ≤ n - 2 := by
  unfold witnesses at ha
  split at ha
  · obtain ⟨hdet, hle⟩ := mem_fixedWitnesses.1 ha
    exact ⟨two_le_of_mem_detWitnesses a hdet, hle⟩
  · obtain ⟨j, -, rfl⟩ := List.mem_map.1 ha
    have hmax : 2 ≤ Config.randMax := by decide
    obtain ⟨hlo, hhi⟩ := drawIn_mem 2 (min (n - 2) Config.randMax) (Config.entropyNat (d + j)) (by omega)
    exact ⟨hlo, hhi.trans (min_le_left _ _)⟩

/-! ### A prime passes every round -/

/-- In a field, repeated squaring reaches 1 only from 1 or through −1 (42_miller_rabin R160). -/
theorem eq_one_or_pow_eq_neg_one {F : Type} [Field F] (x : F) (s : Nat) (h : x ^ 2 ^ s = 1) :
    x = 1 ∨ ∃ j < s, x ^ 2 ^ j = -1 := by
  induction s with
  | zero => exact .inl (by simpa using h)
  | succ s ih =>
    rw [pow_succ, pow_mul, pow_two] at h
    obtain hone | hneg := mul_self_eq_one_iff.1 h
    · obtain hx | ⟨j, hj, hneg⟩ := ih hone
      · exact .inl hx
      · exact .inr ⟨j, by omega, hneg⟩
    · exact .inr ⟨s, by omega, hneg⟩

theorem mod_eq_of_cast_eq {n k r : Nat} (hr : r < n) (h : (k : ZMod n) = r) : k % n = r :=
  Nat.mod_eq_of_modEq ((ZMod.natCast_eq_natCast_iff k r n).1 h) hr

/-- A prime passes the round of every witness it does not divide: a^(n−1) is 1 by Fermat, and a^d reaches it by squarings
(42_miller_rabin R160). -/
theorem roundPasses_of_prime {n a : Nat} (hn : n.Prime) (h3 : 3 ≤ n) (ha : ¬n ∣ a) : roundPasses n a := by
  have hodd : n % 2 = 1 := (hn.eq_two_or_odd).resolve_left (by omega)
  obtain ⟨hdecomp, hd, -⟩ := decomp_spec n h3 hodd
  have : Fact n.Prime := ⟨hn⟩
  have hfermat : ((a : ZMod n) ^ (decomp n).1) ^ 2 ^ (decomp n).2 = 1 := by
    rw [← pow_mul, ← hdecomp]
    exact ZMod.pow_card_sub_one_eq_one (mt (ZMod.natCast_eq_zero_iff a n).1 ha)
  refine ⟨_, _, hdecomp, hd, ?_⟩
  obtain hone | ⟨j, hj, hneg⟩ := eq_one_or_pow_eq_neg_one _ _ hfermat
  · exact .inl (mod_eq_of_cast_eq (by omega) (by push_cast; exact hone))
  · refine .inr ⟨j, hj, mod_eq_of_cast_eq (by omega) ?_⟩
    rw [Nat.cast_pow, pow_mul, hneg, Nat.cast_sub (by omega), ZMod.natCast_self, Nat.cast_one, zero_sub]

/-- A witness in 2 ... n−2 is no multiple of n. -/
theorem roundPasses_of_prime_of_bounds {n a : Nat} (hn : n.Prime) (h3 : 3 ≤ n) (h2 : 2 ≤ a) (hle : a ≤ n - 2) :
    roundPasses n a :=
  roundPasses_of_prime hn h3 (Nat.not_dvd_of_pos_of_lt (by omega) (by omega))

/-- MRWIT without a fault sets P for a prime N, so P = 0 proves N composite (42_miller_rabin R168). -/
theorem not_prime_of_mrwit {s t : State} {ra : Reg} (hexec : exec (.mrwit ra) s = .next t) (herr : t.err = none)
    (hp : t.p = false) : ¬s.n.Prime := by
  intro hprime
  cases hmod : s.modv with
  | false =>
    rw [exec_of_no_modulus hmod 0 ra 0 _ (by simp)] at hexec
    cases hexec
    cases herr
  | true =>
    by_cases hrange : s.getX ra < 2 ∨ s.n < s.getX ra + 2
    · rw [exec_mrwit_of_bad hmod hrange] at hexec
      cases hexec
      cases herr
    · rw [exec_mrwit_of_witness hmod (by omega) (by omega)] at hexec
      cases hexec
      have hodd : s.n % 2 = 1 := (hprime.eq_two_or_odd).resolve_left (by omega)
      have hpass := roundPasses_of_prime_of_bounds hprime (by omega) (by omega : 2 ≤ s.getX ra) (by omega)
      rw [← mrRound_iff_roundPasses _ _ (by omega) hodd] at hpass
      exact absurd (hpass.symm.trans hp) Bool.true_eq_false.mp

/-- ISPRIME of a prime sets P, whatever was drawn, so P = 0 proves the candidate not prime (42_miller_rabin R168). -/
theorem not_prime_of_isprime {s t : State} {ra : Reg} {rounds : Nat} (hexec : exec (.isprime ra rounds) s = .next t)
    (hp : t.p = false) : ¬(s.getX ra).Prime := by
  intro hprime
  by_cases h3 : s.getX ra ≤ 3
  · rw [exec_isprime_of_two_or_three rounds hprime.two_le h3] at hexec
    cases hexec
    cases hp
  · have hodd : s.getX ra % 2 = 1 := (hprime.eq_two_or_odd).resolve_left (by omega)
    rw [exec_isprime_of_odd rounds (by omega) hodd] at hexec
    cases hexec
    have hpass : (s.tested (s.getX ra) rounds).p = true := (tested_p_iff s rounds (by omega) hodd).2 fun a ha => by
      obtain ⟨h2, hle⟩ := witnesses_bounds (by omega) ha
      exact roundPasses_of_prime_of_bounds hprime (by omega) h2 hle
    exact absurd (hpass.symm.trans hp) Bool.true_eq_false.mp

end Sys2Proof.Machine

open Sys2Proof Sys2Proof.Machine

/-- Settles O24: Euclid's loop gives an inverse below the modulus, and a coprime operand has one such inverse. -/
theorem modinvWritesTheInverse : Obligations.ModinvWritesTheInverse := by
  intro rd ra rb s hm hg
  obtain ⟨hlt, -⟩ | ⟨-, hne, -⟩ | ⟨-, -, v, hinv, h1, hlt, hmul⟩ := modInverse_cases (s.getX ra) (s.getX rb)
  · omega
  · exact absurd hg hne
  · obtain ⟨t, hexec, rfl, honly⟩ := writes_of_exec_eq (exec_modinv_of_ok rd hinv)
    exact ⟨t, hexec, h1, by omega, hmul, honly, fun u _ hu hvu => inverse_unique hg hlt (by omega) hmul hvu⟩

/-- Settles O25: the modulus is checked first; without an inverse Euclid's loop ends at another divisor than 1. -/
theorem modinvFaultsWithoutAnInverse : Obligations.ModinvFaultsWithoutAnInverse := by
  intro rd ra rb s
  obtain ⟨hlt, hfault⟩ | ⟨hm, hne, hfault⟩ | ⟨hm, hg, -⟩ := modInverse_cases (s.getX ra) (s.getX rb)
  · exact ⟨fun _ => exec_modinv_of_error rd hfault, fun hm => absurd hlt hm.not_gt⟩
  · exact ⟨fun hlt => absurd hlt hm.not_gt, fun _ _ => exec_modinv_of_error rd hfault⟩
  · exact ⟨fun hlt => absurd hlt hm.not_gt, fun _ hne => absurd hg hne⟩

/-- Settles O26: the cut loop has ended, so it answers what the loop with enough fuel answers. -/
theorem euclidEndsWithinItsBound : Obligations.EuclidEndsWithinItsBound := by
  intro s a m hm ham hlt
  rw [inverseDatapath_eq s ham hlt]
  exact euclidInverse_spec _ a m hm (by omega)

/-- Settles O27: MRWIT sets P to the round, which decides `roundPasses`. -/
theorem mrwitSetsTheVerdictOfTheRound : Obligations.MrwitSetsTheVerdictOfTheRound := by
  intro ra s hmod hodd h2 hle
  obtain ⟨t, hexec, hp, honly⟩ := verdict_of_exec_eq (exec_mrwit_of_witness hmod h2 hle)
  exact ⟨t, hexec, by rw [hp, mrRound_iff_roundPasses _ _ (by omega) hodd], honly⟩

/-- Settles O28: the range check comes before the round, and leaves no witness for N = 3. -/
theorem mrwitRefusesAWitnessOutOfRange : Obligations.MrwitRefusesAWitnessOutOfRange :=
  fun _ _ hmod hbad => exec_mrwit_of_bad hmod (by omega)

/-- Settles O29: the ladder gives the power and the Montgomery squarings the squares, so the datapath is the round. -/
theorem roundDatapathGivesTheVerdict : Obligations.RoundDatapathGivesTheVerdict := by
  intro s a hs hmod ha
  obtain ⟨hodd, h3, -⟩ := hs.n_bounds hmod
  rw [hs.roundDatapath_eq hmod ha, mrRound_iff_roundPasses s.n a h3 hodd]

/-- Settles O30: each trivial exit sets P alone. -/
theorem isprimeDecidesTheTrivialCandidates : Obligations.IsprimeDecidesTheTrivialCandidates :=
  fun _ rounds _ => ⟨fun h => verdict_of_exec_eq (exec_isprime_of_le_one rounds h),
    fun h2 h3 => verdict_of_exec_eq (exec_isprime_of_two_or_three rounds h2 h3),
    fun h3 heven => verdict_of_exec_eq (exec_isprime_of_even rounds h3 heven)⟩

/-- Settles O31: below the bound the witnesses are the listed ones that are at most n − 2. -/
theorem isprimeBelowTheBoundUsesTheFixedWitnesses : Obligations.IsprimeBelowTheBoundUsesTheFixedWitnesses := by
  intro ra rounds s h5 hodd hlt
  have hwitnesses : witnesses (s.getX ra) rounds s.draws = fixedWitnesses (s.getX ra) := if_pos hlt
  have hdraws : witnessDraws (s.getX ra) rounds = 0 := if_pos hlt
  refine ⟨_, exec_isprime_of_odd rounds (by omega) hodd, ?verdict, holdsModulus_tested s rounds hodd, ?draws,
    frame_tested s _ _⟩
  case verdict =>
    rw [State.complete_p, tested_p_iff s rounds (by omega) hodd, hwitnesses]
    simp only [mem_fixedWitnesses, and_imp, Config.detWitnesses]
  case draws => rw [State.complete_draws, State.tested, hdraws, Nat.add_zero]

/-- Settles O32: at or above the bound the witnesses are the next draws, whose upper limit is below n − 2. -/
theorem isprimeAboveTheBoundUsesDrawnWitnesses : Obligations.IsprimeAboveTheBoundUsesDrawnWitnesses := by
  intro ra rounds s hodd hle
  have hnot : ¬s.getX ra < Config.detBound := hle.not_gt
  have hmax : min (s.getX ra - 2) Config.randMax = 1048576 := min_eq_right (by simp only [Config.randMax]; omega)
  have hwitnesses : witnesses (s.getX ra) rounds s.draws
      = (List.range rounds).map fun j => rngRange 2 1048576 (s.draws + j) := by
    rw [witnesses, if_neg hnot, hmax]
  have hdraws : witnessDraws (s.getX ra) rounds = rounds := if_neg hnot
  refine ⟨_, _, exec_isprime_of_odd rounds (by omega) hodd, rfl, ?range, ?verdict, holdsModulus_tested s rounds hodd, ?draws,
    frame_tested s _ _⟩
  case range =>
    intro a ha
    obtain ⟨j, -, rfl⟩ := List.mem_map.1 ha
    exact drawIn_mem 2 1048576 _ (by decide)
  case verdict => rw [State.complete_p, tested_p_iff s rounds (by omega) hodd, hwitnesses]
  case draws => rw [State.complete_draws, State.tested, hdraws]

/-- Settles O33: a prime passes every round, by Fermat and because 1 has two square roots alone. -/
theorem failedVerdictProvesComposite : Obligations.FailedVerdictProvesComposite :=
  ⟨fun _ _ _ h5 h2 hle hfail hprime => hfail (roundPasses_of_prime_of_bounds hprime (by omega) h2 hle),
    fun _ _ _ _ => ⟨not_prime_of_mrwit, not_prime_of_isprime⟩⟩

end

section
/-! PROOFS. Masking (spec/43_oaep_mgf1.md): the mask generator (R181, R182), what OAEPENC writes (R183, R184) and what
OAEPDEC writes (R185, R186). -/

namespace Sys2Proof.Machine

/-! ### The hash-counter loop -/

section
variable (h : List Byte → List Byte) (hlen : ∀ s, (h s).length = 32)

/-- The digests of the counters below `n`, in order (43_oaep_mgf1 R181). -/
def digests (seed : List Byte) (n : Nat) : List Byte := (List.range n).flatMap fun c => h (seed ++ be32 c)

theorem digests_succ (seed : List Byte) (n : Nat) : digests h seed (n + 1) = digests h seed n ++ h (seed ++ be32 n) := by
  simp only [digests, List.range_succ, List.flatMap_append, List.flatMap_singleton]

include hlen

/-- With `fuel` requests left to the bound, the loop makes all of them: the digests so far are too short until the last
(43_oaep_mgf1 R181, 70_reset_and_hazards R290). -/
theorem mgf1Loop_digests (seed : List Byte) (len fuel c : Nat) (hbound : c + fuel = (len + 31) / 32) :
    mgf1Loop h seed len fuel c (digests h seed c) = digests h seed (c + fuel) := by
  induction fuel generalizing c with
  | zero => rfl
  | succ fuel ih =>
    have hshort : (digests h seed c).length < len := by
      rw [digests, length_digests h hlen]
      omega
    rw [mgf1Loop, if_pos hshort, ← digests_succ, ih (c + 1) (by omega), Nat.succ_add_eq_add_succ]

/-- The loop computes the mask (43_oaep_mgf1 R181). -/
theorem mgf1Datapath_eq (seed : List Byte) (len : Nat) : mgf1Datapath h seed len = mgf1 h seed len := by
  have hloop := mgf1Loop_digests h hlen seed len ((len + 31) / 32) 0 (Nat.zero_add _)
  rw [Nat.zero_add] at hloop
  exact congrArg (List.take len) hloop

/-- A shorter mask is the beginning of a longer one: byte i of both is the same byte of the same digest
(43_oaep_mgf1 R181). -/
theorem mgf1_take (seed : List Byte) {len shorter : Nat} (hle : shorter ≤ len) :
    mgf1 h seed shorter = (mgf1 h seed len).take shorter := by
  have hlength := length_mgf1 h hlen seed
  refine List.ext_getElem (by simp [hlength, hle]) fun i hi _ => ?_
  rw [hlength] at hi
  have hbyte := (mgf1_getD h hlen seed shorter i hi).trans (mgf1_getD h hlen seed len i (by omega)).symm
  simpa [hlength, hi, show i < len by omega] using hbyte

/-- An encoded message starts with a zero byte, so its integer fits in one byte less (43_oaep_mgf1 R183). -/
theorem os2ip_oaepEncode_lt (msg : List Byte) (k : Nat) (seed : List Byte) (hk : msg.length + 66 ≤ k)
    (hseed : seed.length = 32) : os2ip (oaepEncode h msg k seed) < 256 ^ (k - 1) := by
  have hlength := length_oaepEncode h hlen msg k seed hk hseed
  obtain ⟨tail, htail⟩ : ∃ tail, oaepEncode h msg k seed = [0] ++ tail := ⟨_, List.append_assoc _ _ _⟩
  have hzero : os2ip (oaepEncode h msg k seed) = os2ip tail := by
    rw [htail, os2ip_append]
    simp [os2ip]
  rw [htail, List.length_append, List.length_singleton] at hlength
  rw [hzero, ← hlength, Nat.add_sub_cancel_left]
  exact os2ip_lt tail

end

/-- The decoder answers the bytes after the first 0x01 behind the label hash (43_oaep_mgf1 R185). -/
theorem oaepDecode_of_separator {h : List Byte → List Byte} {em : List Byte} {k i : Nat}
    (hprefix : (recoverDB h em k).take 32 = h []) (h32 : 32 ≤ i) (hi : i < (recoverDB h em k).length)
    (hsep : (recoverDB h em k).getD i 0 = 1) (hfirst : ∀ j, 32 ≤ j → j < i → (recoverDB h em k).getD j 0 ≠ 1) :
    oaepDecode h em k = .ok ((recoverDB h em k).drop (i + 1)) := by
  have hshift : ∀ j, ((recoverDB h em k).drop 32).getD j 0 = (recoverDB h em k).getD (32 + j) 0 := fun j => by
    simp [List.getD_eq_getElem?_getD]
  have hscan : afterSeparator ((recoverDB h em k).drop 32) = some ((recoverDB h em k).drop (i + 1)) := by
    refine (afterSeparator_eq_some _ _).2 ⟨i - 32, ?_, ?_, fun j hj => ?_, ?_⟩
    · rw [List.length_drop]
      omega
    · rw [hshift, show 32 + (i - 32) = i by omega, hsep]
    · rw [hshift]
      exact hfirst _ (by omega) (by omega)
    · rw [List.drop_drop, show 32 + (i - 32 + 1) = i + 1 by omega]
  simp only [oaepDecode, hprefix, hscan, ne_eq, not_true_eq_false, if_false]

/-! ### The buffers and the modulus -/

/-- A buffer has at most 1024 bytes, so a length that fits it fits the 16 bits of OLEN (00_scope R6). -/
theorem bufMax_le {s : State} (hwidth : legalWidth s.nbits) : s.bufMax ≤ 1024 := by
  simp only [State.bufMax]
  omega

/-- One byte less than an integer needs holds smaller integers alone (00_scope R12). -/
theorem pow_pred_byteLen_le {n : Nat} (hn : n ≠ 0) : 256 ^ (byteLen (bitlen n) - 1) ≤ n := by
  obtain ⟨-, hbyte⟩ := byteLen_bounds (bitlen n)
  calc 256 ^ (byteLen (bitlen n) - 1)
    _ = 2 ^ (8 * (byteLen (bitlen n) - 1)) := (pow_mul 2 8 _).symm
    _ ≤ 2 ^ (bitlen n - 1) := Nat.pow_le_pow_right two_pos (by omega)
    _ ≤ n := two_pow_bitlen_le n hn

section
variable {s : State} (hs : s.Inv) (hmod : s.modv = true)
include hs hmod

/-- The bytes of N fit a buffer (10_state R24). -/
theorem State.Inv.k_le_bufMax : s.k ≤ s.bufMax := by
  obtain ⟨-, -, hn⟩ := hs.n_bounds hmod
  obtain ⟨h32, -, -⟩ := hs.width
  have hlen := bitlen_le s.n s.nbits hn
  simp only [hs.k_eq hmod, byteLen, State.bufMax]
  omega

/-- An integer of one byte less than N is below N (10_state R24). -/
theorem State.Inv.pow_pred_k_le : 256 ^ (s.k - 1) ≤ s.n := by
  obtain ⟨-, h3, -⟩ := hs.n_bounds hmod
  rw [hs.k_eq hmod]
  exact pow_pred_byteLen_le (by omega)

end

/-! ### The commands -/

/-- A command that writes OB and completes has written the bytes, zeros after them and their number, and nothing else. -/
theorem outputs_of_exec_eq {i : Instr} {s : State} {bytes : List Byte} (hlen : bytes.length < 2 ^ 16)
    (h : exec i s = .next (s.setOutput bytes).complete) :
    ∃ t, exec i s = .next t ∧ t.olen.toNat = bytes.length ∧ (∀ j, t.ob.readByte j = bytes.getD j 0) ∧ onlyOutput s t :=
  ⟨_, h, Nat.mod_eq_of_lt hlen, Memory.readByte_ofBytes bytes, fun _ => rfl, ⟨rfl, rfl, rfl, rfl, rfl, rfl⟩, rfl,
    ⟨rfl, fun _ => rfl⟩, rfl, completedFrom_complete (s.setOutput bytes)⟩

theorem exec_mgf1_of_fit {s : State} {len : Nat} (hseed : s.mlen.toNat ≤ s.bufMax) (hlen : len ≤ s.bufMax) :
    exec (.mgf1 len) s = .next (s.setOutput (mgf1 Config.H s.message len)).complete := by
  simp only [exec, execMgf1, hseed.not_gt, hlen.not_gt, or_self, if_false, commit]

theorem exec_mgf1_of_long {s : State} {len : Nat} (hlong : s.bufMax < s.mlen.toNat ∨ s.bufMax < len) :
    exec (.mgf1 len) s = .next (s.raise .length) := by
  simp only [exec, execMgf1, if_pos hlong, commit]

theorem exec_oaepenc_of_fault {s : State} (rd : Reg) {e : ErrCode} (h : oaepencFault s = some e) :
    exec (.oaepenc rd) s = .next (s.raise e) := by
  simp only [exec, execOaepenc, h, commit]

theorem oaepencFault_of_long {s : State} (hmod : s.modv = true) (hlong : s.bufMax < s.mlen.toNat) :
    oaepencFault s = some .length := by
  simp only [oaepencFault, hmod, hlong, Bool.true_eq_false, if_true, if_false]

theorem oaepencFault_of_unfit {s : State} (hmod : s.modv = true) (hlen : s.mlen.toNat ≤ s.bufMax)
    (hunfit : s.k < s.mlen.toNat + 66) : oaepencFault s = some .msgTooLong := by
  simp only [oaepencFault, hmod, hlen.not_gt, hunfit, Bool.true_eq_false, if_true, if_false]

end Sys2Proof.Machine

open Sys2Proof Sys2Proof.Machine

/-- Settles O34: MGF1 outputs the mask of the message, byte by byte. -/
theorem mgf1FillsTheOutputBuffer : Obligations.Mgf1FillsTheOutputBuffer := by
  intro len s hwidth hseed hlen
  have hlength := length_mgf1 Config.H length_H s.message len
  have hmax := bufMax_le hwidth
  obtain ⟨t, hexec, holen, hob, honly⟩ := outputs_of_exec_eq (by omega) (exec_mgf1_of_fit hseed hlen)
  refine ⟨t, hexec, holen.trans hlength, fun i hi => ?mask, fun i hi => ?zeros, honly⟩
  case mask => exact (hob i).trans (mgf1_getD Config.H length_H s.message len i hi)
  case zeros => exact (hob i).trans (List.getD_eq_default _ _ (hlength.trans_le hi))

/-- Settles O35: MGF1 checks both lengths first. -/
theorem mgf1RefusesALengthBeyondTheBuffer : Obligations.Mgf1RefusesALengthBeyondTheBuffer := fun _ _ => exec_mgf1_of_long

/-- Settles O36: the loop makes every request of its bound, and the bytes of a mask do not depend on its length. -/
theorem maskLoopComputesTheMask : Obligations.MaskLoopComputesTheMask :=
  fun h seed len hlen => ⟨mgf1Datapath_eq h hlen seed len, length_mgf1 h hlen seed len, fun _ => mgf1_take h hlen seed⟩

/-- Settles O37: OAEPENC writes the encoded message, whose first byte is zero, so it is below N. -/
theorem oaepencWritesTheEncodedMessage : Obligations.OaepencWritesTheEncodedMessage := by
  intro rd s hs hmod hlen hk
  have hdb : dataBlock Config.H s.message s.k
      = Config.H [] ++ List.replicate (s.k - s.mlen.toNat - 66) 0 ++ [1] ++ s.mb.bytes s.mlen.toNat := by
    rw [dataBlock, State.length_message, State.message]
  have hlt := os2ip_oaepEncode_lt Config.H length_H s.message s.k (rngBytes32 s.draws) (by simpa using hk)
    (length_rngBytes32 s.draws)
  refine ⟨_, _, _, _, exec_oaepenc_of_fit rd hmod hlen hk, rfl, length_rngBytes32 s.draws, hdb, rfl, ?value, ?below, rfl,
    ?frame⟩
  case value => exact State.getX_setX_self _ rd _
  case below =>
    rw [State.complete_getX, State.getX_setX_self]
    exact hlt.trans_le (hs.pow_pred_k_le hmod)
  case frame =>
    exact ⟨fun i hi => State.getX_setX_other _ rd i _ hi, ⟨rfl, rfl, rfl, rfl, rfl, rfl⟩, rfl, ⟨rfl, fun _ => rfl⟩,
      ⟨rfl, fun _ => rfl⟩, completedFrom_complete (({ s with draws := s.draws + 1 } : State).setX rd _)⟩

/-- Settles O38: the checks stand in the order of R184, before the draw. -/
theorem oaepencRefusesAnUnfitMessage : Obligations.OaepencRefusesAnUnfitMessage :=
  fun rd _ hmod => ⟨fun hlong => exec_oaepenc_of_fault rd (oaepencFault_of_long hmod hlong),
    fun hlen hunfit => exec_oaepenc_of_fault rd (oaepencFault_of_unfit hmod hlen hunfit)⟩

/-- Settles O39: OAEPDEC outputs what follows the separator. -/
theorem oaepdecWritesTheRecoveredMessage : Obligations.OaepdecWritesTheRecoveredMessage := by
  intro ra s db i hs hmod hk hv hdb hprefix h32 hi hsep hfirst
  have hlength : db.length = s.k - 33 := hdb ▸ length_recoverDB Config.H length_H _ s.k (length_i2osp _ _)
  have hdecode : oaepDecode Config.H (i2osp (s.getX ra) s.k) s.k = .ok (db.drop (i + 1)) := by
    subst hdb
    exact oaepDecode_of_separator hprefix h32 (hlength ▸ hi) hsep hfirst
  have hexec := exec_oaepdec_of_fit hmod hk hv
  rw [hdecode, State.afterDecode] at hexec
  have hmsg : (db.drop (i + 1)).length = s.k - 33 - (i + 1) := by rw [List.length_drop, hlength]
  have hmax := (hs.k_le_bufMax hmod).trans (bufMax_le hs.width)
  obtain ⟨t, ht, holen, hob, honly⟩ := outputs_of_exec_eq (by omega) hexec
  refine ⟨t, ht, holen.trans hmsg, fun j _ => ?message, fun j hj => ?zeros, honly⟩
  case message => rw [hob, List.getD_eq_getElem?_getD, List.getElem?_drop, List.getD_eq_getElem?_getD]
  case zeros => exact (hob j).trans (List.getD_eq_default _ _ (holen ▸ hj))

end

section
/-! PROOFS. The host window (spec/20_memory.md): what a write to each writable item does (R63 to R65, R69), what a read gives
(R62), and that nothing else moves; the control registers (spec/10_state.md R28 to R34). -/

namespace Sys2Proof.Machine

/-! ### Accesses that the port carries -/

section
variable {s : State} {off : Nat} {w : Word} {rest : List Event} (hal : off % 4 = 0) (hin : off ≤ 0x7FFC)
include hal hin

theorem step_write_on_port (he : s.events = .write off w :: rest) :
    step s = .next (({ s with events := rest } : State).writeTarget (target s.nw off) w) :=
  (step_write he).trans ((onPort_eq_next_iff off _ _).2 ⟨⟨hal, hin⟩, rfl⟩)

theorem step_read_on_port (he : s.events = .read off :: rest) :
    step s = .next (({ s with events := rest } : State).readTarget (target s.nw off)) :=
  (step_read he).trans ((onPort_eq_next_iff off _ _).2 ⟨⟨hal, hin⟩, rfl⟩)

end

/-! ### The map -/

/-- Word j of N stands at 0x1000 + 4·j (20_memory R61). -/
theorem target_nWord (nw j : Nat) (hj : j < nw) (hnw : nw ≤ 256) : target nw (0x1000 + 4 * j) = .nWord j := by
  have hword : (0x1000 + 4 * j) % 0x400 / 4 = j := by omega
  unfold target strideWord
  repeat rw [if_neg (by omega)]
  rw [if_pos (by omega), hword, if_pos hj]

/-- Word j of OB stands at 0x4400 + 4·j (20_memory R61). -/
theorem target_obWord (nw j : Nat) (hj : j < nw) (hnw : nw ≤ 256) : target nw (0x4400 + 4 * j) = .obWord j := by
  have hword : (0x4400 + 4 * j) % 0x400 / 4 = j := by omega
  unfold target strideWord
  repeat rw [if_neg (by omega)]
  rw [if_pos (by omega), hword, if_pos hj]

/-- A stride of 0x400 bytes holds the words of the widest register (00_scope R6). -/
theorem State.Inv.nw_le {s : State} (hs : s.Inv) : s.nw ≤ 256 := by
  obtain ⟨-, -, hmax⟩ := hs.width
  have hbits := hs.nw_bits
  omega

/-! ### Writes -/

theorem State.writeData_of_idle {s : State} (hidle : s.busy = false) (written : State) : s.writeData written = written := by
  simp only [State.writeData, hidle, Bool.false_eq_true, if_false]

theorem State.writeData_of_busy {s : State} (hbusy : s.busy = true) (written : State) :
    s.writeData written = s.refuseWrite := by
  simp only [State.writeData, hbusy, if_true]

/-- CMD is refused while the engine is busy or a fault is pending (10_state R30). -/
theorem State.writeCmd_of_refused {s : State} (h : s.busy = true ∨ s.err ≠ none) (w : Word) :
    s.writeCmd w = s.refuseWrite := by
  obtain ⟨hidle, hnone, -⟩ | ⟨-, hrefused⟩ := s.writeCmd_cases w
  · exact absurd h (by simp [hidle, hnone])
  · exact hrefused

/-- The index `cp` moves in a write to CMD alone (10_state R23). -/
theorem State.writeTarget_cp {s : State} {t : Target} (ht : t ≠ .cmd) (w : Word) : (s.writeTarget t w).cp = s.cp := by
  have hdata : ∀ written : State, written.cp = s.cp → (s.writeData written).cp = s.cp := fun written hcp => by
    obtain ⟨-, h⟩ | ⟨-, h⟩ := s.writeData_cases written <;> rw [h]
    · exact hcp
    · rfl
  cases t with
  | cmd => exact absurd rfl ht
  | ctrl => obtain ⟨-, h⟩ | ⟨-, h⟩ := s.writeCtrl_cases w <;> simp only [State.writeTarget, h, State.resetBlock_cp]
  | mlen => exact hdata _ rfl
  | xWord i j => exact hdata _ rfl
  | mbWord j => exact hdata _ rfl
  | status => rfl
  | ecmd => rfl
  | cfg => rfl
  | olen => rfl
  | nWord j => rfl
  | obWord j => rfl
  | reserved => rfl

/-! ### The command index -/

/-- An end of a command leaves `cp` alone (10_state R23). -/
theorem commandEnd.cp_eq {s t : State} (h : commandEnd s t) : t.cp = s.cp := by
  obtain ⟨-, -, -, -, -, -, -, -, hcp, -⟩ | ⟨e, rfl⟩ := h
  · exact hcp
  · rfl

theorem cp_of_engineComplete {s t : State} (h : engineComplete s = .next t) : t.cp = s.cp := by
  obtain ⟨t', ht', hend⟩ := engineComplete_commandEnd s
  obtain rfl : t' = t := by simpa [ht'] using h
  exact hend.cp_eq

/-- A write to CMD that is not accepted leaves `cp` alone, as does every other write (10_state R23, R30). -/
theorem State.writeTarget_cp_of_refused {s : State} (t : Target) (w : Word)
    (h : t = .cmd → ¬(s.busy = false ∧ s.err = none)) : (s.writeTarget t w).cp = s.cp := by
  by_cases ht : t = .cmd
  · subst ht
    obtain ⟨hidle, hnone, -⟩ | ⟨-, hrefused⟩ := s.writeCmd_cases w
    · exact absurd ⟨hidle, hnone⟩ (h rfl)
    · rw [State.writeTarget, hrefused, State.refuseWrite_cp]
  · exact State.writeTarget_cp ht w

/-! ### Reads -/

/-- A read gives the target's word, except of a data offset while the engine is busy (20_memory R62). -/
theorem State.readTarget_hostData {s : State} {t : Target} (h : s.busy = false ∨ t.isData = false) :
    (s.readTarget t).hostData = s.wordAt t := by
  obtain ⟨-, hread⟩ | ⟨hbusy, hdata, -⟩ := s.readTarget_cases t
  · rw [hread]
  · simp [hbusy, hdata] at h

/-- A read changes the port's data and, for an unspecified read, the model's counter (20_memory R62, R70). -/
theorem State.readTarget_frame (s : State) (t : Target) :
    s.readTarget t = { s with hostData := (s.readTarget t).hostData, busyReads := (s.readTarget t).busyReads }
      ∧ (s.busy = false → (s.readTarget t).busyReads = s.busyReads) := by
  obtain ⟨-, hread⟩ | ⟨hbusy, -, hread⟩ := s.readTarget_cases t <;> rw [hread]
  · exact ⟨rfl, fun _ => rfl⟩
  · exact ⟨rfl, fun hidle => absurd (hbusy.symm.trans hidle) Bool.true_eq_false.mp⟩

/-- The step that reads an item gives the item's word. -/
theorem step_read_word {s : State} {off : Nat} {t : Target} {rest : List Event} (he : s.events = .read off :: rest)
    (hal : off % 4 = 0) (hin : off ≤ 0x7FFC) (ht : target s.nw off = t) (h : s.busy = false ∨ t.isData = false) :
    ∃ u, step s = .next u ∧ u.hostData = s.wordAt t := by
  have hread := State.readTarget_hostData (show ({ s with events := rest } : State).busy = false ∨ t.isData = false from h)
  refine ⟨_, step_read_on_port hal hin he, ?_⟩
  rw [ht, hread]
  cases t <;> rfl

/-- The step that reads an item gives the item's value. -/
theorem step_read_value {s : State} {off v : Nat} {t : Target} {rest : List Event} (he : s.events = .read off :: rest)
    (hal : off % 4 = 0) (hin : off ≤ 0x7FFC) (ht : target s.nw off = t) (h : s.busy = false ∨ t.isData = false)
    (hv : (s.wordAt t).toNat = v) : ∃ u, step s = .next u ∧ u.hostData.toNat = v := by
  obtain ⟨u, hstep, hdata⟩ := step_read_word he hal hin ht h
  exact ⟨u, hstep, hdata ▸ hv⟩

/-! ### Steps -/

/-- `cp` moves by 1 on an accepted write to CMD and on no other step (10_state R23). -/
theorem cp_of_step {s t : State} (hstep : step s = .next t) :
    (s.busy = false ∧ s.err = none ∧ (∃ w rest, s.events = .write 0x0008 w :: rest) ∧ t.cp = s.cp + 1)
      ∨ (¬(s.busy = false ∧ s.err = none ∧ ∃ w rest, s.events = .write 0x0008 w :: rest) ∧ t.cp = s.cp) := by
  by_cases haccept : s.busy = false ∧ s.err = none ∧ ∃ w rest, s.events = .write 0x0008 w :: rest
  · obtain ⟨hidle, hnone, w, rest, he⟩ := haccept
    rw [step_write_cmd_of_ready he hidle hnone] at hstep
    cases hstep
    exact .inl ⟨hidle, hnone, ⟨w, rest, he⟩, rfl⟩
  · refine .inr ⟨haccept, ?_⟩
    obtain ⟨-, -, rfl⟩ | ⟨-, -, hend⟩ | ⟨e, rest, he, hevent⟩ := step_cases s t hstep
    · rfl
    · exact cp_of_engineComplete hend
    · obtain ⟨-, -, rfl⟩ | ⟨-, -, hend⟩ | ⟨-, rfl⟩ | ⟨off, w, rfl, -, -, rfl⟩ | ⟨off, -, -, -, rfl⟩ := hevent
      · rfl
      · have hcp := cp_of_engineComplete hend
        exact hcp
      · rfl
      · refine State.writeTarget_cp_of_refused (target s.nw off) w fun hcmd hready => haccept ?_
        obtain rfl := (target_eq_cmd_iff s.nw off).1 hcmd
        exact ⟨hready.1, hready.2, w, rest, he⟩
      · rw [(State.readTarget_frame _ _).1]

/-! ### The bytes of a word -/

/-- Byte l of word j after it is written (20_memory R65). -/
theorem Memory.readByte_writeWord_toNat {m : Memory} (hm : m.wf) (j : Nat) (w : Word) {l : Nat} (hl : l < 4) :
    ((m.writeWord j w).readByte (4 * j + l)).toNat = w.toNat / 2 ^ (8 * l) % 256 := by
  rw [Memory.readByte_writeWord m hm]
  obtain rfl | rfl | rfl | rfl : l = 0 ∨ l = 1 ∨ l = 2 ∨ l = 3 := by omega
  all_goals simp [bitField]

/-- Byte l of word j as it is read (20_memory R65). -/
theorem Memory.readWord_byte (m : Memory) (j : Nat) {l : Nat} (hl : l < 4) :
    (m.readWord j).toNat / 2 ^ (8 * l) % 256 = (m.readByte (4 * j + l)).toNat := by
  have h0 := (m.readByte (4 * j)).isLt
  have h1 := (m.readByte (4 * j + 1)).isLt
  have h2 := (m.readByte (4 * j + 2)).isLt
  have h3 := (m.readByte (4 * j + 3)).isLt
  rw [Memory.readWord, BitVec.toNat_ofNat]
  obtain rfl | rfl | rfl | rfl : l = 0 ∨ l = 1 ∨ l = 2 ∨ l = 3 := by omega
  all_goals simp only [Nat.mul_zero, Nat.add_zero, Nat.reduceMul, Nat.reducePow]; omega

/-! ### STATUS -/

theorem getLsbD_of_div_mod {w : Word} {k : Nat} {b : Bool} (h : w.toNat / 2 ^ k % 2 = b.toNat) : w.getLsbD k = b := by
  rw [← BitVec.testBit_toNat, Nat.testBit_eq_decide_div_mod_eq, h]
  cases b <;> rfl

/-- The widths of the fields of STATUS (10_state R29). -/
theorem State.statusFields_le (s : State) :
    s.busy.toNat ≤ 1 ∧ s.done.toNat ≤ 1 ∧ s.p.toNat ≤ 1 ∧ s.modv.toNat ≤ 1 ∧ s.ovr.toNat ≤ 1 ∧ s.errByte.toNat < 256 :=
  ⟨s.busy.toNat_le, s.done.toNat_le, s.p.toNat_le, s.modv.toNat_le, s.ovr.toNat_le, s.errByte.isLt⟩

/-- The fields of STATUS do not overlap (10_state R29). -/
theorem State.toNat_statusWord (s : State) :
    s.statusWord.toNat = s.busy.toNat + 2 * s.done.toNat + 4 * s.p.toNat + 8 * s.modv.toNat + 16 * s.ovr.toNat
      + 256 * s.errByte.toNat := by
  obtain ⟨hbusy, hdone, hp, hmodv, hovr, herr⟩ := s.statusFields_le
  rw [State.statusWord, BitVec.toNat_ofNat]
  omega

/-! ### CTRL and CFG -/

theorem State.toNat_ctrlWord (s : State) : s.ctrlWord.toNat = s.ie.toNat :=
  Nat.mod_eq_of_lt (s.ie.toNat_le.trans_lt (by decide))

/-- The three fields of CFG do not overlap for a legal width (10_state R32). -/
theorem State.toNat_cfgWord (s : State) (hwidth : legalWidth s.nbits) :
    s.cfgWord.toNat = s.nbits + 32 * 2 ^ 16 + 8 * 2 ^ 24 := by
  simp only [State.cfgWord, Config.HLEN, Config.NREG, BitVec.toNat_ofNat]
  omega

end Sys2Proof.Machine

open Sys2Proof Sys2Proof.Machine

/-- Settles O42: the offset names the word, and the written value differs from the old in that word alone. -/
theorem hostWritesOneWordOfARegister : Obligations.HostWritesOneWordOfARegister := by
  intro s i j w rest hs hidle hj he
  have hstep := step_write_on_port (by omega) (by have := hs.nw_le; omega) he
  rw [target_xWord s.nw i j hj hs.nw_le, State.writeTarget, State.writeData_of_idle (by exact hidle)] at hstep
  refine ⟨_, hstep, ?word, fun l hl => ?others, fun r hr => ?regs, rfl⟩
  case word => rw [State.getX_setX_self, bigWord_setBigWord_self]
  case others => rw [State.getX_setX_self, bigWord_setBigWord_other _ _ _ _ hl]; rfl
  case regs => exact State.getX_setX_other _ i r _ hr

/-- Settles O43: the offsets name the word of MB and MLEN, which an idle engine lets the host write. -/
theorem hostWritesTheMessageBuffer : Obligations.HostWritesTheMessageBuffer := by
  intro s j w rest hs hidle
  refine ⟨fun hj he => ?buffer, fun he => ?length⟩
  case buffer =>
    have hstep := step_write_on_port (by omega) (by have := hs.nw_le; omega) he
    rw [target_mbWord s.nw j hj hs.nw_le, State.writeTarget, State.writeData_of_idle (by exact hidle)] at hstep
    refine ⟨_, hstep, fun l hl => Memory.readByte_writeWord_toNat hs.msgBuffer.1 j w hl, fun a ha => ?_, rfl⟩
    rw [Memory.readByte_writeWord s.mb hs.msgBuffer.1]
    repeat rw [if_neg (by omega)]
  case length =>
    have hstep := step_write_on_port (by decide) (by decide) he
    rw [show target s.nw 0x0014 = .mlen from rfl, State.writeTarget, State.writeData_of_idle (by exact hidle)] at hstep
    exact ⟨_, hstep, BitVec.toNat_setWidth 16 w, rfl⟩

/-- Settles O44: the offsets name the words, and an idle engine lets the host read them. -/
theorem hostReadsTheDataWords : Obligations.HostReadsTheDataWords := by
  intro s i j rest hs hidle hj
  have hnw := hs.nw_le
  refine ⟨fun he => ?n, fun he => ?x, fun he => ?mb, fun he => ?ob⟩
  case n =>
    exact step_read_value he (by omega) (by omega) (target_nWord s.nw j hj hnw) (.inl hidle) (toNat_bigWord s.n j)
  case x =>
    exact step_read_value he (by omega) (by omega) (target_xWord s.nw i j hj hnw) (.inl hidle) (toNat_bigWord (s.getX i) j)
  case mb =>
    obtain ⟨t, hstep, hdata⟩ := step_read_word he (by omega) (by omega) (target_mbWord s.nw j hj hnw) (.inl hidle)
    exact ⟨t, hstep, fun l hl => by rw [hdata]; exact s.mb.readWord_byte j hl⟩
  case ob =>
    obtain ⟨t, hstep, hdata⟩ := step_read_word he (by omega) (by omega) (target_obWord s.nw j hj hnw) (.inl hidle)
    exact ⟨t, hstep, fun l hl => by rw [hdata]; exact s.ob.readWord_byte j hl⟩

/-- Settles O45: STATUS is no data offset, and its fields stand side by side. -/
theorem statusWordShowsTheFlags : Obligations.StatusWordShowsTheFlags := by
  intro s rest he
  have hstatus : target s.nw 0x0004 = .status := rfl
  obtain ⟨t, hstep, hword⟩ := step_read_value he (by decide) (by decide) hstatus (.inr rfl) s.toNat_statusWord
  obtain ⟨hbusy, hdone, hp, hmodv, hovr, herr⟩ := s.statusFields_le
  have hcode : t.hostData.toNat / 256 % 256 = s.errByte.toNat := by omega
  refine ⟨t, hstep, getLsbD_of_div_mod (by omega), getLsbD_of_div_mod (by omega), getLsbD_of_div_mod (by omega),
    getLsbD_of_div_mod (by omega), getLsbD_of_div_mod (by omega), by omega, by omega, hcode.trans ?_⟩
  rw [State.errByte]
  cases s.err with
  | none => rfl
  | some e => cases e <;> rfl

/-- Settles O46: each register reads as its word; MLEN and OLEN are data offsets. -/
theorem controlRegistersRead : Obligations.ControlRegistersRead := by
  intro s rest hwidth
  refine ⟨fun he => ?ctrl, fun he => ?cmd, fun he => ?ecmd, fun he => ?cfg, fun hidle he => ?mlen, fun hidle he => ?olen⟩
  case ctrl => exact step_read_value he (by decide) (by decide) rfl (.inr rfl) s.toNat_ctrlWord
  case cmd => exact step_read_word he (by decide) (by decide) rfl (.inr rfl)
  case ecmd => exact step_read_word he (by decide) (by decide) rfl (.inr rfl)
  case cfg => exact step_read_value he (by decide) (by decide) rfl (.inr rfl) (s.toNat_cfgWord hwidth)
  case mlen =>
    exact step_read_value he (by decide) (by decide) rfl (.inl hidle) (BitVec.toNat_setWidth_of_le (by decide))
  case olen =>
    exact step_read_value he (by decide) (by decide) rfl (.inl hidle) (BitVec.toNat_setWidth_of_le (by decide))

/-- Settles O47: whatever the offset names, a read has the same frame. -/
theorem readsChangeNoState : Obligations.ReadsChangeNoState := by
  intro s off rest he hal hin
  obtain ⟨hframe, hcount⟩ := ({ s with events := rest } : State).readTarget_frame (target s.nw off)
  exact ⟨_, step_read_on_port hal hin he, hframe, hcount⟩

/-- Settles O49: the offsets name read-only items, which a write leaves alone. -/
theorem readOnlyOffsetsIgnoreWrites : Obligations.ReadOnlyOffsetsIgnoreWrites := by
  intro s j w rest hs hj
  have hnw := hs.nw_le
  simp only [List.forall_mem_cons, List.not_mem_nil, false_imp_iff, implies_true, and_true]
  refine ⟨step_write_on_port (by decide) (by decide), step_write_on_port (by decide) (by decide),
    step_write_on_port (by decide) (by decide), step_write_on_port (by decide) (by decide), fun he => ?n, fun he => ?ob⟩
  case n => rw [step_write_on_port (by omega) (by omega) he, target_nWord s.nw j hj hnw]; rfl
  case ob => rw [step_write_on_port (by omega) (by omega) he, target_obWord s.nw j hj hnw]; rfl

/-- Settles O50: the offsets name CMD and data that a busy engine does not let the host write. -/
theorem busyEngineRefusesWrites : Obligations.BusyEngineRefusesWrites := by
  intro s i j w rest hs hbusy hj
  have hnw := hs.nw_le
  have hrefused : ∀ written, ({ s with events := rest } : State).writeData written
      = ({ s with events := rest } : State).refuseWrite := State.writeData_of_busy (by exact hbusy)
  simp only [List.forall_mem_cons, List.not_mem_nil, false_imp_iff, implies_true, and_true]
  refine ⟨fun he => ?cmd, fun he => ?mlen, fun he => ?x, fun he => ?mb⟩
  case cmd => exact (step_write_cmd he).trans (congrArg _ (State.writeCmd_of_refused (by exact .inl hbusy) w))
  case mlen => exact (step_write_on_port (by decide) (by decide) he).trans (congrArg _ (hrefused _))
  case x =>
    rw [step_write_on_port (by omega) (by omega) he, target_xWord s.nw i j hj hnw]
    exact congrArg _ (hrefused _)
  case mb =>
    rw [step_write_on_port (by omega) (by omega) he, target_mbWord s.nw j hj hnw]
    exact congrArg _ (hrefused _)

/-- Settles O51: `writeCmd` accepts or refuses; an engine's end, a reset and every other access leave `cp` alone. -/
theorem cmdWriteIsAcceptedOrRefused : Obligations.CmdWriteIsAcceptedOrRefused := by
  refine ⟨fun s w rest he => ⟨step_write_cmd_of_ready he, fun hrefused => ?_⟩, fun s t hstep => cp_of_step hstep⟩
  exact (step_write_cmd he).trans (congrArg _ (State.writeCmd_of_refused (by exact hrefused) w))

/-- Settles O52: without bit 31 a write to CTRL is its three effects. -/
theorem ctrlWriteSetsAndAcknowledges : Obligations.CtrlWriteSetsAndAcknowledges := by
  intro s w rest he hsrst
  obtain ⟨hreset, -⟩ | ⟨-, hctrl⟩ := ({ s with events := rest } : State).writeCtrl_cases w
  · exact absurd (hsrst.symm.trans hreset) Bool.false_ne_true
  · rw [step_write_ctrl he, hctrl]

end

section
/-! PROOFS. What a completed command makes of the data (spec/10_state.md R22 to R26), reset (R38), and the invariant that
every step keeps (R21 to R34). -/

namespace Sys2Proof.Machine

/-! ### The effects of the commands -/

/-- `u` is what command `i`, when it completes, makes of the data of `s`; the values carry what the invariant asks of
them. -/
inductive Effect (s : State) : Instr → State → Prop where
  | nop : Effect s .nop s
  | wipe : Effect s .wipe s.eraseData
  | register {i : Instr} {rd : Reg} (v draws : Nat) (hrd : destination i = some rd)
      (hv : s.Inv → i.wellFormed = true → v < 2 ^ s.nbits) : Effect s i (({ s with draws := draws } : State).setX rd v)
  | setmod (ra : Reg) (h3 : 3 ≤ s.getX ra) (hodd : s.getX ra % 2 = 1) : Effect s (.setmod ra) (s.loadModulus (s.getX ra))
  | mrwit (ra : Reg) (b : Bool) : Effect s (.mrwit ra) (s.setVerdict b)
  | decided (ra : Reg) (rounds : Nat) (b : Bool) : Effect s (.isprime ra rounds) (s.setVerdict b)
  | tested (ra : Reg) (rounds : Nat) (h3 : 3 ≤ s.getX ra) (hodd : s.getX ra % 2 = 1) :
      Effect s (.isprime ra rounds) (s.tested (s.getX ra) rounds)
  | mgf1 (len : Nat) (bytes : List Byte) (hfit : bytes.length ≤ s.bufMax) : Effect s (.mgf1 len) (s.setOutput bytes)
  | oaepdec (ra : Reg) (bytes : List Byte) (hfit : s.Inv → bytes.length ≤ s.bufMax) :
      Effect s (.oaepdec ra) (s.setOutput bytes)

/-- A command took a fault, or completed with its effect. -/
def FaultOrEffect (i : Instr) (s : State) : Prop :=
  (∃ e, exec i s = .next (s.raise e)) ∨ ∃ u, Effect s i u ∧ exec i s = .next u.complete

/-- A command that completes with one register written. -/
theorem FaultOrEffect.of_register {i : Instr} {s : State} {rd : Reg} {v : Nat} (hrd : destination i = some rd)
    (hv : s.Inv → i.wellFormed = true → v < 2 ^ s.nbits) (h : exec i s = .next (s.setX rd v).complete) :
    FaultOrEffect i s :=
  .inr ⟨_, .register v s.draws hrd hv, h⟩

/-- A command with the checks of 41_modexp R140 that writes a residue. -/
theorem FaultOrEffect.of_ranged {i : Instr} {s : State} {rd : Reg} {ops : List Nat} {v : Nat} (hrd : destination i = some rd)
    (h : exec i s = .next (commit s (rangeFault s ops) (s.setX rd v)))
    (hv : s.Inv → s.modv = true → (∀ u ∈ ops, u < s.n) → v < s.n) : FaultOrEffect i s := by
  obtain ⟨-, hfault⟩ | ⟨-, -, hfault⟩ | ⟨hmod, hlt, hnone⟩ := rangeFault_cases s ops
  · exact .inl ⟨_, h.trans (by rw [hfault, commit])⟩
  · exact .inl ⟨_, h.trans (by rw [hfault, commit])⟩
  · exact .of_register hrd (fun hs _ => (hv hs hmod hlt).trans (hs.n_bounds hmod).2.2) (h.trans (by rw [hnone, commit]))

/-- A message that the decoder answers is shorter than the data block it was found in. -/
theorem length_le_of_oaepDecode {h : List Byte → List Byte} {em msg : List Byte} {k : Nat}
    (hdecode : oaepDecode h em k = .ok msg) : msg.length ≤ (recoverDB h em k).length := by
  simp only [oaepDecode] at hdecode
  split at hdecode
  · cases hdecode
  · split at hdecode
    · cases hdecode
    · rename_i found hscan
      cases hdecode
      obtain ⟨i, -, -, -, rfl⟩ := (afterSeparator_eq_some _ _).1 hscan
      rw [List.length_drop, List.length_drop]
      omega

theorem oaepenc_faultOrEffect (rd : Reg) (s : State) : FaultOrEffect (.oaepenc rd) s := by
  cases hmod : s.modv with
  | false => exact .inl ⟨_, exec_of_no_modulus hmod rd 0 0 _ (by simp)⟩
  | true =>
    by_cases hlen : s.mlen.toNat ≤ s.bufMax
    · by_cases hk : s.mlen.toNat + 66 ≤ s.k
      · refine .inr ⟨_, .register _ _ rfl fun hs _ => ?_, exec_oaepenc_of_fit rd hmod hlen hk⟩
        have hlt := os2ip_oaepEncode_lt Config.H length_H s.message s.k (rngBytes32 s.draws) (by simpa using hk)
          (length_rngBytes32 s.draws)
        exact (hlt.trans_le (hs.pow_pred_k_le hmod)).trans (hs.n_bounds hmod).2.2
      · exact .inl ⟨_, exec_oaepenc_of_fault rd (oaepencFault_of_unfit hmod hlen (by omega))⟩
    · exact .inl ⟨_, exec_oaepenc_of_fault rd (oaepencFault_of_long hmod (by omega))⟩

theorem oaepdec_faultOrEffect (ra : Reg) (s : State) : FaultOrEffect (.oaepdec ra) s := by
  cases hmod : s.modv with
  | false => exact .inl ⟨_, exec_of_no_modulus hmod 0 ra 0 _ (by simp)⟩
  | true =>
    by_cases hunfit : s.k < 66 ∨ 256 ^ s.k ≤ s.getX ra
    · exact .inl ⟨_, exec_oaepdec_of_unfit hmod hunfit⟩
    · have hv : s.getX ra < 256 ^ s.k := by omega
      have hexec := exec_oaepdec_of_fit hmod (by omega) hv
      cases hdecode : oaepDecode Config.H (i2osp (s.getX ra) s.k) s.k with
      | error f =>
        rw [hdecode] at hexec
        cases f with
        | labelMismatch => exact .inl ⟨_, hexec⟩
        | separatorNotFound => exact .inl ⟨_, hexec⟩
      | ok msg =>
        rw [hdecode] at hexec
        refine .inr ⟨_, .oaepdec ra msg fun hs => ?_, hexec⟩
        have hmsg := length_le_of_oaepDecode hdecode
        rw [length_recoverDB Config.H length_H _ s.k (length_i2osp _ _)] at hmsg
        have hk := hs.k_le_bufMax hmod
        omega

theorem isprime_faultOrEffect (ra : Reg) (rounds : Nat) (s : State) : FaultOrEffect (.isprime ra rounds) s := by
  by_cases h1 : s.getX ra ≤ 1
  · exact .inr ⟨_, .decided ra rounds _, exec_isprime_of_le_one rounds h1⟩
  · by_cases h3 : s.getX ra ≤ 3
    · exact .inr ⟨_, .decided ra rounds _, exec_isprime_of_two_or_three rounds (by omega) h3⟩
    · by_cases heven : s.getX ra % 2 = 0
      · exact .inr ⟨_, .decided ra rounds _, exec_isprime_of_even rounds (by omega) heven⟩
      · exact .inr ⟨_, .tested ra rounds (by omega) (by omega), exec_isprime_of_odd rounds (by omega) (by omega)⟩

theorem modinv_faultOrEffect (rd ra rb : Reg) (s : State) : FaultOrEffect (.modinv rd ra rb) s := by
  obtain ⟨-, hfault⟩ | ⟨-, -, hfault⟩ | ⟨-, -, v, hok, -, hlt, -⟩ := modInverse_cases (s.getX ra) (s.getX rb)
  · exact .inl ⟨_, exec_modinv_of_error rd hfault⟩
  · exact .inl ⟨_, exec_modinv_of_error rd hfault⟩
  · exact .of_register rfl (fun hs _ => hlt.trans (hs.bigRegs rb)) (exec_modinv_of_ok rd hok)

/-- The values of 20 bits fit every register (00_scope R6, 40_setup_move R126). -/
theorem State.Inv.imm20_lt {s : State} (hs : s.Inv) {imm20 : Nat} (h : imm20 < 2 ^ 20) : imm20 < 2 ^ s.nbits := by
  obtain ⟨-, h64, -⟩ := hs.width
  exact h.trans_le (Nat.pow_le_pow_right two_pos (by omega))

/-- Every command takes a fault or completes with its effect. -/
theorem exec_faultOrEffect (i : Instr) (s : State) : FaultOrEffect i s := by
  cases i with
  | nop => exact .inr ⟨_, .nop, rfl⟩
  | wipe => exact .inr ⟨_, .wipe, exec_wipe s⟩
  | setmod ra =>
    by_cases hbad : s.getX ra < 3 ∨ s.getX ra % 2 = 0
    · exact .inl ⟨_, exec_setmod_of_bad hbad⟩
    · exact .inr ⟨_, .setmod ra (by omega) (by omega), exec_setmod_of_valid (by omega) (by omega)⟩
  | mov rd ra => exact .of_register rfl (fun hs _ => hs.bigRegs ra) rfl
  | clr rd => exact .of_register rfl (fun _ _ => Nat.two_pow_pos _) rfl
  | ldi rd imm20 => exact .of_register rfl (fun hs hwf => hs.imm20_lt (of_decide_eq_true hwf)) rfl
  | montmul rd ra rb =>
    refine .of_ranged rfl rfl fun hs hmod hlt => (hs.montMul_radix hmod (hs.bigRegs ra) (hlt _ ?_)).1
    simp
  | modmul rd ra rb => exact .of_ranged rfl rfl fun hs hmod _ => Nat.mod_lt _ (by have := hs.n_bounds hmod; omega)
  | modsqr rd ra => exact .of_ranged rfl rfl fun hs hmod _ => Nat.mod_lt _ (by have := hs.n_bounds hmod; omega)
  | modexp rd ra rb =>
    refine .of_ranged rfl rfl fun hs hmod _ => ?_
    have hpos : 0 < s.n := by have := hs.n_bounds hmod; omega
    rw [powMod_eq _ _ _ hpos]
    exact Nat.mod_lt _ hpos
  | modinv rd ra rb => exact modinv_faultOrEffect rd ra rb s
  | mrwit ra =>
    obtain ⟨e, -, h⟩ | ⟨-, h⟩ := commit_cases s (s.setVerdict (mrRound s.n (s.getX ra))) _
    · exact .inl ⟨e, congrArg _ h⟩
    · exact .inr ⟨_, .mrwit ra _, congrArg _ h⟩
  | isprime ra rounds => exact isprime_faultOrEffect ra rounds s
  | mgf1 len =>
    by_cases hlong : s.bufMax < s.mlen.toNat ∨ s.bufMax < len
    · exact .inl ⟨_, exec_mgf1_of_long hlong⟩
    · refine .inr ⟨_, .mgf1 len _ ?_, exec_mgf1_of_fit (by omega) (by omega)⟩
      rw [length_mgf1 Config.H length_H]
      omega
  | oaepenc rd => exact oaepenc_faultOrEffect rd s
  | oaepdec ra => exact oaepdec_faultOrEffect ra s

/-- The state a command answers: a taken fault or the completed effect. -/
theorem exec_cases {i : Instr} {s t : State} (h : exec i s = .next t) :
    (∃ e, t = s.raise e) ∨ ∃ u, Effect s i u ∧ t = u.complete := by
  obtain ⟨e, he⟩ | ⟨u, hu, he⟩ := exec_faultOrEffect i s <;> rw [he] at h <;> cases h
  · exact .inl ⟨e, rfl⟩
  · exact .inr ⟨u, hu, rfl⟩

/-! ### Who writes what -/

section
variable {i : Instr} {s u : State} (hu : Effect s i u) (hwipe : i ≠ .wipe)
include hu hwipe

/-- No command but WIPE writes a register it does not name as its destination (10_state R22). -/
theorem Effect.getX_eq {r : Reg} (hr : destination i ≠ some r) : u.getX r = s.getX r := by
  cases hu with
  | wipe => exact absurd rfl hwipe
  | register v draws hrd _ => exact State.getX_setX_other _ _ r v fun h => hr (h ▸ hrd)
  | _ => rfl

/-- The modulus is written by SETMOD, ISPRIME and WIPE alone (10_state R24). -/
theorem Effect.sameModulus (hsetmod : ∀ ra, i ≠ .setmod ra) (hisprime : ∀ ra k, i ≠ .isprime ra k) : sameModulus s u := by
  cases hu with
  | wipe => exact absurd rfl hwipe
  | setmod ra => exact absurd rfl (hsetmod ra)
  | tested ra rounds => exact absurd rfl (hisprime ra rounds)
  | _ => exact ⟨rfl, rfl, rfl, rfl, rfl, rfl⟩

/-- P is written by MRWIT, ISPRIME and WIPE alone (10_state R25). -/
theorem Effect.p_eq (hmrwit : ∀ ra, i ≠ .mrwit ra) (hisprime : ∀ ra k, i ≠ .isprime ra k) : u.p = s.p := by
  cases hu with
  | wipe => exact absurd rfl hwipe
  | mrwit ra => exact absurd rfl (hmrwit ra)
  | decided ra rounds => exact absurd rfl (hisprime ra rounds)
  | tested ra rounds => exact absurd rfl (hisprime ra rounds)
  | _ => rfl

/-- The message is written by no command but WIPE (10_state R26). -/
theorem Effect.sameMessage : sameMessage s u := by
  cases hu with
  | wipe => exact absurd rfl hwipe
  | _ => exact ⟨rfl, fun _ => rfl⟩

/-- The output is written by MGF1, OAEPDEC and WIPE alone (10_state R26). -/
theorem Effect.sameOutput (hmgf1 : ∀ k, i ≠ .mgf1 k) (hoaepdec : ∀ ra, i ≠ .oaepdec ra) : sameOutput s u := by
  cases hu with
  | wipe => exact absurd rfl hwipe
  | mgf1 len => exact absurd rfl (hmgf1 len)
  | oaepdec ra => exact absurd rfl (hoaepdec ra)
  | _ => exact ⟨rfl, fun _ => rfl⟩

end

/-! ### The invariant under the operations on the state -/

section
variable {s : State}

/-- An erased or reset block meets the invariant when its width is legal: everything in it is 0 (10_state R38). -/
theorem inv_resetBlock (hwidth : legalWidth s.nbits) : s.resetBlock.Inv where
  width := hwidth
  bigRegs i := by simp
  modulus := ⟨nofun, fun _ => ⟨rfl, rfl, rfl, rfl, rfl⟩⟩
  msgBuffer := ⟨Memory.wf_nil, nofun⟩
  outBuffer := ⟨Memory.wf_nil, nofun⟩
  outLen := Nat.zero_le _
  outTail _ _ := rfl
  busyNoErr := nofun
  busyNotDone := nofun
  errRecord _ := rfl
  idleLatch _ := rfl

theorem State.Inv.eraseData (hs : s.Inv) : s.eraseData.Inv :=
  have hreset := inv_resetBlock hs.width
  { hreset with
    busyNoErr := hs.busyNoErr
    busyNotDone := hs.busyNotDone
    errRecord := hs.errRecord
    idleLatch := hs.idleLatch }

theorem State.Inv.complete (hs : s.Inv) : s.complete.Inv :=
  { hs with busyNoErr := nofun, busyNotDone := nofun, idleLatch := fun _ => rfl }

theorem State.Inv.raise (hs : s.Inv) (e : ErrCode) : (s.raise e).Inv :=
  { hs with busyNoErr := nofun, busyNotDone := nofun, errRecord := nofun, idleLatch := fun _ => rfl }

theorem State.Inv.setVerdict (hs : s.Inv) (b : Bool) : (s.setVerdict b).Inv := { hs with }

theorem State.Inv.withDraws (hs : s.Inv) (d : Nat) : ({ s with draws := d } : State).Inv := { hs with }

theorem State.Inv.loadModulus (hs : s.Inv) {v : Nat} (h3 : 3 ≤ v) (hodd : v % 2 = 1) (hlt : v < 2 ^ s.nbits) :
    (s.loadModulus v).Inv :=
  { hs with modulus := ⟨fun _ => ⟨hodd, h3, hlt, rfl, rfl, negInv32_spec v hodd, rfl⟩, nofun⟩ }

theorem State.Inv.setOutput (hs : s.Inv) {bytes : List Byte} (hfit : bytes.length ≤ s.bufMax) : (s.setOutput bytes).Inv :=
  have hmax := bufMax_le hs.width
  have holen : (s.setOutput bytes).olen.toNat = bytes.length := Nat.mod_eq_of_lt (by omega)
  { hs with
    outBuffer := ⟨Memory.wf_ofBytes bytes, fun c hc => (Memory.mem_ofBytes bytes c hc).trans_le hfit⟩
    outLen := holen.trans_le hfit
    outTail := fun i hi => (Memory.readByte_ofBytes bytes i).trans (List.getD_eq_default _ _ (holen ▸ hi)) }

/-- The effect of a well-formed command keeps the invariant. -/
theorem Effect.inv {i : Instr} {u : State} (h : Effect s i u) (hs : s.Inv) (hwf : i.wellFormed = true) : u.Inv := by
  cases h with
  | nop => exact hs
  | wipe => exact hs.eraseData
  | register v draws _ hv => exact (hs.withDraws draws).setX _ v (hv hs hwf)
  | setmod ra h3 hodd => exact hs.loadModulus h3 hodd (hs.bigRegs ra)
  | mrwit ra b => exact hs.setVerdict b
  | decided ra rounds b => exact hs.setVerdict b
  | tested ra rounds h3 hodd => exact ((hs.loadModulus h3 hodd (hs.bigRegs ra)).setVerdict _).withDraws _
  | mgf1 len bytes hfit => exact hs.setOutput hfit
  | oaepdec ra bytes hfit => exact hs.setOutput (hfit hs)

/-- The end of the pending command keeps the invariant: an illegal word takes a fault, and a decoded command is
well-formed (30_encoding R94). -/
theorem State.Inv.engineComplete (hs : s.Inv) {t : State} (h : engineComplete s = .next t) : t.Inv := by
  obtain ⟨-, -, hfault⟩ | ⟨i, hdec, hexec⟩ := engineComplete_cases s
  · rw [hfault] at h
    cases h
    exact hs.raise .illegalCmd
  · obtain ⟨e, rfl⟩ | ⟨u, hu, rfl⟩ := exec_cases (hexec.symm.trans h)
    · exact hs.raise e
    · exact (hu.inv hs (wellFormed_and_encode_of_decode hdec).1).complete

theorem State.Inv.refuseWrite (hs : s.Inv) : s.refuseWrite.Inv := { hs with }

theorem State.Inv.writeCmd (hs : s.Inv) (w : Word) : (s.writeCmd w).Inv := by
  obtain ⟨-, hnone, h⟩ | ⟨-, h⟩ := s.writeCmd_cases w <;> rw [h]
  · exact { hs with busyNoErr := fun _ => hnone, busyNotDone := fun _ => rfl, idleLatch := nofun }
  · exact hs.refuseWrite

theorem State.Inv.writeCtrl (hs : s.Inv) (w : Word) : (s.writeCtrl w).Inv := by
  obtain ⟨-, h⟩ | ⟨-, h⟩ := s.writeCtrl_cases w <;> rw [h]
  · exact inv_resetBlock hs.width
  · exact { hs with
      busyNoErr := fun hbusy => by simp [hs.busyNoErr hbusy]
      busyNotDone := fun hbusy => by simp [hs.busyNotDone hbusy]
      errRecord := fun hnone => by
        cases heack : w.getLsbD 1 with
        | true => rfl
        | false => exact hs.errRecord (by simpa only [heack, Bool.false_eq_true, if_false] using hnone) }

theorem State.Inv.writeData (hs : s.Inv) {written : State} (hwritten : written.Inv) : (s.writeData written).Inv := by
  obtain ⟨-, h⟩ | ⟨-, h⟩ := s.writeData_cases written <;> rw [h]
  · exact hwritten
  · exact hs.refuseWrite

/-- A word of MB lies within the buffer (10_state R26, 20_memory R65). -/
theorem State.Inv.writeMessageWord (hs : s.Inv) {j : Nat} (hj : j < s.nw) (w : Word) :
    ({ s with mb := s.mb.writeWord j w } : State).Inv :=
  have hbits := hs.nw_bits
  have hbuf : s.bufMax = 4 * s.nw := by
    rw [State.bufMax]
    omega
  { hs with
    msgBuffer := ⟨Memory.wf_writeWord s.mb hs.msgBuffer.1 j w, fun c hc =>
      (Memory.mem_writeWord s.mb j w c hc).elim (hs.msgBuffer.2 c) fun hlt => show c.1 < s.bufMax by omega⟩ }

/-- A write to an item that exists keeps the invariant (20_memory R63). -/
theorem State.Inv.writeTarget (hs : s.Inv) {t : Target} (hindex : ∀ k, t.wordIndex = some k → k < s.nw) (w : Word) :
    (s.writeTarget t w).Inv := by
  cases t with
  | ctrl => exact hs.writeCtrl w
  | cmd => exact hs.writeCmd w
  | mlen => exact hs.writeData { hs with }
  | xWord i j =>
    have hlt := hs.nw_bits ▸ hs.bigRegs i
    exact hs.writeData (hs.setX i _ (hs.nw_bits ▸ setBigWord_lt (s.getX i) j s.nw w hlt (hindex j rfl)))
  | mbWord j => exact hs.writeData (hs.writeMessageWord (hindex j rfl) w)
  | status => exact hs
  | ecmd => exact hs
  | cfg => exact hs
  | olen => exact hs
  | nWord j => exact hs
  | obWord j => exact hs
  | reserved => exact hs

theorem State.Inv.readTarget (hs : s.Inv) (t : Target) : (s.readTarget t).Inv := by
  rw [(s.readTarget_frame t).1]
  exact { hs with }

/-- Every step keeps the invariant (10_state R20 to R34). -/
theorem State.Inv.step (hs : s.Inv) {t : State} (h : step s = .next t) : t.Inv := by
  obtain ⟨-, -, rfl⟩ | ⟨-, -, hend⟩ | ⟨e, rest, -, hevent⟩ := step_cases s t h
  · exact hs
  · exact hs.engineComplete hend
  · have hrest := hs.withEvents rest
    obtain ⟨-, -, rfl⟩ | ⟨-, -, hend⟩ | ⟨-, rfl⟩ | ⟨off, w, -, -, -, rfl⟩ | ⟨off, -, -, -, rfl⟩ := hevent
    · exact hrest
    · exact hrest.engineComplete hend
    · exact inv_resetBlock hs.width
    · exact hrest.writeTarget (fun k => target_index_lt s.nw off k) w
    · exact hrest.readTarget _

end

end Sys2Proof.Machine

open Sys2Proof Sys2Proof.Machine

/-- Settles O60: each event's operation keeps the invariant, and so does every command, since a decoded command is
well-formed. -/
theorem everyStepKeepsTheInvariant : Obligations.EveryStepKeepsTheInvariant := fun _ _ hs => hs.step

/-- Settles O59: the reset state is a reset block of the default width. -/
theorem resetMeetsTheInvariant : Obligations.ResetMeetsTheInvariant :=
  inv_resetBlock (show legalWidth State.reset.nbits by decide)

/-- Settles O58: both events reset the block, which keeps the width, `cp` and the model's own fields. -/
theorem bothResetsGiveTheResetState : Obligations.BothResetsGiveTheResetState := step_eq_resetBlock

/-- Settles O9: a fault writes no data, and each effect writes its own part of it. -/
theorem onlyTheNamedCommandsWriteEachRegister : Obligations.OnlyTheNamedCommandsWriteEachRegister := by
  intro i s t h
  obtain ⟨e, rfl⟩ | ⟨u, hu, rfl⟩ := exec_cases h
  · exact ⟨fun _ _ _ => rfl, fun _ _ _ => ⟨rfl, rfl, rfl, rfl, rfl, rfl⟩, fun _ _ _ => rfl, fun _ => ⟨rfl, fun _ => rfl⟩,
      fun _ _ _ => ⟨rfl, fun _ => rfl⟩⟩
  · exact ⟨fun hwipe _ => hu.getX_eq hwipe, hu.sameModulus, hu.p_eq, hu.sameMessage, hu.sameOutput⟩

end

section
/-! PROOFS. The software around the block (spec/48_host_procedures.md): RSA (R205 to R212) keeps the contract of
R223. -/

namespace Sys2Proof.Machine

/-! ### The tester's own test -/

/-- The tester accepts a prime, whatever witnesses in 2 ... n−2 it draws (42_miller_rabin R160, R166). -/
theorem isPrimeTest_of_prime {drawn : Nat → List Nat} (hdrawn : ∀ n, ∀ a ∈ drawn n, 2 ≤ a ∧ a ≤ n - 2) {n : Nat}
    (hn : n.Prime) : isPrimeTest drawn n = true := by
  unfold isPrimeTest
  split_ifs with h1 h3 heven hbound
  · exact absurd hn.two_le (by omega)
  · rfl
  · exact absurd (hn.eq_two_or_odd) (by omega)
  · refine List.all_eq_true.2 fun a ha => ?_
    obtain ⟨hdet, hle⟩ := mem_fixedWitnesses.1 ha
    rw [mrRound_iff_roundPasses n a (by omega) (by omega)]
    exact roundPasses_of_prime_of_bounds hn (by omega) (two_le_of_mem_detWitnesses a hdet) hle
  · refine List.all_eq_true.2 fun a ha => ?_
    obtain ⟨h2, hle⟩ := hdrawn n a ha
    rw [mrRound_iff_roundPasses n a (by omega) (by omega)]
    exact roundPasses_of_prime_of_bounds hn (by omega) h2 hle

/-! ### The power map of RSA -/

/-- A power whose exponent is 1 modulo p − 1 is the base modulo the prime p. -/
theorem pow_modEq_self {p : Nat} (hp : p.Prime) (m j : Nat) : m ^ ((p - 1) * j + 1) ≡ m [MOD p] := by
  by_cases hdvd : p ∣ m
  · have hzero : m ≡ 0 [MOD p] := (Nat.modEq_zero_iff_dvd).2 hdvd
    exact ((Nat.modEq_zero_iff_dvd).2 (dvd_pow hdvd (Nat.succ_ne_zero _))).trans hzero.symm
  · have hcop : Nat.Coprime m p := ((hp.coprime_iff_not_dvd).2 hdvd).symm
    have hfermat : m ^ (p - 1) ≡ 1 [MOD p] := Nat.totient_prime hp ▸ Nat.ModEq.pow_totient hcop
    calc m ^ ((p - 1) * j + 1)
      _ = (m ^ (p - 1)) ^ j * m := by rw [pow_succ, pow_mul]
      _ ≡ 1 ^ j * m [MOD p] := (hfermat.pow j).mul_right m
      _ = m := by rw [one_pow, one_mul]

/-- Exponents inverse to each other modulo (p−1)(q−1) give every residue modulo p·q back (48_host_procedures R223). -/
theorem rsaKeysConsistent_of_inverse {pub : RsaPublicKey} {priv : RsaPrivateKey} {p q : Nat} (hp : p.Prime) (hq : q.Prime)
    (hne : p ≠ q) (hn : pub.n = p * q) (hinv : pub.e * priv.d % ((p - 1) * (q - 1)) = 1) : rsaKeysConsistent pub priv := by
  intro m hm
  obtain ⟨j, hj⟩ : ∃ j, pub.e * priv.d = (p - 1) * (q - 1) * j + 1 := ⟨_, hinv ▸ (Nat.div_add_mod _ _).symm⟩
  have hmodp : m ^ (pub.e * priv.d) ≡ m [MOD p] := by
    rw [hj, Nat.mul_assoc]
    exact pow_modEq_self hp m _
  have hmodq : m ^ (pub.e * priv.d) ≡ m [MOD q] := by
    rw [hj, Nat.mul_comm (p - 1), Nat.mul_assoc]
    exact pow_modEq_self hq m _
  have hboth := (Nat.modEq_and_modEq_iff_modEq_mul ((Nat.coprime_primes hp hq).2 hne)).1 ⟨hmodp, hmodq⟩
  exact Nat.mod_eq_of_modEq (hn ▸ hboth) hm

/-- Two distinct primes have (p−1)(q−1) ≥ 2: one of them is odd. -/
theorem two_le_phi {p q : Nat} (hp : p.Prime) (hq : q.Prime) (hne : p ≠ q) : 2 ≤ (p - 1) * (q - 1) := by
  have h2p := hp.two_le
  have h2q := hq.two_le
  obtain h3 | h3 : 3 ≤ p ∨ 3 ≤ q := by omega
  · exact Nat.mul_le_mul (show 2 ≤ p - 1 by omega) (show 1 ≤ q - 1 by omega)
  · exact Nat.mul_le_mul (show 1 ≤ p - 1 by omega) (show 2 ≤ q - 1 by omega)

/-! ### RSA encryption and decryption -/

theorem rsaEncrypt_of_fit {h : List Byte → List Byte} {pub : RsaPublicKey} {msg seed : List Byte}
    (hfit : msg.length + 66 ≤ byteLen (bitlen pub.n)) (hn : 0 < pub.n)
    (hm : os2ip (oaepEncode h msg (byteLen (bitlen pub.n)) seed) < pub.n) :
    rsaEncrypt h pub msg (some seed) = .ok (os2ip (oaepEncode h msg (byteLen (bitlen pub.n)) seed) ^ pub.e % pub.n) := by
  simp only [rsaEncrypt, hfit.not_gt, hm.not_ge, if_false, powMod_eq _ _ _ hn]

/-- Decryption of a power that is the integer of an encoded message decodes that message (48_host_procedures R212). -/
theorem rsaDecrypt_of_power {h : List Byte → List Byte} {key : RsaPrivateKey} {c : Nat} {em msg : List Byte}
    (hn : 0 < key.n) (hk : 66 ≤ em.length) (hem : em.length = byteLen (bitlen key.n)) (hpow : c ^ key.d % key.n = os2ip em)
    (hdecode : oaepDecode h em em.length = .ok msg) : rsaDecrypt h (some key) c true = .ok msg := by
  simp only [rsaDecrypt, ← hem, powMod_eq _ _ _ hn, hpow, i2osp_os2ip, hk.not_gt, hdecode, Bool.true_eq_false, if_false]

/-- OAEP decryption of the encryption gives the message back (48_host_procedures R211, R212, R223): the encoded message is
below n, the exponents are inverse to each other on it, and the decoder inverts the encoder. -/
theorem rsaRoundTrip_of_ok {h : List Byte → List Byte} (hlen : ∀ x, (h x).length = 32) {pub : RsaPublicKey}
    {priv : RsaPrivateKey} {p q : Nat} (hpub : pub.ok p q) (hpriv : priv.ok p q) {msg seed : List Byte}
    (hseed : seed.length = 32) (hfit : msg.length + 66 ≤ byteLen (bitlen pub.n)) : rsaRoundTrip h pub priv msg seed := by
  obtain ⟨hp, hq, hne, -, -, he, hn, -⟩ := hpub
  obtain ⟨-, -, hn', -, hinv⟩ := hpriv
  have hkeys : priv.n = pub.n := hn'.trans hn.symm
  have hpos : 0 < pub.n := hn ▸ Nat.mul_pos hp.pos hq.pos
  have hem := length_oaepEncode h hlen msg _ seed hfit hseed
  have hm := (os2ip_oaepEncode_lt h hlen msg _ seed hfit hseed).trans_le (pow_pred_byteLen_le hpos.ne')
  have hem' := hem.trans (congrArg (fun n => byteLen (bitlen n)) hkeys.symm)
  refine ⟨_, rsaEncrypt_of_fit hfit hpos hm, Nat.mod_lt _ hpos, ?decrypt⟩
  refine rsaDecrypt_of_power (by omega) (by omega) hem' ?power ?decode
  case power =>
    rw [hkeys, ← Nat.pow_mod, ← pow_mul]
    exact rsaKeysConsistent_of_inverse hp hq hne hn (he ▸ hinv) _ hm
  case decode => rw [hem, oaepDecode_oaepEncode h hlen msg _ seed hfit hseed]

/-! ### RSA key generation -/

/-- A made pair has the product of its primes as the modulus of both keys (48_host_procedures R205, R206). -/
theorem rsaKeyPair_n {p q : Nat} {failure : ErrorKind} {keys : RsaPublicKey × RsaPrivateKey}
    (h : rsaKeyPair p q failure = .ok keys) : keys.1.n = p * q := by
  unfold rsaKeyPair at h
  simp only at h
  split at h
  · cases h
  · cases h
    rfl

/-- A pair made of two distinct primes is a key pair of the data model (48_host_procedures R200, R207). -/
theorem rsaKeyPair_spec {p q : Nat} (hp : p.Prime) (hq : q.Prime) (hne : p ≠ q) {failure : ErrorKind} {pub : RsaPublicKey}
    {priv : RsaPrivateKey} (h : rsaKeyPair p q failure = .ok (pub, priv)) :
    pub.e = 65537 ∧ pub.n = p * q ∧ priv.n = pub.n ∧ 0 < priv.d ∧ priv.d < (p - 1) * (q - 1)
      ∧ pub.e * priv.d % ((p - 1) * (q - 1)) = 1 ∧ rsaKeysConsistent pub priv := by
  obtain ⟨-, hfail⟩ | ⟨d, hok, hpos, hlt, hinv⟩ := rsaKeyPair_cases p q failure (two_le_phi hp hq hne)
  · rw [hfail] at h
    cases h
  · rw [hok] at h
    cases h
    exact ⟨rfl, rfl, rfl, hpos, hlt, hinv, rsaKeysConsistent_of_inverse hp hq hne rfl hinv⟩

/-- A pair that custom mode makes passed its checks (48_host_procedures R205). -/
theorem rsaCustom_spec {isPrime : Nat → Bool} {len p q : Nat} {keys : RsaPublicKey × RsaPrivateKey}
    (h : rsaCustom isPrime len p q = .ok keys) :
    isPrime p = true ∧ isPrime q = true ∧ p ≠ q ∧ rsaKeyPair p q .notCoprime = .ok keys := by
  unfold rsaCustom at h
  split_ifs at h with htest hne hlen
  simp only [Bool.not_eq_true', Bool.not_eq_false, Bool.and_eq_true] at htest
  exact ⟨htest.1, htest.2, hne, h⟩

/-- A value that fails the tester is refused before anything else (48_host_procedures R205). -/
theorem rsaCustom_of_not_prime {isPrime : Nat → Bool} {p q : Nat} (h : isPrime p = false ∨ isPrime q = false) (len : Nat) :
    rsaCustom isPrime len p q = .error .notPrime := by
  have htest : (!(isPrime p && isPrime q)) = true := by
    obtain h | h := h <;> simp [h]
  simp only [rsaCustom, htest, if_true]

theorem rsaCustom_of_equal {isPrime : Nat → Bool} {p : Nat} (h : isPrime p = true) (len : Nat) :
    rsaCustom isPrime len p p = .error .nonDistinctPrimes := by
  simp [rsaCustom, h]

/-- The primes behind a generated pair: those given in custom mode, found ones in auto mode, and in both distinct and tested
(48_host_procedures R205, R206). -/
theorem rsaGenerate_spec {isPrime : Nat → Bool} {small : List Nat} {draws : List (List Nat × List Nat)} {len : Nat}
    {op oq : Option Nat} {keys : RsaPublicKey × RsaPrivateKey} (h : rsaGenerate isPrime small draws len op oq = .ok keys) :
    ((op = none ∨ oq = none) → 2048 ≤ len ∧ bitlen keys.1.n = len)
      ∧ ∃ p q failure, isPrime p = true ∧ isPrime q = true ∧ p ≠ q ∧ (∀ a, op = some a → p = a) ∧ (∀ b, oq = some b → q = b)
        ∧ rsaKeyPair p q failure = .ok keys := by
  cases op with
  | some p =>
    cases oq with
    | none => cases h
    | some q =>
      obtain ⟨hp, hq, hne, hpair⟩ := rsaCustom_spec h
      exact ⟨by simp, p, q, _, hp, hq, hne, fun _ => Option.some.inj, fun _ => Option.some.inj, hpair⟩
  | none =>
    cases oq with
    | some q => cases h
    | none =>
      simp only [rsaGenerate, rsaAuto] at h
      split_ifs at h with hshort
      obtain ⟨p, q, hp, hq, hne, hlen, hpair⟩ := rsaAttempts_spec isPrime small len draws keys h
      exact ⟨fun _ => ⟨by omega, rsaKeyPair_n hpair ▸ hlen⟩, p, q, _, hp, hq, hne, nofun, nofun, hpair⟩

/-- The product of two numbers of `half` bits each has 2·half bits or one less (48_host_procedures R205). -/
theorem bitlen_mul_bounds {p q half : Nat} (hp : 0 < p) (hq : 0 < q) (hbp : bitlen p = half) (hbq : bitlen q = half) :
    2 * half ≤ bitlen (p * q) + 1 ∧ bitlen (p * q) ≤ 2 * half := by
  have hlow : 2 ^ (half - 1 + (half - 1)) < 2 ^ bitlen (p * q) :=
    calc 2 ^ (half - 1 + (half - 1))
      _ = 2 ^ (half - 1) * 2 ^ (half - 1) := pow_add _ _ _
      _ ≤ p * q := Nat.mul_le_mul (hbp ▸ two_pow_bitlen_le p hp.ne') (hbq ▸ two_pow_bitlen_le q hq.ne')
      _ < 2 ^ bitlen (p * q) := lt_two_pow_bitlen _
  have hhigh : p * q < 2 ^ (2 * half) :=
    calc p * q
      _ < 2 ^ half * 2 ^ half := Nat.mul_lt_mul'' (hbp ▸ lt_two_pow_bitlen p) (hbq ▸ lt_two_pow_bitlen q)
      _ = 2 ^ (2 * half) := by rw [two_mul, pow_add]
  have hlt := (Nat.pow_lt_pow_iff_right Nat.one_lt_two).1 hlow
  exact ⟨by omega, bitlen_le _ _ hhigh⟩

/-- Custom mode with two distinct tested primes of half the length each makes the pair when 65537 is coprime to φ
(48_host_procedures R205). -/
theorem rsaCustom_of_halves {isPrime : Nat → Bool} {p q half : Nat} (hp : p.Prime) (hq : q.Prime) (hne : p ≠ q)
    (htp : isPrime p = true) (htq : isPrime q = true) (hbp : bitlen p = half) (hbq : bitlen q = half)
    (hg : Nat.gcd 65537 ((p - 1) * (q - 1)) = 1) :
    ∃ d, rsaCustom isPrime (2 * half) p q = .ok (⟨65537, p * q⟩, ⟨d, p * q⟩) := by
  obtain ⟨hlow, hhigh⟩ := bitlen_mul_bounds hp.pos hq.pos hbp hbq
  have hlengths : ¬(bitlen p + bitlen q ≠ 2 * (2 * half / 2) ∨ 2 < lengthGap (bitlen (p * q)) (2 * half)
      ∨ 2 < lengthGap (bitlen p) (2 * half / 2) ∨ 2 < lengthGap (bitlen q) (2 * half / 2)) := by
    simp only [lengthGap, hbp, hbq]
    omega
  obtain ⟨hncop, -⟩ | ⟨d, hok, -⟩ := rsaKeyPair_cases p q .notCoprime (two_le_phi hp hq hne)
  · exact absurd hg hncop
  · refine ⟨d, Eq.trans ?_ hok⟩
    simp only [rsaCustom, htp, htq, Bool.and_self, Bool.not_true, Bool.false_eq_true, if_false, hne, if_neg hlengths]

end Sys2Proof.Machine

open Sys2Proof Sys2Proof.Machine

/-- Settles O55: Fermat modulo each prime makes the exponents inverse to each other, and key generation makes its pair of two
distinct tested values alone. -/
theorem rsaGenerationAndDecryptionKeepTheirContract : Obligations.RsaGenerationAndDecryptionKeepTheirContract := by
  refine ⟨?roundTrip, ?refusals, ?made, ?succeeds, ?four⟩
  case roundTrip => exact fun h pub priv p q msg seed hlen hpub hpriv => rsaRoundTrip_of_ok hlen hpub hpriv
  case refusals =>
    exact fun _ _ _ len _ _ => ⟨rfl, rfl, fun h => rsaCustom_of_not_prime h len, fun h => rsaCustom_of_equal h len⟩
  case made =>
    intro isPrime small draws len op oq pub priv h
    obtain ⟨hlen, p, q, failure, hp, hq, hne, hop, hoq, hpair⟩ := rsaGenerate_spec h
    exact ⟨hlen, fun hsound => ⟨p, q, hsound p hp, hsound q hq, hne, hop, hoq,
      rsaKeyPair_spec (hsound p hp) (hsound q hq) hne hpair⟩⟩
  case succeeds =>
    intro drawn _ _ half p q hdrawn hp hq hne hbp hbq hg
    exact rsaCustom_of_halves hp hq hne (isPrimeTest_of_prime hdrawn hp) (isPrimeTest_of_prime hdrawn hq) hbp hbq hg
  case four => exact fun _ _ _ len => rsaCustom_of_not_prime (.inl rfl) len

end

section
/-! PROOFS. The software around the block (spec/48_host_procedures.md): ElGamal (R208, R209, R213 to R216) keeps the
contract of R223. -/

namespace Sys2Proof.Machine

/-! ### ElGamal encryption and decryption -/

/-- A safe prime is at least 5, its half being a prime (48_host_procedures R201). -/
theorem five_le_of_half_prime {p : Nat} (hq : ((p - 1) / 2).Prime) : 5 ≤ p := by
  have h2 := hq.two_le
  omega

theorem elGamalEncrypt_of_lt {pub : ElGamalPublicKey} {plaintext : List Byte} (hm : os2ip plaintext < pub.p) (draw : Nat) :
    elGamalEncrypt pub plaintext draw = .ok (pub.g ^ ephemeral pub.p draw % pub.p,
      os2ip plaintext * (pub.h ^ ephemeral pub.p draw % pub.p) % pub.p) := by
  have hpos : 0 < pub.p := by omega
  simp only [elGamalEncrypt, hm.not_ge, if_false, powMod_eq _ _ _ hpos]

/-- A ciphertext with a component 0 is refused (48_host_procedures R202, R215). -/
theorem elGamalDecryptInt_of_zero (key : ElGamalPrivateKey) {c1 c2 : Nat} (h : c1 = 0 ∨ c2 = 0) :
    elGamalDecryptInt (some key) c1 c2 = .error .invalidCiphertext := by
  have hbad : c1 = 0 ∨ key.p ≤ c1 ∨ c2 = 0 ∨ key.p ≤ c2 := by omega
  simp only [elGamalDecryptInt, if_pos hbad]

/-- Decryption of m·c1^x under a prime p gives m: the power of c1 has an inverse modulo p (48_host_procedures R215). -/
theorem elGamalDecryptInt_of_masked {key : ElGamalPrivateKey} {c1 c2 m : Nat} (hp : key.p.Prime)
    (hok : elGamalCiphertextOk key.p c1 c2) (hm : m < key.p) (hmask : c2 ≡ m * c1 ^ key.x [MOD key.p]) :
    elGamalDecryptInt (some key) c1 c2 = .ok m := by
  obtain ⟨hc1, hc1p, hc2, hc2p⟩ := hok
  have hgood : ¬(c1 = 0 ∨ key.p ≤ c1 ∨ c2 = 0 ∨ key.p ≤ c2) := by omega
  have hcop : Nat.gcd (c1 ^ key.x % key.p) key.p = 1 := by
    rw [← Nat.gcd_rec]
    exact Nat.Coprime.pow_right _ ((hp.coprime_iff_not_dvd).2 (Nat.not_dvd_of_pos_of_lt hc1 hc1p))
  obtain ⟨hsome, -⟩ := euclidInverse_spec (c1 ^ key.x % key.p + 1) (c1 ^ key.x % key.p) key.p hp.two_le (Nat.lt_succ_self _)
  obtain ⟨inv, hinv, -, -, hone⟩ := hsome hcop
  have hval : c2 * inv % key.p = m := by
    refine Nat.mod_eq_of_modEq ?_ hm
    calc c2 * inv
      _ ≡ m * c1 ^ key.x * inv [MOD key.p] := hmask.mul_right inv
      _ = m * (c1 ^ key.x * inv) := Nat.mul_assoc _ _ _
      _ ≡ m * (c1 ^ key.x % key.p * inv) [MOD key.p] := ((Nat.mod_modEq _ _).symm.mul_right inv).mul_left m
      _ ≡ m * 1 [MOD key.p] := Nat.ModEq.mul_left m (hone.trans (Nat.mod_eq_of_lt hp.one_lt).symm)
      _ = m := Nat.mul_one m
  simp only [elGamalDecryptInt, if_neg hgood, powMod_eq _ _ _ hp.pos, hinv, hval]

/-- The byte string comes back with the integer, without its leading zero bytes (48_host_procedures R215, R216). -/
theorem elGamalRoundTrip_of_int {key : ElGamalPrivateKey} {plaintext : List Byte} {c1 c2 : Nat}
    (h : elGamalDecryptInt (some key) c1 c2 = .ok (os2ip plaintext)) : elGamalRoundTrip key plaintext c1 c2 := by
  refine ⟨h, ?_⟩
  simp only [elGamalDecrypt, h, ← i2osp_minimal]
  rfl

theorem pow_mod_pos {p g : Nat} (hp : p.Prime) (hg : g % p ≠ 0) (k : Nat) : 0 < g ^ k % p :=
  Nat.pos_of_ne_zero fun h => hg (Nat.mod_eq_zero_of_dvd (hp.dvd_of_dvd_pow (Nat.dvd_of_mod_eq_zero h)))

theorem mul_mod_pos {p a b : Nat} (hp : p.Prime) (ha : a % p ≠ 0) (hb : b % p ≠ 0) : 0 < a * b % p :=
  Nat.pos_of_ne_zero fun h => ((hp.dvd_mul).1 (Nat.dvd_of_mod_eq_zero h)).elim
    (fun hd => ha (Nat.mod_eq_zero_of_dvd hd)) fun hd => hb (Nat.mod_eq_zero_of_dvd hd)

/-- With h = g^x, the mask h^y of an encryption is the power c1^x that the decryption takes out (48_host_procedures R214,
R215). -/
theorem elGamal_mask {p g h x y : Nat} (hh : h = g ^ x % p) (m : Nat) :
    m * (h ^ y % p) % p ≡ m * (g ^ y % p) ^ x [MOD p] :=
  calc m * (h ^ y % p) % p
    _ ≡ m * (h ^ y % p) [MOD p] := Nat.mod_modEq _ _
    _ ≡ m * h ^ y [MOD p] := (Nat.mod_modEq _ _).mul_left m
    _ ≡ m * (g ^ x) ^ y [MOD p] := ((hh ▸ Nat.mod_modEq _ _ : h ≡ g ^ x [MOD p]).pow y).mul_left m
    _ = m * (g ^ y) ^ x := by rw [← pow_mul, ← pow_mul, Nat.mul_comm x y]
    _ ≡ m * (g ^ y % p) ^ x [MOD p] := ((Nat.mod_modEq _ _).symm.pow x).mul_left m

/-- What decryption makes of the two components of an encryption with the ephemeral `y` (48_host_procedures R214 to R216,
R223). -/
theorem elGamal_decrypts {pub : ElGamalPublicKey} {priv : ElGamalPrivateKey} (hok : elGamalOk pub priv)
    {plaintext : List Byte} (hm : os2ip plaintext < pub.p) {y : Nat} (hy : 2 ≤ y) :
    (pub.g % pub.p ≠ 0 → 0 < os2ip plaintext →
      elGamalRoundTrip priv plaintext (pub.g ^ y % pub.p) (os2ip plaintext * (pub.h ^ y % pub.p) % pub.p))
    ∧ ((pub.g % pub.p = 0 ∨ os2ip plaintext = 0) →
      elGamalDecryptInt (some priv) (pub.g ^ y % pub.p) (os2ip plaintext * (pub.h ^ y % pub.p) % pub.p)
        = .error .invalidCiphertext) := by
  obtain ⟨hp, -, -, hpp, -, -, hh⟩ := hok
  have hlt : ∀ v, v % pub.p < pub.p := fun v => Nat.mod_lt v hp.pos
  constructor
  · intro hg hpos
    have hhpos : 0 < pub.h ^ y % pub.p := pow_mod_pos hp (by rw [hh, Nat.mod_mod]; exact (pow_mod_pos hp hg _).ne') y
    have hc2 : 0 < os2ip plaintext * (pub.h ^ y % pub.p) % pub.p :=
      mul_mod_pos hp (by rw [Nat.mod_eq_of_lt hm]; exact hpos.ne') (by rw [Nat.mod_mod]; exact hhpos.ne')
    rw [← hpp] at hp hm hlt
    refine elGamalRoundTrip_of_int (elGamalDecryptInt_of_masked hp ?valid hm ?mask)
    case valid => exact ⟨pow_mod_pos (hpp ▸ hp) hg y, hpp ▸ hlt _, hc2, hpp ▸ hlt _⟩
    case mask => exact hpp ▸ elGamal_mask hh (os2ip plaintext)
  · intro hzero
    refine elGamalDecryptInt_of_zero priv (hzero.imp (fun hg => ?_) fun hm0 => ?_)
    · rw [Nat.pow_mod, hg, Nat.zero_pow (by omega), Nat.zero_mod]
    · rw [hm0, Nat.zero_mul, Nat.zero_mod]

/-! ### ElGamal key generation -/

/-- Keys that meet the data model are consistent (48_host_procedures R201, R223). -/
theorem elGamalKeysConsistent_of_ok {pub : ElGamalPublicKey} {priv : ElGamalPrivateKey} (hok : elGamalOk pub priv) :
    elGamalKeysConsistent pub priv := by
  obtain ⟨-, -, -, -, -, -, hh⟩ := hok
  exact hh.symm

/-- A pair that custom mode makes passed its checks (48_host_procedures R208). -/
theorem elGamalCustom_spec {isPrime : Nat → Bool} (hsound : ∀ c, isPrime c = true → c.Prime) {p g x : Nat}
    {pub : ElGamalPublicKey} {priv : ElGamalPrivateKey} (h : elGamalCustom isPrime p g x = .ok (pub, priv)) :
    elGamalOk pub priv ∧ pub.p = p ∧ pub.g = g ∧ priv.x = x := by
  unfold elGamalCustom at h
  split_ifs at h with hp hq hg hx
  cases h
  have hprime := hsound p (by simpa using hp)
  have hrange : 1 < x ∧ x < p - 1 := by omega
  exact ⟨⟨hprime, hsound _ (by simpa using hq), by simpa using hg, rfl, hrange.1, hrange.2, powMod_eq _ _ _ hprime.pos⟩,
    rfl, rfl, rfl⟩

/-- A pair that an attempt of auto mode makes meets the data model, with g drawn in 2 ... p−1 (48_host_procedures R209). -/
theorem elGamalAttempt_spec {isPrime : Nat → Bool} (hsound : ∀ c, isPrime c = true → c.Prime) {small : List Nat} {len : Nat}
    {d : ElGamalDraws} {pub : ElGamalPublicKey} {priv : ElGamalPrivateKey}
    (h : elGamalAttempt isPrime small len d = .ok (pub, priv)) : elGamalOk pub priv ∧ 2 ≤ pub.g ∧ pub.g ≤ pub.p - 1 := by
  unfold elGamalAttempt at h
  split at h
  · cases h
  · rename_i p hsafe
    split at h
    · cases h
    · rename_i g hgen
      cases h
      obtain ⟨q, hq, hp, rfl⟩ := findSafePrime_spec isPrime small len d.safePrime p hsafe
      obtain ⟨hg, r, rfl⟩ := findGenerator_spec (2 * q + 1) d.generator g hgen
      have hhalf : (2 * q + 1 - 1) / 2 = q := by omega
      have hq2 := (hsound q hq).two_le
      obtain ⟨hx2, hx⟩ := drawIn_mem 2 (2 * q + 1 - 2) d.privateKey (by omega)
      have hx' : drawIn 2 (2 * q + 1 - 2) d.privateKey < 2 * q + 1 - 1 := by omega
      exact ⟨⟨hsound _ hp, hhalf.symm ▸ hsound q hq, hg, rfl, hx2, hx', powMod_eq _ _ _ (Nat.succ_pos _)⟩,
        drawIn_mem 2 (2 * q + 1 - 1) r (by omega)⟩

/-- Auto mode makes its pair in one of its attempts (48_host_procedures R209). -/
theorem elGamalAuto_spec {isPrime : Nat → Bool} {small : List Nat} {len : Nat} {draws : List ElGamalDraws}
    {keys : ElGamalPublicKey × ElGamalPrivateKey} (h : elGamalAuto isPrime small len draws = .ok keys) :
    ∃ d, elGamalAttempt isPrime small len d = .ok keys := by
  induction draws with
  | nil => cases h
  | cons d rest ih =>
    rw [elGamalAuto] at h
    split at h
    · rename_i made hmade
      cases h
      exact ⟨d, hmade⟩
    · split_ifs at h
      exact ih h

/-- Key generation makes a pair from all three values or from none (48_host_procedures R208, R209). -/
theorem elGamalGenerate_cases {isPrime : Nat → Bool} {small : List Nat} {draws : List ElGamalDraws} {len : Nat}
    {op og ox : Option Nat} {keys : ElGamalPublicKey × ElGamalPrivateKey}
    (h : elGamalGenerate isPrime small draws len op og ox = .ok keys) :
    (∃ p g x, op = some p ∧ og = some g ∧ ox = some x ∧ elGamalCustom isPrime p g x = .ok keys)
      ∨ (op = none ∧ og = none ∧ ox = none ∧ elGamalAuto isPrime small len draws = .ok keys) := by
  unfold elGamalGenerate at h
  split at h
  · exact .inl ⟨_, _, _, rfl, rfl, rfl, h⟩
  · exact .inr ⟨rfl, rfl, rfl, h⟩
  · cases h

/-- Some but not all of the three values is an error (48_host_procedures R208). -/
theorem elGamalGenerate_of_some {isPrime : Nat → Bool} {small : List Nat} {draws : List ElGamalDraws} {len : Nat}
    {op og ox : Option Nat} (hsome : (op.isSome || og.isSome || ox.isSome) = true)
    (hall : (op.isSome && og.isSome && ox.isSome) = false) :
    elGamalGenerate isPrime small draws len op og ox = .error .parameterCoexistence := by
  unfold elGamalGenerate
  split
  · cases hall
  · cases hsome
  · rfl

/-- The checks of custom mode, in their order (48_host_procedures R208). -/
theorem elGamalCustom_refuses (isPrime : Nat → Bool) (p g x : Nat) :
    (isPrime p = false → elGamalCustom isPrime p g x = .error .notPrime)
    ∧ (isPrime p = true → isPrime ((p - 1) / 2) = false → elGamalCustom isPrime p g x = .error .notSafePrime)
    ∧ (isPrime p = true → isPrime ((p - 1) / 2) = true → isGenerator p g = false →
        elGamalCustom isPrime p g x = .error .invalidGenerator)
    ∧ (isPrime p = true → isPrime ((p - 1) / 2) = true → isGenerator p g = true → (x ≤ 1 ∨ p - 1 ≤ x) →
        elGamalCustom isPrime p g x = .error .keyOutOfRange) := by
  refine ⟨fun hp => ?_, fun hp hq => ?_, fun hp hq hg => ?_, fun hp hq hg hx => ?_⟩
  · simp only [elGamalCustom, hp, if_true]
  · simp only [elGamalCustom, hp, hq, Bool.true_eq_false, if_true, if_false]
  · simp only [elGamalCustom, hp, hq, hg, Bool.true_eq_false, if_true, if_false]
  · simp only [elGamalCustom, hp, hq, hg, hx, Bool.true_eq_false, if_true, if_false]

end Sys2Proof.Machine

open Sys2Proof Sys2Proof.Machine

/-- Settles O56: the decryption's power of c1 is the encryption's mask, whose inverse exists modulo a prime; key generation
makes a pair after all checks of its mode alone. -/
theorem elGamalGenerationAndDecryptionKeepTheirContract : Obligations.ElGamalGenerationAndDecryptionKeepTheirContract := by
  refine ⟨?ciphers, ?some, ?refusals, ?made⟩
  case ciphers =>
    intro pub priv plaintext draw hok hm
    have ⟨_, hhalf, _⟩ := hok
    have h5 := five_le_of_half_prime hhalf
    obtain ⟨hy2, hy⟩ := drawIn_mem 2 (pub.p - 2) draw (by omega)
    exact ⟨_, _, _, hy2, hy, elGamalEncrypt_of_lt hm draw, rfl, rfl, elGamal_decrypts hok hm hy2⟩
  case some => exact fun _ _ _ _ _ _ _ => elGamalGenerate_of_some
  case refusals => exact fun isPrime _ _ _ p g x => elGamalCustom_refuses isPrime p g x
  case made =>
    intro isPrime small draws len op og ox pub priv hsound h
    obtain ⟨p, g, x, rfl, rfl, rfl, hcustom⟩ | ⟨rfl, rfl, rfl, hauto⟩ := elGamalGenerate_cases h
    · obtain ⟨hok, hp, hg, hx⟩ := elGamalCustom_spec hsound hcustom
      exact ⟨hok, elGamalKeysConsistent_of_ok hok, by simpa using hp, by simpa using hg, by simpa using hx, nofun⟩
    · obtain ⟨d, hattempt⟩ := elGamalAuto_spec hauto
      obtain ⟨hok, hrange⟩ := elGamalAttempt_spec hsound hattempt
      exact ⟨hok, elGamalKeysConsistent_of_ok hok, nofun, nofun, nofun, fun _ => hrange⟩

end
